-- ==== Sys2Proof/Word.lean ====
section
/-! DEFINITION. The two widths the spec gives: a register is 16 bits wide (10_state.md R26) and every cell of FB,
RES and FONT is one byte (10_state.md R20, R40, R41). -/

namespace Sys2Proof

/-- A register, a host offset or a command word: 16 bits (10_state.md R26, 20_memory.md R50, 30_encoding.md R80). -/
abbrev Word := BitVec 16

/-- One byte of FB, RES or FONT. -/
abbrev Byte := BitVec 8

end Sys2Proof
end

