-- ==== Sys2Proof/Syntax.lean ====
section
/-! DEFINITION. The commands of the block, one constructor per row of spec/opcode_table.json (30_encoding.md R84).
COLOR and MODE are the only operands a command word carries (30_encoding.md R81); the others stand in ARG0..ARG7. -/

namespace Sys2Proof

/-- The COLOR field's named values (30_encoding.md R82); code 3 is reserved and names no colour. -/
inductive Colour where
  | black
  | white
  /-- Legal in BITMAP only (00_scope.md R18). -/
  | invert
deriving DecidableEq, Repr

/-- The draw modes, in the source's order (30_encoding.md R83); codes 6 and 7 are reserved and name no mode. -/
inductive DrawMode where
  | unmasked
  | selfmask
  | erasemask
  | masked
  | plusmask
  | autodetect
deriving DecidableEq, Repr

/-- A command (30_encoding.md R84). Which colours and modes a command admits is `Instr.wellFormed`. -/
inductive Instr where
  | nop
  | fill (c : Colour)
  | setpix (c : Colour)
  | getpix
  | hline (c : Colour)
  | vline (c : Colour)
  | line (c : Colour)
  | circle (c : Colour)
  | circleq (c : Colour)
  | fcircle (c : Colour)
  | fcircleq (c : Colour)
  | rect (c : Colour)
  | frect (c : Colour)
  | rrect (c : Colour)
  | frrect (c : Colour)
  | tri (c : Colour)
  | ftri (c : Colour)
  | bitmap (c : Colour)
  | sprite (m : DrawMode)
  | drawcomp (c : Colour)
  | rotvec
  | drawrot (m : DrawMode)
  | drawchar (c : Colour)
  | writechar
deriving DecidableEq, Repr

end Sys2Proof
end

