-- ==== Sys2Proof/WellFormed.lean ====
section
/-! DEFINITION. Which terms of `Instr` some command word stands for: the COLOR and MODE columns of
30_encoding.md R84. -/

namespace Sys2Proof

/-- The COLOR column `{0, 1}` of 30_encoding.md R84: the commands that paint one colour. -/
def Colour.isInk (c : Colour) : Bool := c != .invert

/-- The modes DRAWROT supports (30_encoding.md R83: "only 0 (`Overwrite`) and 1 (`SelfMask`)"). -/
def DrawMode.isRotation (m : DrawMode) : Bool := m == .unmasked || m == .selfmask

/-- The check of 30_encoding.md R84's COLOR and MODE columns: INVERT is for BITMAP alone (00_scope.md R18), and
DRAWROT takes only OVERWRITE and SELFMASK (30_encoding.md R83). -/
def Instr.wellFormed : Instr → Bool
  | .nop => true
  | .fill c => c.isInk
  | .setpix c => c.isInk
  | .getpix => true
  | .hline c => c.isInk
  | .vline c => c.isInk
  | .line c => c.isInk
  | .circle c => c.isInk
  | .circleq c => c.isInk
  | .fcircle c => c.isInk
  | .fcircleq c => c.isInk
  | .rect c => c.isInk
  | .frect c => c.isInk
  | .rrect c => c.isInk
  | .frrect c => c.isInk
  | .tri c => c.isInk
  | .ftri c => c.isInk
  | .bitmap _ => true
  | .sprite _ => true
  | .drawcomp c => c.isInk
  | .rotvec => true
  | .drawrot m => m.isRotation
  | .drawchar c => c.isInk
  | .writechar => true

/-- `Instr.wellFormed` as a proposition. -/
abbrev Instr.WellFormed (i : Instr) : Prop := i.wellFormed = true

end Sys2Proof
end

