-- ==== Sys2Proof/Decode.lean ====
section
/-! DEFINITION. The command word: its fields (30_encoding.md R80), the opcode map (R84), the decoding procedure (R85)
and, after it, the encoder. -/

namespace Sys2Proof

/-- Why a command word is refused at decode (30_encoding.md R85, 60_exceptions.md R311 codes 1 to 3). -/
inductive DecodeError where
  | illegalOpcode
  | reservedField
  | unsupportedMode
deriving DecidableEq, Repr

/-- OPC, bits [7:0] (30_encoding.md R80). -/
def opcField (v : Word) : Nat := (v.extractLsb' 0 8).toNat

/-- COLOR, bits [9:8] (30_encoding.md R80). -/
def colorField (v : Word) : Nat := (v.extractLsb' 8 2).toNat

/-- MODE, bits [12:10] (30_encoding.md R80). -/
def modeField (v : Word) : Nat := (v.extractLsb' 10 3).toNat

/-- RSV, bits [15:13] (30_encoding.md R80). -/
def rsvField (v : Word) : Nat := (v.extractLsb' 13 3).toNat

/-- The colour a COLOR code names (30_encoding.md R82). -/
def colourOf : Nat → Option Colour
  | 0 => some .black
  | 1 => some .white
  | 2 => some .invert
  | _ => none

/-- The draw mode a MODE code names (30_encoding.md R83). -/
def drawModeOf : Nat → Option DrawMode
  | 0 => some .unmasked
  | 1 => some .selfmask
  | 2 => some .erasemask
  | 3 => some .masked
  | 4 => some .plusmask
  | 5 => some .autodetect
  | _ => none

/-- What a row of the opcode map admits and builds (30_encoding.md R84). -/
inductive Row where
  /-- COLOR 0, MODE 0. -/
  | plain (i : Instr)
  /-- COLOR 0 or 1, MODE 0. -/
  | inked (mk : Colour → Instr)
  /-- COLOR 0, 1 or 2, MODE 0 (BITMAP). -/
  | painted (mk : Colour → Instr)
  /-- COLOR 0, MODE 0 to 5 (SPRITE). -/
  | moded (mk : DrawMode → Instr)
  /-- COLOR 0, MODE 0 or 1 supported, 2 to 5 unsupported (DRAWROT). -/
  | rotated (mk : DrawMode → Instr)

/-- The opcode map (30_encoding.md R84). -/
def rowOf : Nat → Option Row
  | 0x00 => some (.plain .nop)
  | 0x01 => some (.inked .fill)
  | 0x02 => some (.inked .setpix)
  | 0x03 => some (.plain .getpix)
  | 0x04 => some (.inked .hline)
  | 0x05 => some (.inked .vline)
  | 0x10 => some (.inked .line)
  | 0x20 => some (.inked .circle)
  | 0x21 => some (.inked .circleq)
  | 0x22 => some (.inked .fcircle)
  | 0x23 => some (.inked .fcircleq)
  | 0x30 => some (.inked .rect)
  | 0x31 => some (.inked .frect)
  | 0x32 => some (.inked .rrect)
  | 0x33 => some (.inked .frrect)
  | 0x34 => some (.inked .tri)
  | 0x35 => some (.inked .ftri)
  | 0x40 => some (.painted .bitmap)
  | 0x50 => some (.moded .sprite)
  | 0x60 => some (.inked .drawcomp)
  | 0x70 => some (.plain .rotvec)
  | 0x71 => some (.rotated .drawrot)
  | 0x80 => some (.inked .drawchar)
  | 0x81 => some (.plain .writechar)
  | _ => none

/-- 30_encoding.md R85 steps 3 to 6 for one row, on the COLOR and MODE codes. -/
def Row.resolve (row : Row) (color mode : Nat) : Except DecodeError Instr :=
  match row, colourOf color, drawModeOf mode with
  | .plain i, some .black, some .unmasked => .ok i
  | .inked mk, some .black, some .unmasked => .ok (mk .black)
  | .inked mk, some .white, some .unmasked => .ok (mk .white)
  | .painted mk, some c, some .unmasked => .ok (mk c)
  | .moded mk, some .black, some m => .ok (mk m)
  | .rotated mk, some .black, some m => if m.isRotation then .ok (mk m) else .error .unsupportedMode
  | _, _, _ => .error .reservedField

/-- The decoding procedure (30_encoding.md R85): total on the 65536 command words, each refusal by name. -/
def decode (v : Word) : Except DecodeError Instr :=
  match rowOf (opcField v) with
  | none => .error .illegalOpcode
  | some row =>
    if rsvField v ≠ 0 then .error .reservedField
    else row.resolve (colorField v) (modeField v)

/-! ## The encoder -/

/-- The COLOR code of a colour (30_encoding.md R82). -/
def Colour.code : Colour → Nat
  | .black => 0
  | .white => 1
  | .invert => 2

/-- The MODE code of a draw mode (30_encoding.md R83). -/
def DrawMode.code : DrawMode → Nat
  | .unmasked => 0
  | .selfmask => 1
  | .erasemask => 2
  | .masked => 3
  | .plusmask => 4
  | .autodetect => 5

/-- The OPC of a command (30_encoding.md R84). -/
def Instr.opcode : Instr → Nat
  | .nop => 0x00
  | .fill _ => 0x01
  | .setpix _ => 0x02
  | .getpix => 0x03
  | .hline _ => 0x04
  | .vline _ => 0x05
  | .line _ => 0x10
  | .circle _ => 0x20
  | .circleq _ => 0x21
  | .fcircle _ => 0x22
  | .fcircleq _ => 0x23
  | .rect _ => 0x30
  | .frect _ => 0x31
  | .rrect _ => 0x32
  | .frrect _ => 0x33
  | .tri _ => 0x34
  | .ftri _ => 0x35
  | .bitmap _ => 0x40
  | .sprite _ => 0x50
  | .drawcomp _ => 0x60
  | .rotvec => 0x70
  | .drawrot _ => 0x71
  | .drawchar _ => 0x80
  | .writechar => 0x81

/-- The COLOR code of a command: 0 where it has no colour operand (30_encoding.md R82). -/
def Instr.colorCode : Instr → Nat
  | .nop => 0
  | .fill c => c.code
  | .setpix c => c.code
  | .getpix => 0
  | .hline c => c.code
  | .vline c => c.code
  | .line c => c.code
  | .circle c => c.code
  | .circleq c => c.code
  | .fcircle c => c.code
  | .fcircleq c => c.code
  | .rect c => c.code
  | .frect c => c.code
  | .rrect c => c.code
  | .frrect c => c.code
  | .tri c => c.code
  | .ftri c => c.code
  | .bitmap c => c.code
  | .sprite _ => 0
  | .drawcomp c => c.code
  | .rotvec => 0
  | .drawrot _ => 0
  | .drawchar c => c.code
  | .writechar => 0

/-- The MODE code of a command: 0 but for SPRITE and DRAWROT (30_encoding.md R83). -/
def Instr.modeCode : Instr → Nat
  | .sprite m => m.code
  | .drawrot m => m.code
  | .nop | .fill _ | .setpix _ | .getpix | .hline _ | .vline _ | .line _ | .circle _ | .circleq _ | .fcircle _
  | .fcircleq _ | .rect _ | .frect _ | .rrect _ | .frrect _ | .tri _ | .ftri _ | .bitmap _ | .drawcomp _ | .rotvec
  | .drawchar _ | .writechar => 0

/-- The command word of a command: OPC | COLOR << 8 | MODE << 10 (30_encoding.md R80, R84). -/
def encode (i : Instr) : Word := BitVec.ofNat 16 (i.opcode + i.colorCode * 2 ^ 8 + i.modeCode * 2 ^ 10)

/-- The command the decoder reads from the `nbits` bits of a table word (log entry 14): the command word is those bits
as one 16-bit value, its other bits 0. -/
def decodeTableWord (nbits w : Nat) : Option Instr :=
  match decode (BitVec.ofNat 16 (w % 2 ^ nbits)) with
  | .ok i => some i
  | .error _ => none

end Sys2Proof
end

