-- ==== Sys2Proof/Machine/Memory.lean ====
section
/-! DEFINITION. Byte memories (FB, RES and FONT): lists of (address, byte) pairs in one canonical form, addresses
strictly rising and no entry equal to what an unlisted address reads as. -/

namespace Sys2Proof.Machine

/-- A byte memory. -/
abbrev Memory := List Host.Cell

/-- What an unlisted address reads as: 0x00, the reset value of every FB byte (70_reset_and_hazards.md R342); for RES
and FONT, whose contents the platform gives, DESIGN CHOICE (log entry 8). -/
def Memory.unlisted : Byte := 0x00

/-- The byte at an address. -/
def Memory.read (m : Memory) (k : Nat) : Byte :=
  match m with
  | [] => Memory.unlisted
  | (a, b) :: t => if a = k then b else Memory.read t k

/-- The memory without an entry for address `k`. -/
def Memory.erase (m : Memory) (k : Nat) : Memory := m.filter (fun c => c.1 != k)

/-- The memory with an entry added before the first larger address. -/
def Memory.insert (m : Memory) (k : Nat) (v : Byte) : Memory :=
  match m with
  | [] => [(k, v)]
  | (a, b) :: t => if k < a then (k, v) :: (a, b) :: t else (a, b) :: Memory.insert t k v

/-- Writing one byte: the canonical form is kept, so writing what an unlisted address reads as removes the entry. -/
def Memory.write (m : Memory) (k : Nat) (v : Byte) : Memory :=
  if v = Memory.unlisted then m.erase k else Memory.insert (m.erase k) k v

/-- The memory whose bytes 0..n-1 are `f 0`..`f (n-1)` and whose other bytes are unlisted. -/
def Memory.tabulate (n : Nat) (f : Nat → Byte) : Memory :=
  (List.range n).filterMap (fun k => if f k = Memory.unlisted then none else some (k, f k))

/-- The canonical form: addresses strictly rising, no entry equal to what an unlisted address reads as. -/
def Memory.wf (m : Memory) : Bool :=
  match m with
  | [] => true
  | (a, b) :: t => b != Memory.unlisted && t.all (fun c => decide (a < c.1)) && Memory.wf t

/-- Every listed address is below `n`: the memory lists no byte outside a space of `n` bytes. -/
def Memory.below (m : Memory) (n : Nat) : Bool := m.all (fun c => decide (c.1 < n))

end Sys2Proof.Machine
end

