-- ==== Sys2Proof/Config.lean ====
section
/-! DEFINITION. What an implementation fixes (00_scope.md section 5) and the free values: what the spec leaves
unspecified after an UNDEFINED outcome (60_exceptions.md R319). -/

namespace Sys2Proof

/-- RLE_SCAN_ORDER (00_scope.md R12): the order in which the compressed-bitmap decoder visits cells. -/
inductive ScanOrder where
  /-- Down each column before the next one (the default). -/
  | column
  /-- Along each 8-row page band before the next one. -/
  | pageRow
deriving DecidableEq, Repr

/-- The implementation parameters (00_scope.md R7, R9, R11, R12). RES and FONT contents, parameters of a run
(00_scope.md R9, R10), are memories of the state. -/
structure Params where
  /-- WIDTH (00_scope.md R7). -/
  width : Nat
  /-- HEIGHT (00_scope.md R7). -/
  height : Nat
  /-- RES_SIZE (00_scope.md R9). -/
  resSize : Nat
  /-- SIN_TABLE (00_scope.md R11). -/
  sinTable : List Nat
  /-- RLE_SCAN_ORDER (00_scope.md R12). -/
  scanOrder : ScanOrder
deriving DecidableEq, Repr

/-- FREE VALUE (log entry 4): what byte `k` of FB holds after the `n`-th UNDEFINED outcome (60_exceptions.md R319:
"unspecified"). -/
opaque Config.freeByte (n k : Nat) : Byte

/-- FREE VALUE (log entry 4): what the `j`-th of RESULT0, RESULT1, CURSOR_X, CURSOR_Y holds after the `n`-th
UNDEFINED outcome (60_exceptions.md R319: "unspecified"). -/
opaque Config.freeWord (n j : Nat) : Word

/-- FREE VALUE (log entry 4): STATUS.ERR after the `n`-th UNDEFINED outcome, any value of 0..15
(93_implementation_defined.md part 2 row 8). -/
opaque Config.freeErr (n : Nat) : BitVec 4

end Sys2Proof
end

