-- ==== Sys2Proof/Machine/Params.lean ====
section
/-! DEFINITION. The derived constants, the legal ranges and the default values of the implementation parameters
(00_scope.md section 5). -/

namespace Sys2Proof

/-- PAGES = HEIGHT / 8 (00_scope.md R8). -/
def Params.pages (p : Params) : Nat := p.height / 8

/-- FB_BYTES = WIDTH * PAGES (00_scope.md R8). -/
def Params.fbBytes (p : Params) : Nat := p.width * p.pages

/-- The ranges of the parameters: WIDTH and HEIGHT (00_scope.md R7), RES_SIZE (R9), SIN_TABLE (R11). -/
def Params.wf (p : Params) : Bool :=
  decide (1 ≤ p.width) && decide (p.width ≤ 128) && decide (8 ≤ p.height) && decide (p.height ≤ 128)
    && decide (p.height % 8 = 0) && decide (1 ≤ p.resSize) && decide (p.resSize ≤ 65536)
    && decide (p.sinTable.length = 90) && p.sinTable.all (fun v => decide (v ≤ 127))
    && decide (p.sinTable.getD 0 1 = 0)

/-- The default SIN_TABLE (47_affine.md R261). -/
def defaultSinTable : List Nat :=
  [0, 2, 4, 7, 9, 11, 13, 15, 18, 20,
   22, 24, 26, 29, 31, 33, 35, 37, 39, 41,
   43, 46, 48, 50, 52, 54, 56, 58, 60, 62,
   63, 65, 67, 69, 71, 73, 75, 76, 78, 80,
   82, 83, 85, 87, 88, 90, 91, 93, 94, 96,
   97, 99, 100, 101, 103, 104, 105, 107, 108, 109,
   110, 111, 112, 113, 114, 115, 116, 117, 118, 119,
   119, 120, 121, 121, 122, 123, 123, 124, 124, 125,
   125, 125, 126, 126, 126, 127, 127, 127, 127, 127]

/-- The default parameters (00_scope.md R7, R11, R12). DESIGN CHOICE (log entry 7): RES_SIZE, which has no default,
is 65536. -/
def defaultParams : Params where
  width := 128
  height := 64
  resSize := 65536
  sinTable := defaultSinTable
  scanOrder := .column

end Sys2Proof
end

