-- ==== Sys2Proof/Machine/State.lean ====
section
/-! DEFINITION. The state of the block (10_state.md), the inputs it can receive, and the state after reset
(70_reset_and_hazards.md R341). -/

namespace Sys2Proof.Machine

/-- The error codes 1 to 4 a command can end in (60_exceptions.md R311). -/
inductive ErrCode where
  /-- Raised by decode, 30_encoding.md R85 step 1. -/
  | illegalOpcode
  /-- Raised by decode, 30_encoding.md R85 steps 2 to 4. -/
  | reservedField
  /-- Raised by decode, 30_encoding.md R85 step 5. -/
  | unsupportedMode
  /-- Raised by SPRITE, 45_sprite_unaligned.md R203. -/
  | nullMask
deriving DecidableEq, Repr

/-- The reasons of an UNDEFINED outcome (60_exceptions.md R318). -/
inductive Undefined where
  /-- A pixel write outside the buffer in unchecked mode (40_framebuffer.md R100). -/
  | pixelRange
  /-- A resource read at an address >= RES_SIZE (20_memory.md R57). -/
  | resRange
  /-- A malformed compressed stream (46_rle_decoder.md R234, R239). -/
  | rleOverrun
  /-- RES changed by an outside agent while a command runs (20_memory.md R68). -/
  | resChanged
deriving DecidableEq, Repr

/-- The three outcomes of a command (00_scope.md R17, 60_exceptions.md R310). -/
inductive CmdOutcome where
  | done
  | err (e : ErrCode)
  | undefined (r : Undefined)
deriving DecidableEq, Repr

/-- What can reach the block from outside, one input per step: host accesses (20_memory.md R51) and the platform's
reset and loads (70_reset_and_hazards.md R340, R343, R344, R347; 20_memory.md R68). -/
inductive Input where
  /-- 16-bit host write of `v` at byte offset `off`. -/
  | write16 (off v : Word)
  /-- 8-bit host write. -/
  | write8 (off : Word) (v : Byte)
  /-- 16-bit host read. -/
  | read16 (off : Word)
  /-- 8-bit host read. -/
  | read8 (off : Word)
  /-- The platform asserts and releases reset (70_reset_and_hazards.md R340). -/
  | platformReset
  /-- A host write of `v` to CMD whose command the platform's reset abandons (70_reset_and_hazards.md R343). -/
  | resetDuring (v : Word)
  /-- The platform stores one byte of RES between commands (70_reset_and_hazards.md R344, R347). -/
  | loadRes (a : Word) (b : Byte)
  /-- The platform stores column `i` of glyph `c` of FONT (70_reset_and_hazards.md R344; when it may, log entry 19). -/
  | loadFont (c : Byte) (i : Fin 5) (b : Byte)
  /-- A host write of `v` to CMD while whose command runs an outside agent stores `b` at RES address `a`
  (20_memory.md R68). -/
  | writeCmdRacingRes (v a : Word) (b : Byte)
deriving DecidableEq, Repr

/-- What a host read answers. -/
inductive Response where
  | byte (b : Byte)
  | word (w : Word)
deriving DecidableEq, Repr

/-- The block's state. The registers are those of 10_state.md R26 (ID is hard-wired, log entry 12); the last four
fields are the model's own. -/
structure State where
  /-- The implementation parameters, which no step changes (00_scope.md section 5, log entry 7). -/
  params : Params
  /-- FB (10_state.md R20). -/
  fb : Memory
  /-- RES (10_state.md R40). -/
  res : Memory
  /-- FONT (10_state.md R41): byte `i` of glyph `c` at address `5 * c + i`. -/
  font : Memory
  /-- ARG0..ARG7 (10_state.md R23). -/
  args : Vector Word 8
  /-- CONFIG (10_state.md R28). -/
  config : Word
  /-- STATUS.ERR (10_state.md R29). -/
  err : BitVec 4
  /-- STATUS.BUSERR (10_state.md R30). -/
  busErr : Bool
  /-- CMD (10_state.md R31). -/
  cmd : Word
  /-- RESULT0 (10_state.md R32). -/
  result0 : Word
  /-- RESULT1 (10_state.md R32). -/
  result1 : Word
  /-- CURSOR_X (10_state.md R34). -/
  cursorX : Word
  /-- CURSOR_Y (10_state.md R34). -/
  cursorY : Word
  /-- TEXT_SIZE (10_state.md R35). -/
  textSize : Word
  /-- TEXT_COLOR (10_state.md R36). -/
  textColor : Word
  /-- TEXT_BG (10_state.md R37). -/
  textBg : Word
  /-- TEXT_WRAP (10_state.md R38). -/
  textWrap : Word
  /-- MODEL: the inputs not yet performed, oldest first (log entry 1). -/
  pending : List Input
  /-- MODEL: what the host's reads answered, newest first (log entry 6). -/
  responses : List Response
  /-- MODEL: the outcome of the latest command (log entry 5). -/
  lastOutcome : Option CmdOutcome
  /-- MODEL: the counter the free values are drawn with (log entry 4). -/
  freeCtr : Nat
deriving DecidableEq, Repr

/-- The step never faults: the block takes no trap (60_exceptions.md R316), and an UNDEFINED outcome is a next state
with the unspecified state free (60_exceptions.md R319, log entry 3). No constructor. -/
inductive Fault where
deriving DecidableEq, Repr

/-- Why the model has no meaning for an instruction. -/
inductive Refusal where
  /-- Raised by an arm of `exec` whose instruction has no meaning yet; safe (the machine stops). No arm raises it. -/
  | notModelled (mnemonic : String)
deriving DecidableEq, Repr

/-- The state after reset (70_reset_and_hazards.md R341), at the default parameters. DESIGN CHOICE: RES_SIZE (log
entry 7), the contents of RES and FONT (log entry 8) and the model's own fields (log entries 1, 4, 5, 6). -/
def State.reset : State where
  params := defaultParams
  fb := []
  res := []
  font := []
  args := #v[0, 0, 0, 0, 0, 0, 0, 0]
  config := 0x0001
  err := 0
  busErr := false
  cmd := 0x0000
  result0 := 0x0000
  result1 := 0x0000
  cursorX := 0x0000
  cursorY := 0x0000
  textSize := 0x0001
  textColor := 0x0001
  textBg := 0x0000
  textWrap := 0x0000
  pending := []
  responses := []
  lastOutcome := none
  freeCtr := 0

end Sys2Proof.Machine
end

