-- ==== Sys2Proof/Machine/Flags.lean ====
section
/-! DEFINITION. STATUS and the one-bit fields of the other registers. The block has no condition codes
(10_state.md R42); its only status indications are STATUS.ERR and STATUS.BUSERR. -/

namespace Sys2Proof.Machine

/-- The number of an error code (60_exceptions.md R311). -/
def ErrCode.code : ErrCode → BitVec 4
  | .illegalOpcode => 1
  | .reservedField => 2
  | .unsupportedMode => 3
  | .nullMask => 4

/-- STATUS as the host reads it: ERR in bits [3:0], BUSERR in bit 4, bits [15:5] zero (10_state.md R29, R30). -/
def statusWord (err : BitVec 4) (busErr : Bool) : Word :=
  ((0 : BitVec 11) ++ BitVec.ofBool busErr) ++ err

/-- BUSERR after a host write of `v` to STATUS: cleared by a 1 in bit 4, else unchanged (10_state.md R30). -/
def busErrAfterWrite (busErr : Bool) (v : Word) : Bool := busErr && !v.getLsbD 4

/-- What a register whose bits [15:1] are reserved stores: bit 0 (10_state.md R28, R36, R37, R38). -/
def bit0Only (v : Word) : Word := v &&& 0x0001

/-- What TEXT_SIZE stores: the low byte, or 1 where that is 0 (10_state.md R35). -/
def legalTextSize (v : Word) : Word := if v &&& 0x00FF = 0 then 0x0001 else v &&& 0x00FF

/-- CONFIG.PIXEL_SAFE (10_state.md R28). -/
def State.pixelSafe (s : State) : Bool := s.config.getLsbD 0

end Sys2Proof.Machine
end

