-- ==== Sys2Proof/Machine/Operands.lean ====
section
/-! DEFINITION. The operand views of the ARG registers (10_state.md R24, 30_encoding.md R81). -/

namespace Sys2Proof.Machine

/-- ARG[i] (00_scope.md R16). -/
def State.arg (s : State) (i : Fin 8) : Word := s.args[i]

/-- S16: two's-complement 16 bits (10_state.md R24). -/
def s16 (w : Word) : Int := w.toInt

/-- U8: bits [7:0], zero-extended (10_state.md R24). -/
def u8 (w : Word) : Nat := (w.extractLsb' 0 8).toNat

/-- ADDR: bits [15:0], unsigned (10_state.md R24). -/
def addr (w : Word) : Nat := w.toNat

/-- BITS_n: bits [n-1:0] (10_state.md R24). -/
def bits (n : Nat) (w : Word) : Nat := (w.extractLsb' 0 n).toNat

/-- A value stored into a 16-bit register is taken mod 2^16 (00_scope.md R15). -/
def toWord (v : Int) : Word := BitVec.ofInt 16 v

end Sys2Proof.Machine
end

