-- ==== Sys2Proof/Machine/Ops.lean ====
section
/-! DEFINITION. The operations every command shares: how a command ends (60_exceptions.md R310 to R319; the block takes
no trap, so these stand where another machine takes an exception), reading RES and FONT (20_memory.md R57, R61),
reading and writing pixels (40_framebuffer.md R100, R101). -/

namespace Sys2Proof.Machine

/-- What a command answers. -/
abbrev StepResult := Host.Outcome State Fault Refusal

/-! ## How a command ends -/

/-- DONE: STATUS.ERR becomes 0 (60_exceptions.md R312). -/
def finishDone (s : State) : State := { s with err := 0, lastOutcome := some .done }

/-- ERR(code): STATUS.ERR becomes the code and nothing else changes (60_exceptions.md R312, 00_scope.md R16). -/
def raiseErr (e : ErrCode) (s : State) : State := { s with err := e.code, lastOutcome := some (.err e) }

/-- UNDEFINED(reason): FB, RESULT0, RESULT1, CURSOR_X, CURSOR_Y and STATUS.ERR become free values and every other
register, RES and FONT keep theirs (60_exceptions.md R319, log entries 3 and 4). -/
def raiseUndefined (r : Undefined) (s : State) : State :=
  { s with
    fb := Memory.tabulate s.params.fbBytes (Config.freeByte s.freeCtr)
    result0 := Config.freeWord s.freeCtr 0
    result1 := Config.freeWord s.freeCtr 1
    cursorX := Config.freeWord s.freeCtr 2
    cursorY := Config.freeWord s.freeCtr 3
    err := Config.freeErr s.freeCtr
    lastOutcome := some (.undefined r)
    freeCtr := s.freeCtr + 1 }

/-- How a drawing command ends: DONE with the frame buffer it computed, or UNDEFINED. -/
def concludeFb (s : State) (result : Except Undefined Memory) : StepResult :=
  match result with
  | .ok fb => .next (finishDone { s with fb := fb })
  | .error r => .next (raiseUndefined r s)

/-- The pixel value a colour operand in {0, 1} stands for (00_scope.md R18). -/
def inkOf : Colour → Option Bool
  | .black => some false
  | .white => some true
  | .invert => none

/-- A command that paints one colour; INVERT is a reserved encoding for it (30_encoding.md R82, R85 step 3). -/
def withInk (c : Colour) (s : State) (body : Bool → StepResult) : StepResult :=
  match inkOf c with
  | some ink => body ink
  | none => .next (raiseErr .reservedField s)

/-! ## Resource memory and font -/

/-- The 16-bit resource address of an integer: `a mod 2^16` (20_memory.md R57). -/
def resAddr (a : Int) : Nat := (a % 65536).toNat

/-- MemRead(RES, a, 1) (20_memory.md R57). -/
def resRead (p : Params) (res : Memory) (a : Int) : Except Undefined Byte :=
  if resAddr a < p.resSize then .ok (res.read (resAddr a)) else .error .resRange

/-- MemRead(FONT, c, i) (20_memory.md R61). -/
def fontRead (font : Memory) (c i : Nat) : Byte := font.read (5 * c + i)

/-! ## Pixels -/

/-- A pixel coordinate, or a point a shape touches. -/
abbrev Point := Int × Int

/-- One pixel write: where, and the colour (true is WHITE). -/
structure Dot where
  x : Int
  y : Int
  on : Bool
deriving DecidableEq, Repr

/-- (x, y) lies in `[0,WIDTH)×[0,HEIGHT)`. -/
def inBuffer (p : Params) (x y : Int) : Bool :=
  decide (0 ≤ x) && decide (x < p.width) && decide (0 ≤ y) && decide (y < p.height)

/-- The FB byte that holds pixel (x, y) (10_state.md R21). -/
def pixelByte (p : Params) (x y : Int) : Nat := (y / 8 * p.width + x).toNat

/-- The bit of that byte that is pixel (x, y) (10_state.md R21). -/
def pixelBit (y : Int) : Nat := (y % 8).toNat

/-- A byte with one bit set or cleared (40_framebuffer.md R100). -/
def setBit (b : Byte) (j : Nat) (on : Bool) : Byte :=
  if on then b ||| (0x01 <<< j) else b &&& (0xFF ^^^ (0x01 <<< j))

/-- PixelWrite (40_framebuffer.md R100); `safe` is CONFIG.PIXEL_SAFE. -/
def pixelWrite (p : Params) (safe : Bool) (fb : Memory) (d : Dot) : Except Undefined Memory :=
  if inBuffer p d.x d.y then
    .ok (fb.write (pixelByte p d.x d.y) (setBit (fb.read (pixelByte p d.x d.y)) (pixelBit d.y) d.on))
  else if safe then .ok fb
  else .error .pixelRange

/-- PixelRead (40_framebuffer.md R101), for (x, y) in the buffer. -/
def pixelRead (p : Params) (fb : Memory) (x y : Int) : Bool :=
  (fb.read (pixelByte p x y)).getLsbD (pixelBit y)

/-- The pixel writes of a shape, in the order the shape's rule gives (20_memory.md R65). -/
def paint (p : Params) (safe : Bool) (dots : List Dot) (fb : Memory) : Except Undefined Memory :=
  dots.foldlM (pixelWrite p safe) fb

/-- A shape in one colour. -/
def inked (ink : Bool) (pts : List Point) : List Dot := pts.map (fun q => ⟨q.1, q.2, ink⟩)

/-- A command that writes the pixels of a shape in one colour. -/
def drawPoints (s : State) (ink : Bool) (pts : List Point) : StepResult :=
  concludeFb s (paint s.params s.pixelSafe (inked ink pts) s.fb)

/-- The integers lo, lo + 1, …, hi - 1 (none where hi <= lo). -/
def intRange (lo hi : Int) : List Int := (List.range (hi - lo).toNat).map (fun (n : Nat) => lo + (n : Int))

/-- HSpan (40_framebuffer.md R106): the visible points of a horizontal run. -/
def hspan (p : Params) (x y w : Int) : List Point :=
  if y < 0 ∨ p.height ≤ y then []
  else (intRange (max x 0) (min (x + w) p.width)).map (fun xi => (xi, y))

/-- VSpan (40_framebuffer.md R108): the visible points of a vertical run. -/
def vspan (p : Params) (x y h : Int) : List Point :=
  if x < 0 ∨ p.width ≤ x then []
  else (intRange (max y 0) (min (y + h) p.height)).map (fun yi => (x, yi))

end Sys2Proof.Machine
end

