-- ==== Sys2Proof/Machine/Blit.lean ====
section
/-! DEFINITION. The page-split blit and BITMAP (44_sprite_aligned.md). -/

namespace Sys2Proof.Machine

/-- What BlitGeometry computes (44_sprite_aligned.md R180): transient state of a command (10_state.md R43). -/
structure BlitGeom where
  /-- Source pages. -/
  rows : Nat
  /-- Destination page of source page 0. -/
  sRow : Int
  /-- The sub-byte offset `y mod 8`. -/
  yo : Nat
  /-- First visible column. -/
  ilo : Int
  /-- Last visible column. -/
  ihi : Int
deriving DecidableEq, Repr

/-- BlitGeometry (44_sprite_aligned.md R180). -/
def blitGeometry (p : Params) (x y : Int) (w h : Nat) : Option BlitGeom :=
  if x + w ≤ 0 ∨ x ≥ p.width ∨ y + h ≤ 0 ∨ y ≥ p.height then none
  else some
    { rows := (h + 7) / 8
      sRow := y / 8
      yo := (y % 8).toNat
      ilo := max 0 (-x)
      ihi := min (w : Int) (p.width - x) - 1 }

/-- `0 <= pg < PAGES`. -/
def onPage (p : Params) (pg : Int) : Bool := decide (0 ≤ pg) && decide (pg < p.pages)

/-- `hi_ok` of source page `a` (44_sprite_aligned.md R181). -/
def BlitGeom.hiOk (g : BlitGeom) (p : Params) (a : Int) : Bool := g.yo != 0 && onPage p (g.sRow + a + 1)

/-- `lo_ok` of source page `a` (44_sprite_aligned.md R181). -/
def BlitGeom.loOk (g : BlitGeom) (p : Params) (a : Int) : Bool := onPage p (g.sRow + a)

/-- A source page with at least one destination page on screen (44_sprite_aligned.md R181). -/
def BlitGeom.rowVisible (g : BlitGeom) (p : Params) (a : Int) : Bool := g.loOk p a || g.hiOk p a

/-- The visible cells (a, i), pages outer and columns inner (44_sprite_aligned.md R181). -/
def visibleCells (p : Params) (g : BlitGeom) : List (Int × Int) :=
  (intRange 0 g.rows).flatMap fun a =>
    if g.rowVisible p a then (intRange g.ilo (g.ihi + 1)).map (fun i => (a, i)) else []

/-- The 16-bit intermediate of a source byte (44_sprite_aligned.md R181). -/
def shifted (v : Byte) (yo : Nat) : Word := v.setWidth 16 <<< yo

/-- A combine: the destination byte, the image byte and the mask byte give the new destination byte. -/
abbrev Combine := Byte → Byte → Byte → Byte

/-- FB[k] becomes Combine(FB[k], sb, mb) (20_memory.md R62). -/
def combineAt (fb : Memory) (k : Nat) (f : Combine) (sb mb : Byte) : Memory := fb.write k (f (fb.read k) sb mb)

/-- The FB index of page `pg`, column `x` (10_state.md R20). -/
def fbIndex (p : Params) (pg x : Int) : Nat := (pg * p.width + x).toNat

/-- The write step of cell (a, i) (44_sprite_aligned.md R181). -/
def blitCell (p : Params) (g : BlitGeom) (x : Int) (f : Combine) (a i : Int) (src msk : Byte) (fb : Memory) : Memory :=
  let S := shifted src g.yo
  let M := shifted msk g.yo
  let fb := if g.loOk p a then
      combineAt fb (fbIndex p (g.sRow + a) (x + i)) f (S.extractLsb' 0 8) (M.extractLsb' 0 8) else fb
  if g.hiOk p a then
      combineAt fb (fbIndex p (g.sRow + a + 1) (x + i)) f (S.extractLsb' 8 8) (M.extractLsb' 8 8) else fb

/-- Fetch(a, i): the image byte and the mask byte of a cell. -/
abbrev Fetch := Int → Int → Except Undefined (Byte × Byte)

/-- One cell of BlitCells: fetch, then write (44_sprite_aligned.md R181). -/
def blitStep (p : Params) (g : BlitGeom) (x : Int) (fetch : Fetch) (f : Combine) (fb : Memory) (cell : Int × Int) :
    Except Undefined Memory :=
  match fetch cell.1 cell.2 with
  | .ok (src, msk) => .ok (blitCell p g x f cell.1 cell.2 src msk fb)
  | .error r => .error r

/-- BlitCells (44_sprite_aligned.md R181). -/
def blitCells (p : Params) (x y : Int) (w h : Nat) (fetch : Fetch) (f : Combine) (fb : Memory) :
    Except Undefined Memory :=
  match blitGeometry p x y w h with
  | none => .ok fb
  | some g => (visibleCells p g).foldlM (blitStep p g x fetch f) fb

/-! ## Combines -/

/-- Set the image's 1-bits (44_sprite_aligned.md R182 WHITE, 45_sprite_unaligned.md R206, 46_rle_decoder.md R238). -/
def combineOr : Combine := fun d sb _ => d ||| sb

/-- Clear the image's 1-bits (44_sprite_aligned.md R182 BLACK, 45_sprite_unaligned.md R207, 46_rle_decoder.md R238). -/
def combineClear : Combine := fun d sb _ => d &&& (0xFF ^^^ sb)

/-- Flip the image's 1-bits (44_sprite_aligned.md R182 INVERT). -/
def combineXor : Combine := fun d sb _ => d ^^^ sb

/-- Clear the mask's 1-bits, then set the image's (45_sprite_unaligned.md R205, R208, R209). -/
def combineMasked : Combine := fun d sb mb => (d &&& (0xFF ^^^ mb)) ||| sb

/-! ## BITMAP -/

/-- The combine of a BITMAP colour (44_sprite_aligned.md R182). -/
def bitmapCombine : Colour → Combine
  | .black => combineClear
  | .white => combineOr
  | .invert => combineXor

/-- The fetch of a frame without a mask byte of its own: image byte `a * w + i`, mask byte `msk`
(44_sprite_aligned.md R182, 45_sprite_unaligned.md R204). -/
def fetchPlain (p : Params) (res : Memory) (img : Int) (w : Nat) (msk : Byte) : Fetch := fun a i =>
  match resRead p res (img + (a * w + i)) with
  | .ok src => .ok (src, msk)
  | .error r => .error r

/-- BITMAP (44_sprite_aligned.md R182). -/
def execBitmap (c : Colour) (s : State) : StepResult :=
  let b := addr (s.arg 2)
  let w := u8 (s.arg 3)
  let h := u8 (s.arg 4)
  if b = 0 ∨ w = 0 ∨ h = 0 then .next (finishDone s)
  else concludeFb s
    (blitCells s.params (s16 (s.arg 0)) (s16 (s.arg 1)) w h (fetchPlain s.params s.res b w 0) (bitmapCombine c) s.fb)

end Sys2Proof.Machine
end

