-- ==== Sys2Proof/Machine/Sprite.lean ====
section
/-! DEFINITION. SPRITE, the multi-mode sprite compositor (45_sprite_unaligned.md). -/

namespace Sys2Proof.Machine

/-- AutoDetect resolution (45_sprite_unaligned.md R202). -/
def resolveMode (m : DrawMode) (mask : Nat) : DrawMode :=
  match m with
  | .autodetect => if mask ≠ 0 then .masked else .unmasked
  | .unmasked => .unmasked
  | .selfmask => .selfmask
  | .erasemask => .erasemask
  | .masked => .masked
  | .plusmask => .plusmask

/-- Bytes of one frame of cells: `w * ((h + 7) div 8)` (20_memory.md R59). -/
def frameCells (w h : Nat) : Nat := w * ((h + 7) / 8)

/-- The frame size of a resolved mode, doubled for PlusMask (45_sprite_unaligned.md R200). -/
def frameSize (m : DrawMode) (w h : Nat) : Nat :=
  match m with
  | .plusmask => 2 * frameCells w h
  | .unmasked | .selfmask | .erasemask | .masked | .autodetect => frameCells w h

/-- The address of the image of frame `f` (45_sprite_unaligned.md R201). -/
def frameAddr (m : DrawMode) (b f w h : Nat) : Nat := b + 2 + f * frameSize m w h

/-- The address of the mask of mask frame `mf` (45_sprite_unaligned.md R201). -/
def maskAddr (mask mf w h : Nat) : Nat := mask + mf * frameCells w h

/-- The fetch of two bytes: the image byte at one address, then the mask byte at another (45_sprite_unaligned.md R204). -/
def fetchPair (p : Params) (res : Memory) (srcAt mskAt : Int → Int → Int) : Fetch := fun a i =>
  match resRead p res (srcAt a i) with
  | .error r => .error r
  | .ok src =>
    match resRead p res (mskAt a i) with
    | .error r => .error r
    | .ok msk => .ok (src, msk)

/-- The cell fetch of a resolved mode (45_sprite_unaligned.md R204). -/
def spriteFetch (p : Params) (res : Memory) (m : DrawMode) (img mk : Int) (w : Nat) : Fetch :=
  match m with
  | .plusmask => fetchPair p res (fun a i => img + 2 * (a * w + i)) (fun a i => img + 2 * (a * w + i) + 1)
  | .masked => fetchPair p res (fun a i => img + (a * w + i)) (fun a i => mk + (a * w + i))
  | .unmasked | .selfmask | .erasemask | .autodetect => fetchPlain p res img w 0xFF

/-- The combine of a resolved mode (45_sprite_unaligned.md R205 to R209). -/
def spriteCombine : DrawMode → Combine
  | .selfmask => combineOr
  | .erasemask => combineClear
  | .unmasked | .masked | .plusmask | .autodetect => combineMasked

/-- SPRITE from the header on, for a resolved mode (45_sprite_unaligned.md R210). -/
def drawSprite (s : State) (m : DrawMode) (b f mask mf : Nat) : Except Undefined Memory :=
  match resRead s.params s.res b with
  | .error r => .error r
  | .ok wb =>
    match resRead s.params s.res (b + 1) with
    | .error r => .error r
    | .ok hb =>
      if wb.toNat = 0 ∨ hb.toNat = 0 then .ok s.fb
      else
        blitCells s.params (s16 (s.arg 0)) (s16 (s.arg 1)) wb.toNat hb.toNat
          (spriteFetch s.params s.res m (frameAddr m b f wb.toNat hb.toNat) (maskAddr mask mf wb.toNat hb.toNat) wb.toNat)
          (spriteCombine m) s.fb

/-- SPRITE (45_sprite_unaligned.md R210). -/
def execSprite (m : DrawMode) (s : State) : StepResult :=
  let b := addr (s.arg 2)
  let f := u8 (s.arg 3)
  let mask := addr (s.arg 4)
  let mf := u8 (s.arg 5)
  if b = 0 then .next (finishDone s)
  else if resolveMode m mask = .masked ∧ mask = 0 then .next (raiseErr .nullMask s)
  else concludeFb s (drawSprite s (resolveMode m mask) b f mask mf)

end Sys2Proof.Machine
end

