-- ==== Sys2Proof/Machine/Affine.lean ====
section
/-! DEFINITION. ROTVEC and DRAWROT (47_affine.md). -/

namespace Sys2Proof.Machine

/-! ## The rotation vector -/

/-- SinQ below 180 degrees (47_affine.md R260): the table, full scale at 90, the mirror past it. -/
def sinHalf (p : Params) (d : Nat) : Int :=
  if d < 90 then p.sinTable.getD d 0 else if d = 90 then 127 else p.sinTable.getD (180 - d) 0

/-- SinQ (47_affine.md R260), for 0 <= d < 360. -/
def sinQ (p : Params) (d : Nat) : Int := if d ≥ 180 then -sinHalf p (d - 180) else sinHalf p d

/-- Angle normalisation `A mod 360` (47_affine.md R262). -/
def normAngle (A : Int) : Nat := (A % 360).toNat

/-- The sine of RotationVector (47_affine.md R263). -/
def rotSin (p : Params) (A : Int) : Int := sinQ p (normAngle A)

/-- The cosine of RotationVector (47_affine.md R263). -/
def rotCos (p : Params) (A : Int) : Int := sinQ p ((normAngle A + 90) % 360)

/-- ROTVEC (47_affine.md R264). -/
def execRotvec (s : State) : StepResult :=
  .next (finishDone { s with
    result0 := toWord (rotCos s.params (s16 (s.arg 0)))
    result1 := toWord (rotSin s.params (s16 (s.arg 0))) })

/-! ## The forward-mapping walk -/

/-- Inc(f, p), the scaled increment in 8.8 fixed point (47_affine.md R266). -/
def scaledInc (f : Int) (percent : Nat) : Int := (f * percent * 256).tdiv 12700

/-- One visit of the walk: the source pixel (i, j) and the accumulators there (47_affine.md R268). -/
structure Visit where
  i : Nat
  j : Nat
  px : Word
  py : Word
deriving DecidableEq, Repr

/-- The inner loop: `n` rows of column `i` from row `j` (47_affine.md R268). -/
def walkRows (C S : Word) (i : Nat) (n j : Nat) (px py : Word) : List Visit :=
  match n with
  | 0 => []
  | n + 1 => ⟨i, j, px, py⟩ :: walkRows C S i n (j + 1) (px - S) (py + C)

/-- The outer loop: `n` columns of `h` rows from column `i` (47_affine.md R268). -/
def walkColumns (C S : Word) (h : Nat) (n i : Nat) (colX colY : Word) : List Visit :=
  match n with
  | 0 => []
  | n + 1 => walkRows C S i h 0 colX colY ++ walkColumns C S h n (i + 1) (colX + C) (colY + S)

/-- The anchor X0 (47_affine.md R267). -/
def anchorX (x : Int) (w h : Nat) (C S : Int) : Word :=
  toWord ((x + (w / 2 : Nat)) * 256 - ((w / 2 : Nat) * C - (h / 2 : Nat) * S))

/-- The anchor Y0 (47_affine.md R267). -/
def anchorY (y : Int) (w h : Nat) (C S : Int) : Word :=
  toWord ((y + (h / 2 : Nat)) * 256 - ((w / 2 : Nat) * S + (h / 2 : Nat) * C))

/-- The integer part of an 8.8 accumulator, read unsigned (47_affine.md R270). -/
def intPart (v : Word) : Int := (v.extractLsb' 8 8).toNat

/-- Source pixel (i, j) of the frame at `src` (47_affine.md R269). -/
def sourcePixel (p : Params) (res : Memory) (src : Int) (w i j : Nat) : Except Undefined Bool :=
  match resRead p res (src + (j / 8 : Nat) * w + i) with
  | .ok b => .ok (b.getLsbD (j % 8))
  | .error r => .error r

/-- Visiting a pixel (47_affine.md R270): Overwrite writes its value, SelfMask only a 1; the write is clipped whatever
CONFIG.PIXEL_SAFE says. -/
def visitPixel (p : Params) (res : Memory) (src : Int) (w : Nat) (selfMask : Bool) (fb : Memory) (v : Visit) :
    Except Undefined Memory :=
  match sourcePixel p res src w v.i v.j with
  | .error r => .error r
  | .ok on => if selfMask && !on then .ok fb else pixelWrite p true fb ⟨intPart v.px, intPart v.py, on⟩

/-- The visits of a w × h frame at (x, y), turned by `A` degrees and scaled to `percent` (47_affine.md R267, R268). -/
def rotVisits (p : Params) (x y : Int) (w h : Nat) (A : Int) (percent : Nat) : List Visit :=
  let C := scaledInc (rotCos p A) percent
  let S := scaledInc (rotSin p A) percent
  walkColumns (toWord C) (toWord S) h w 0 (anchorX x w h C S) (anchorY y w h C S)

/-- DRAWROT from the header on (47_affine.md R272). -/
def drawRotated (s : State) (selfMask : Bool) (b f : Nat) : Except Undefined Memory :=
  match resRead s.params s.res b with
  | .error r => .error r
  | .ok wb =>
    match resRead s.params s.res (b + 1) with
    | .error r => .error r
    | .ok hb =>
      if wb.toNat = 0 ∨ hb.toNat = 0 then .ok s.fb
      else
        (rotVisits s.params (s16 (s.arg 0)) (s16 (s.arg 1)) wb.toNat hb.toNat (s16 (s.arg 4)) (u8 (s.arg 5))).foldlM
          (visitPixel s.params s.res (frameAddr .unmasked b f wb.toNat hb.toNat) wb.toNat selfMask) s.fb

/-- DRAWROT in a supported mode (47_affine.md R272). -/
def drawRotMode (selfMask : Bool) (s : State) : StepResult :=
  if addr (s.arg 2) = 0 then .next (finishDone s)
  else concludeFb s (drawRotated s selfMask (addr (s.arg 2)) (u8 (s.arg 3)))

/-- DRAWROT (47_affine.md R272); a draw mode the rotation does not support is refused (30_encoding.md R85 step 5). -/
def execDrawrot (m : DrawMode) (s : State) : StepResult :=
  match m with
  | .unmasked => drawRotMode false s
  | .selfmask => drawRotMode true s
  | .erasemask | .masked | .plusmask | .autodetect => .next (raiseErr .unsupportedMode s)

end Sys2Proof.Machine
end

