-- ==== Sys2Proof/Machine/FrameBuffer.lean ====
section
/-! DEFINITION. NOP, FILL, SETPIX, GETPIX, HLINE, VLINE (40_framebuffer.md). -/

namespace Sys2Proof.Machine

/-- NOP (40_framebuffer.md R102). -/
def execNop (s : State) : StepResult := .next (finishDone s)

/-- The frame buffer FILL leaves: every byte 0x00 or 0xFF (40_framebuffer.md R103). -/
def filled (p : Params) (ink : Bool) : Memory := Memory.tabulate p.fbBytes (fun _ => if ink then 0xFF else 0x00)

/-- FILL (40_framebuffer.md R103). -/
def execFill (c : Colour) (s : State) : StepResult :=
  withInk c s fun ink => .next (finishDone { s with fb := filled s.params ink })

/-- SETPIX (40_framebuffer.md R104). -/
def execSetpix (c : Colour) (s : State) : StepResult :=
  withInk c s fun ink => drawPoints s ink [(s16 (s.arg 0), s16 (s.arg 1))]

/-- What GETPIX reads: the pixel, or 0 outside the buffer (40_framebuffer.md R105). -/
def pixelQuery (p : Params) (fb : Memory) (x y : Int) : Word :=
  if inBuffer p x y && pixelRead p fb x y then 0x0001 else 0x0000

/-- GETPIX (40_framebuffer.md R105). -/
def execGetpix (s : State) : StepResult :=
  .next (finishDone { s with result0 := pixelQuery s.params s.fb (s16 (s.arg 0)) (s16 (s.arg 1)) })

/-- HLINE (40_framebuffer.md R107). -/
def execHline (c : Colour) (s : State) : StepResult :=
  withInk c s fun ink => drawPoints s ink (hspan s.params (s16 (s.arg 0)) (s16 (s.arg 1)) (u8 (s.arg 2)))

/-- VLINE (40_framebuffer.md R109). -/
def execVline (c : Colour) (s : State) : StepResult :=
  withInk c s fun ink => drawPoints s ink (vspan s.params (s16 (s.arg 0)) (s16 (s.arg 1)) (u8 (s.arg 2)))

end Sys2Proof.Machine
end

