-- ==== Sys2Proof/Machine/Glyph.lean ====
section
/-! DEFINITION. DRAWCHAR and WRITECHAR, the glyph renderer (48_glyph.md). -/

namespace Sys2Proof.Machine

/-- Column `i` of glyph `c`: five stored columns and a blank sixth (48_glyph.md R290). -/
def glyphColumn (font : Memory) (c i : Nat) : Byte := if i < 5 then fontRead font c i else 0x00

/-- The colour of glyph pixel (i, j) (48_glyph.md R291). -/
def glyphColour (font : Memory) (c : Nat) (fg bg : Bool) (i j : Nat) : Bool :=
  if (glyphColumn font c i).getLsbD j then fg else bg

/-- The size × size block of pixel writes at (x, y) (48_glyph.md R291). -/
def block (x y : Int) (size : Nat) (on : Bool) : List Dot :=
  (List.range size).flatMap fun (a : Nat) => (List.range size).map fun (b : Nat) => ⟨x + (a : Int), y + (b : Int), on⟩

/-- The whole glyph is off-screen (48_glyph.md R291's first test). -/
def glyphOffScreen (p : Params) (x y : Int) (size : Nat) : Bool :=
  decide (x ≥ p.width) || decide (y ≥ p.height) || decide (x + 5 * size - 1 < 0) || decide (y + 8 * size - 1 < 0)

/-- DrawGlyph (48_glyph.md R291): its pixel writes, in order. -/
def glyphDots (p : Params) (font : Memory) (x y : Int) (c : Nat) (fg bg : Bool) (size : Nat) : List Dot :=
  if glyphOffScreen p x y size then []
  else
    (List.range 6).flatMap fun (i : Nat) => (List.range 8).flatMap fun (j : Nat) =>
      let dc := glyphColour font c fg bg i j
      if dc || bg != fg then block (x + (i * size : Nat)) (y + (j * size : Nat)) size dc else []

/-- DRAWCHAR (48_glyph.md R292). -/
def execDrawchar (c : Colour) (s : State) : StepResult :=
  withInk c s fun fg =>
    if u8 (s.arg 4) = 0 then .next (finishDone s)
    else concludeFb s (paint s.params s.pixelSafe
      (glyphDots s.params s.font (s16 (s.arg 0)) (s16 (s.arg 1)) (u8 (s.arg 2)) fg (bits 1 (s.arg 3) == 1)
        (u8 (s.arg 4))) s.fb)

/-- NewLine (48_glyph.md R294). -/
def newLine (s : State) : State :=
  { s with cursorY := toWord (s16 s.cursorY + 8 * u8 s.textSize), cursorX := 0x0000 }

/-- The cursor after a glyph (48_glyph.md R293): the advance, then the wrap test. -/
def advance (s : State) : State :=
  let cx := s16 s.cursorX + 6 * u8 s.textSize
  let s' := { s with cursorX := toWord cx }
  if s.textWrap.getLsbD 0 && decide (cx > s.params.width - 6 * (u8 s.textSize : Int)) then newLine s' else s'

/-- WRITECHAR of a code that draws a glyph (48_glyph.md R293). -/
def writeGlyph (c : Nat) (s : State) : StepResult :=
  match paint s.params s.pixelSafe
      (glyphDots s.params s.font (s16 s.cursorX) (s16 s.cursorY) c (s.textColor.getLsbD 0) (s.textBg.getLsbD 0)
        (u8 s.textSize)) s.fb with
  | .ok fb => .next (finishDone (advance { s with fb := fb }))
  | .error r => .next (raiseUndefined r s)

/-- WRITECHAR (48_glyph.md R293). -/
def execWritechar (s : State) : StepResult :=
  if u8 (s.arg 0) = 0x0A then .next (finishDone (newLine s))
  else if u8 (s.arg 0) = 0x0D then .next (finishDone s)
  else writeGlyph (u8 (s.arg 0)) s

end Sys2Proof.Machine
end

