-- ==== Sys2Proof/Machine/Circle.lean ====
section
/-! DEFINITION. CIRCLE, CIRCLEQ, FCIRCLE, FCIRCLEQ and the midpoint stepping (42_circle.md). -/

namespace Sys2Proof.Machine

/-- The `while` loop of MidpointSteps (42_circle.md R140), at most `n` steps: each step raises `x`, so `y - x` steps
are enough (log entry 15). -/
def midpointWalk (n : Nat) (f ddFx ddFy x y : Int) : List Point :=
  match n with
  | 0 => []
  | n + 1 =>
    if x < y then
      if f ≥ 0 then
        (x + 1, y - 1) :: midpointWalk n (f + (ddFy + 2) + (ddFx + 2)) (ddFx + 2) (ddFy + 2) (x + 1) (y - 1)
      else (x + 1, y) :: midpointWalk n (f + (ddFx + 2)) (ddFx + 2) ddFy (x + 1) y
    else []

/-- MidpointSteps (42_circle.md R140). -/
def midpointSteps (r : Nat) : List Point := midpointWalk r (1 - r) 1 (-2 * r) 0 r

/-- The points of CIRCLE (42_circle.md R141). -/
def circlePoints (x0 y0 : Int) (r : Nat) : List Point :=
  [(x0, y0 + r), (x0, y0 - r), (x0 + r, y0), (x0 - r, y0)] ++
    (midpointSteps r).flatMap fun q =>
      [(x0 + q.1, y0 + q.2), (x0 - q.1, y0 + q.2), (x0 + q.1, y0 - q.2), (x0 - q.1, y0 - q.2),
       (x0 + q.2, y0 + q.1), (x0 - q.2, y0 + q.1), (x0 + q.2, y0 - q.1), (x0 - q.2, y0 - q.1)]

/-- ArcQuadrants (42_circle.md R142). -/
def arcPoints (x0 y0 : Int) (r corners : Nat) : List Point :=
  (midpointSteps r).flatMap fun q =>
    (if corners.testBit 2 then [(x0 + q.1, y0 + q.2), (x0 + q.2, y0 + q.1)] else []) ++
    (if corners.testBit 1 then [(x0 + q.1, y0 - q.2), (x0 + q.2, y0 - q.1)] else []) ++
    (if corners.testBit 3 then [(x0 - q.2, y0 + q.1), (x0 - q.1, y0 + q.2)] else []) ++
    (if corners.testBit 0 then [(x0 - q.2, y0 - q.1), (x0 - q.1, y0 - q.2)] else [])

/-- FillHalves (42_circle.md R144). -/
def halfPoints (p : Params) (x0 y0 : Int) (r sides : Nat) (delta : Int) : List Point :=
  (midpointSteps r).flatMap fun q =>
    (if sides.testBit 0 then
      vspan p (x0 + q.1) (y0 - q.2) (2 * q.2 + 1 + delta) ++ vspan p (x0 + q.2) (y0 - q.1) (2 * q.1 + 1 + delta)
     else []) ++
    (if sides.testBit 1 then
      vspan p (x0 - q.1) (y0 - q.2) (2 * q.2 + 1 + delta) ++ vspan p (x0 - q.2) (y0 - q.1) (2 * q.1 + 1 + delta)
     else [])

/-- The points of FCIRCLE (42_circle.md R146): the centre column and both halves. -/
def discPoints (p : Params) (x0 y0 : Int) (r : Nat) : List Point :=
  vspan p x0 (y0 - r) (2 * r + 1) ++ halfPoints p x0 y0 r 0x3 0

/-- CIRCLE (42_circle.md R141). -/
def execCircle (c : Colour) (s : State) : StepResult :=
  withInk c s fun ink => drawPoints s ink (circlePoints (s16 (s.arg 0)) (s16 (s.arg 1)) (u8 (s.arg 2)))

/-- CIRCLEQ (42_circle.md R143). -/
def execCircleq (c : Colour) (s : State) : StepResult :=
  withInk c s fun ink =>
    drawPoints s ink (arcPoints (s16 (s.arg 0)) (s16 (s.arg 1)) (u8 (s.arg 2)) (bits 4 (s.arg 3)))

/-- FCIRCLE (42_circle.md R146). -/
def execFcircle (c : Colour) (s : State) : StepResult :=
  withInk c s fun ink => drawPoints s ink (discPoints s.params (s16 (s.arg 0)) (s16 (s.arg 1)) (u8 (s.arg 2)))

/-- FCIRCLEQ (42_circle.md R145). -/
def execFcircleq (c : Colour) (s : State) : StepResult :=
  withInk c s fun ink =>
    drawPoints s ink
      (halfPoints s.params (s16 (s.arg 0)) (s16 (s.arg 1)) (u8 (s.arg 2)) (bits 2 (s.arg 3)) (s16 (s.arg 4)))

end Sys2Proof.Machine
end

