-- ==== Sys2Proof/Machine/Line.lean ====
section
/-! DEFINITION. LINE and the line rasterizer (41_line.md). -/

namespace Sys2Proof.Machine

/-- The `for` loop of LineRaster (41_line.md R130), `n` steps of the major axis from `x`. -/
def lineWalk (steep : Bool) (dx dy ystep : Int) (n : Nat) (x y err : Int) : List Point :=
  match n with
  | 0 => []
  | n + 1 =>
    (if steep then (y, x) else (x, y)) ::
      (if err - dy < 0 then lineWalk steep dx dy ystep n (x + 1) (y + ystep) (err - dy + dx)
       else lineWalk steep dx dy ystep n (x + 1) y (err - dy))

/-- LineRaster on endpoints already transposed, ordered left to right (41_line.md R130). -/
def lineOrdered (steep : Bool) (x0 y0 x1 y1 : Int) : List Point :=
  lineWalk steep (x1 - x0) (y1 - y0).natAbs (if y0 < y1 then 1 else -1) ((x1 - x0).toNat + 1) x0 y0 ((x1 - x0) / 2)

/-- LineRaster on endpoints already transposed (41_line.md R130): left to right. -/
def lineTransposed (steep : Bool) (x0 y0 x1 y1 : Int) : List Point :=
  if x0 > x1 then lineOrdered steep x1 y1 x0 y0 else lineOrdered steep x0 y0 x1 y1

/-- LineRaster (41_line.md R130): the points of the line, in order. -/
def linePoints (x0 y0 x1 y1 : Int) : List Point :=
  if (y1 - y0).natAbs > (x1 - x0).natAbs then lineTransposed true y0 x0 y1 x1
  else lineTransposed false x0 y0 x1 y1

/-- LINE (41_line.md R131). -/
def execLine (c : Colour) (s : State) : StepResult :=
  withInk c s fun ink =>
    drawPoints s ink (linePoints (s16 (s.arg 0)) (s16 (s.arg 1)) (s16 (s.arg 2)) (s16 (s.arg 3)))

end Sys2Proof.Machine
end

