-- ==== Sys2Proof/Machine/Polygon.lean ====
section
/-! DEFINITION. RECT, FRECT, RRECT, FRRECT, TRI, FTRI (43_polygon.md). -/

namespace Sys2Proof.Machine

/-! ## Rectangles -/

/-- The points of RECT (43_polygon.md R160, for a zero width or height log entry 18): top, bottom, left, right. -/
def rectPoints (p : Params) (x y w h : Int) : List Point :=
  hspan p x y w ++ hspan p x (y + h - 1) w ++ vspan p x y h ++ vspan p (x + w - 1) y h

/-- FillRect (43_polygon.md R161): one vertical span per column. -/
def fillRectPoints (p : Params) (x y w h : Int) : List Point :=
  (intRange x (x + w)).flatMap fun i => vspan p i y h

/-- The points of RRECT (43_polygon.md R163, for a zero width or height log entry 18): the shortened edges, then the four corners. -/
def roundRectPoints (p : Params) (x y w h : Int) (r : Nat) : List Point :=
  hspan p (x + r) y (w - 2 * r) ++ hspan p (x + r) (y + h - 1) (w - 2 * r) ++
  vspan p x (y + r) (h - 2 * r) ++ vspan p (x + w - 1) (y + r) (h - 2 * r) ++
  arcPoints (x + r) (y + r) r 0x1 ++ arcPoints (x + w - r - 1) (y + r) r 0x2 ++
  arcPoints (x + w - r - 1) (y + h - r - 1) r 0x4 ++ arcPoints (x + r) (y + h - r - 1) r 0x8

/-- The points of FRRECT (43_polygon.md R164, for a zero width log entry 18): the body and the two rounded ends. -/
def fillRoundRectPoints (p : Params) (x y w h : Int) (r : Nat) : List Point :=
  fillRectPoints p (x + r) y (w - 2 * r) h ++
  halfPoints p (x + w - r - 1) (y + r) r 0x1 (h - 2 * r - 1) ++
  halfPoints p (x + r) (y + r) r 0x2 (h - 2 * r - 1)

/-- RECT (43_polygon.md R160). -/
def execRect (c : Colour) (s : State) : StepResult :=
  withInk c s fun ink =>
    drawPoints s ink (rectPoints s.params (s16 (s.arg 0)) (s16 (s.arg 1)) (u8 (s.arg 2)) (u8 (s.arg 3)))

/-- FRECT (43_polygon.md R162). -/
def execFrect (c : Colour) (s : State) : StepResult :=
  withInk c s fun ink =>
    drawPoints s ink (fillRectPoints s.params (s16 (s.arg 0)) (s16 (s.arg 1)) (u8 (s.arg 2)) (u8 (s.arg 3)))

/-- RRECT (43_polygon.md R163). -/
def execRrect (c : Colour) (s : State) : StepResult :=
  withInk c s fun ink =>
    drawPoints s ink
      (roundRectPoints s.params (s16 (s.arg 0)) (s16 (s.arg 1)) (u8 (s.arg 2)) (u8 (s.arg 3)) (u8 (s.arg 4)))

/-- FRRECT (43_polygon.md R164). -/
def execFrrect (c : Colour) (s : State) : StepResult :=
  withInk c s fun ink =>
    drawPoints s ink
      (fillRoundRectPoints s.params (s16 (s.arg 0)) (s16 (s.arg 1)) (u8 (s.arg 2)) (u8 (s.arg 3)) (u8 (s.arg 4)))

/-! ## Triangles -/

/-- The points of TRI (43_polygon.md R165): three lines. -/
def triPoints (x0 y0 x1 y1 x2 y2 : Int) : List Point :=
  linePoints x0 y0 x1 y1 ++ linePoints x1 y1 x2 y2 ++ linePoints x2 y2 x0 y0

/-- The span of one scanline between two edge positions, in either order (43_polygon.md R166). -/
def edgeSpan (p : Params) (a b y : Int) : List Point :=
  hspan p (min a b) y (max a b - min a b + 1)

/-- One edge of a filled triangle: its start and its extent. -/
structure Edge where
  x : Int
  dx : Int
  dy : Int
deriving DecidableEq, Repr

/-- The x position of an edge for an accumulated numerator, rounded toward zero (43_polygon.md R166). -/
def Edge.at (e : Edge) (acc : Int) : Int := e.x + acc.tdiv e.dy

/-- One `while` loop of TriFill (43_polygon.md R166), `n` scanlines from `y`, with the accumulators `sa` and `sb`. -/
def scanlines (p : Params) (ea eb : Edge) (n : Nat) (y sa sb : Int) : List Point :=
  match n with
  | 0 => []
  | n + 1 => edgeSpan p (ea.at sa) (eb.at sb) y ++ scanlines p ea eb n (y + 1) (sa + ea.dx) (sb + eb.dx)

/-- TriFill on vertices sorted by y (43_polygon.md R166); `last` is the last scanline of the upper part. -/
def triFillSorted (p : Params) (x0 y0 x1 y1 x2 y2 : Int) : List Point :=
  if y0 = y2 then
    hspan p (min x0 (min x1 x2)) y0 (max x0 (max x1 x2) - min x0 (min x1 x2) + 1)
  else
    let last := if y1 = y2 then y1 else y1 - 1
    let long : Edge := ⟨x0, x2 - x0, y2 - y0⟩
    scanlines p ⟨x0, x1 - x0, y1 - y0⟩ long (last - y0 + 1).toNat y0 0 0 ++
    scanlines p ⟨x1, x2 - x1, y2 - y1⟩ long (y2 - last).toNat (last + 1)
      ((x2 - x1) * (last + 1 - y1)) ((x2 - x0) * (last + 1 - y0))

/-- Two vertices, the one with the smaller y first (43_polygon.md R166). -/
def sortPair (a b : Point) : Point × Point := if a.2 > b.2 then (b, a) else (a, b)

/-- TriFill (43_polygon.md R166): the sort network, then the scanlines. -/
def triFillPoints (p : Params) (v0 v1 v2 : Point) : List Point :=
  let (a0, a1) := sortPair v0 v1
  let (b1, b2) := sortPair a1 v2
  let (c0, c1) := sortPair a0 b1
  triFillSorted p c0.1 c0.2 c1.1 c1.2 b2.1 b2.2

/-- TRI (43_polygon.md R165). -/
def execTri (c : Colour) (s : State) : StepResult :=
  withInk c s fun ink =>
    drawPoints s ink
      (triPoints (s16 (s.arg 0)) (s16 (s.arg 1)) (s16 (s.arg 2)) (s16 (s.arg 3)) (s16 (s.arg 4)) (s16 (s.arg 5)))

/-- FTRI (43_polygon.md R167). -/
def execFtri (c : Colour) (s : State) : StepResult :=
  withInk c s fun ink =>
    drawPoints s ink
      (triFillPoints s.params (s16 (s.arg 0), s16 (s.arg 1)) (s16 (s.arg 2), s16 (s.arg 3))
        (s16 (s.arg 4), s16 (s.arg 5)))

end Sys2Proof.Machine
end

