-- ==== Sys2Proof/Machine/Rle.lean ====
section
/-! DEFINITION. DRAWCOMP, the compressed-bitmap decoder (46_rle_decoder.md). -/

namespace Sys2Proof.Machine

/-! ## The bit reader -/

/-- The bit reader (46_rle_decoder.md R231): transient state of a command (46_rle_decoder.md R241). -/
structure BitReader where
  /-- The address of the next stream byte. -/
  pos : Int
  /-- The bit to read next; 0 when a byte must be read first. -/
  bitmask : Byte
  /-- The byte being read. -/
  cache : Byte
deriving DecidableEq, Repr

/-- The bit reader at the start of a stream (46_rle_decoder.md R231). -/
def BitReader.start (st : Nat) : BitReader := ⟨st, 0, 0⟩

/-- The reader with an unread bit in its cache: it reads the next byte where none is left (46_rle_decoder.md R231). -/
def BitReader.refill (p : Params) (res : Memory) (r : BitReader) : Except Undefined BitReader :=
  if r.bitmask = 0 then
    match resRead p res r.pos with
    | .ok b => .ok ⟨r.pos + 1, 0x01, b⟩
    | .error e => .error e
  else .ok r

/-- ReadBit (46_rle_decoder.md R231). -/
def readBit (p : Params) (res : Memory) (r : BitReader) : Except Undefined (Bool × BitReader) :=
  match r.refill p res with
  | .ok r => .ok (r.cache &&& r.bitmask != 0, { r with bitmask := r.bitmask <<< 1 })
  | .error e => .error e

/-- ReadBits(n), the first bit read the least significant (46_rle_decoder.md R232). -/
def readBits (p : Params) (res : Memory) (n : Nat) (r : BitReader) : Except Undefined (Nat × BitReader) :=
  match n with
  | 0 => .ok (0, r)
  | n + 1 =>
    match readBit p res r with
    | .error e => .error e
    | .ok (b, r) =>
      match readBits p res n r with
      | .error e => .error e
      | .ok (v, r) => .ok (b.toNat + 2 * v, r)

/-- The unary run-length class (46_rle_decoder.md R234): `z` zeros read so far, `n` more allowed. -/
def readUnary (p : Params) (res : Memory) (n z : Nat) (r : BitReader) : Except Undefined (Nat × BitReader) :=
  match n with
  | 0 => .error .rleOverrun
  | n + 1 =>
    match readBit p res r with
    | .error e => .error e
    | .ok (true, r) => .ok (z, r)
    | .ok (false, r) => readUnary p res n (z + 1) r

/-- One span's length: the class, then the magnitude (46_rle_decoder.md R234, R235). -/
def readSpan (p : Params) (res : Memory) (r : BitReader) : Except Undefined (Nat × BitReader) :=
  match readUnary p res 16 0 r with
  | .error e => .error e
  | .ok (z, r) =>
    match readBits p res (1 + 2 * z) r with
    | .error e => .error e
    | .ok (v, r) => .ok (v + 1, r)

/-! ## The pixel cursor -/

/-- The decoder's cursor (46_rle_decoder.md R237, R241): the cell counter, the in-flight byte and its pixel count, with
the frame buffer so far. -/
structure Cursor where
  fb : Memory
  k : Nat
  acc : Byte
  nb : Nat
deriving DecidableEq, Repr

/-- The cell (a, c) of cell number `k` (46_rle_decoder.md R236). -/
def cellOf (order : ScanOrder) (w rows k : Nat) : Int × Int :=
  match order with
  | .column => ((k % rows : Nat), (k / rows : Nat))
  | .pageRow => ((k / w : Nat), (k % w : Nat))

/-- The combine of DRAWCOMP's colour (46_rle_decoder.md R238). -/
def compCombine (col : Bool) : Combine := if col then combineOr else combineClear

/-- Compositing of an emitted byte into a cell: only where its column is visible (46_rle_decoder.md R238). -/
def emitCell (p : Params) (g : BlitGeom) (x : Int) (col : Bool) (cell : Int × Int) (v : Byte) (fb : Memory) : Memory :=
  if g.ilo ≤ cell.2 ∧ cell.2 ≤ g.ihi then blitCell p g x (compCombine col) cell.1 cell.2 v 0 fb else fb

/-- The pixels of one span (46_rle_decoder.md R237, R239, R240): `emit k v` composites byte `v` into cell number `k`. -/
def pushPixels (total : Nat) (emit : Nat → Byte → Memory → Memory) (color : Bool) (n : Nat) (c : Cursor) :
    Except Undefined Cursor :=
  match n with
  | 0 => .ok c
  | n + 1 =>
    if c.k = total then .error .rleOverrun
    else if c.nb + 1 = 8 then
      pushPixels total emit color n
        { fb := emit c.k (c.acc ||| ((BitVec.ofBool color).setWidth 8 <<< c.nb)) c.fb, k := c.k + 1, acc := 0, nb := 0 }
    else
      pushPixels total emit color n
        { c with acc := c.acc ||| ((BitVec.ofBool color).setWidth 8 <<< c.nb), nb := c.nb + 1 }

/-- The span loop of DRAWCOMP (46_rle_decoder.md R240), at most `n` spans: each span holds a pixel, so one span per
pixel and one more round to see the end are enough (log entry 15). -/
def decodeSpans (p : Params) (res : Memory) (total : Nat) (emit : Nat → Byte → Memory → Memory) (n : Nat) (color : Bool)
    (r : BitReader) (c : Cursor) : Except Undefined Memory :=
  match n with
  | 0 => .error .rleOverrun
  | n + 1 =>
    if c.k < total then
      match readSpan p res r with
      | .error e => .error e
      | .ok (len, r) =>
        match pushPixels total emit color len c with
        | .error e => .error e
        | .ok c => decodeSpans p res total emit n (!color) r c
    else .ok c.fb

/-- The body of DRAWCOMP for a visible bitmap, from the starting colour on (46_rle_decoder.md R240). -/
def decodeBody (s : State) (col : Bool) (x : Int) (w : Nat) (g : BlitGeom) (r : BitReader) : Except Undefined Memory :=
  match readBit s.params s.res r with
  | .error e => .error e
  | .ok (color, r) =>
    decodeSpans s.params s.res (w * g.rows)
      (fun k v fb => emitCell s.params g x col (cellOf s.params.scanOrder w g.rows k) v fb)
      (8 * (w * g.rows) + 1) color r ⟨s.fb, 0, 0, 0⟩

/-- DRAWCOMP's stream, header first (46_rle_decoder.md R233, R240). -/
def drawCompressed (s : State) (col : Bool) (x y : Int) (st : Nat) : Except Undefined Memory :=
  match readBits s.params s.res 8 (BitReader.start st) with
  | .error e => .error e
  | .ok (w1, r) =>
    match readBits s.params s.res 8 r with
    | .error e => .error e
    | .ok (h1, r) =>
      match blitGeometry s.params x y (w1 + 1) (h1 + 1) with
      | none => .ok s.fb
      | some g => decodeBody s col x (w1 + 1) g r

/-- DRAWCOMP (46_rle_decoder.md R240). -/
def execDrawcomp (c : Colour) (s : State) : StepResult :=
  withInk c s fun col =>
    let st := addr (s.arg 2)
    if st = 0 then .next (finishDone s)
    else concludeFb s (drawCompressed s col (s16 (s.arg 0)) (s16 (s.arg 1)) st)

end Sys2Proof.Machine
end

