-- ==== Sys2Proof/Machine/Dispatch.lean ====
section
/-! DEFINITION. `exec`: the meaning of each command, one arm per row of the opcode map (30_encoding.md R84). -/

namespace Sys2Proof.Machine

def exec (i : Instr) (s : State) : Host.Outcome State Fault Refusal :=
  match i with
  | .nop => Sys2Proof.Machine.execNop s
  | .fill c => Sys2Proof.Machine.execFill c s
  | .setpix c => Sys2Proof.Machine.execSetpix c s
  | .getpix => Sys2Proof.Machine.execGetpix s
  | .hline c => Sys2Proof.Machine.execHline c s
  | .vline c => Sys2Proof.Machine.execVline c s
  | .line c => Sys2Proof.Machine.execLine c s
  | .circle c => Sys2Proof.Machine.execCircle c s
  | .circleq c => Sys2Proof.Machine.execCircleq c s
  | .fcircle c => Sys2Proof.Machine.execFcircle c s
  | .fcircleq c => Sys2Proof.Machine.execFcircleq c s
  | .rect c => Sys2Proof.Machine.execRect c s
  | .frect c => Sys2Proof.Machine.execFrect c s
  | .rrect c => Sys2Proof.Machine.execRrect c s
  | .frrect c => Sys2Proof.Machine.execFrrect c s
  | .tri c => Sys2Proof.Machine.execTri c s
  | .ftri c => Sys2Proof.Machine.execFtri c s
  | .bitmap c => Sys2Proof.Machine.execBitmap c s
  | .sprite m => Sys2Proof.Machine.execSprite m s
  | .drawcomp c => Sys2Proof.Machine.execDrawcomp c s
  | .rotvec => Sys2Proof.Machine.execRotvec s
  | .drawrot m => Sys2Proof.Machine.execDrawrot m s
  | .drawchar c => Sys2Proof.Machine.execDrawchar c s
  | .writechar => Sys2Proof.Machine.execWritechar s

end Sys2Proof.Machine
end

