-- ==== Sys2Proof/Machine/HostPort.lean ====
section
/-! DEFINITION. The host port (20_memory.md section 2): the register map, the frame-buffer window, the access rules, the
start of a command, and the platform's inputs. -/

namespace Sys2Proof.Machine

/-! ## The register map -/

/-- The registers of 10_state.md R26. -/
inductive Reg where
  | id
  | config
  | status
  | cmd
  | result0
  | result1
  | arg (i : Fin 8)
  | cursorX
  | cursorY
  | textSize
  | textColor
  | textBg
  | textWrap
deriving DecidableEq, Repr

/-- The register at an even host offset; none at a reserved offset (10_state.md R26, R39). -/
def regAt : Nat → Option Reg
  | 0x000 => some .id
  | 0x002 => some .config
  | 0x004 => some .status
  | 0x006 => some .cmd
  | 0x008 => some .result0
  | 0x00A => some .result1
  | 0x010 => some (.arg 0)
  | 0x012 => some (.arg 1)
  | 0x014 => some (.arg 2)
  | 0x016 => some (.arg 3)
  | 0x018 => some (.arg 4)
  | 0x01A => some (.arg 5)
  | 0x01C => some (.arg 6)
  | 0x01E => some (.arg 7)
  | 0x020 => some .cursorX
  | 0x022 => some .cursorY
  | 0x024 => some .textSize
  | 0x026 => some .textColor
  | 0x028 => some .textBg
  | 0x02A => some .textWrap
  | _ => none

/-- The constant ID reads as (10_state.md R27). -/
def idValue : Word := 0xFB01

/-- What a register reads as (10_state.md R26 to R38). -/
def readReg (s : State) : Reg → Word
  | .id => idValue
  | .config => s.config
  | .status => statusWord s.err s.busErr
  | .cmd => s.cmd
  | .result0 => s.result0
  | .result1 => s.result1
  | .arg i => s.arg i
  | .cursorX => s.cursorX
  | .cursorY => s.cursorY
  | .textSize => s.textSize
  | .textColor => s.textColor
  | .textBg => s.textBg
  | .textWrap => s.textWrap

/-- What a host write stores (10_state.md R26 to R38); the write of CMD stores its value, and `startCommand` runs the
command. -/
def writeReg (s : State) (r : Reg) (v : Word) : State :=
  match r with
  | .id => s
  | .config => { s with config := bit0Only v }
  | .status => { s with busErr := busErrAfterWrite s.busErr v }
  | .cmd => { s with cmd := v }
  | .result0 => s
  | .result1 => s
  | .arg i => { s with args := s.args.set i v }
  | .cursorX => { s with cursorX := v }
  | .cursorY => { s with cursorY := v }
  | .textSize => { s with textSize := legalTextSize v }
  | .textColor => { s with textColor := bit0Only v }
  | .textBg => { s with textBg := bit0Only v }
  | .textWrap => { s with textWrap := bit0Only v }

/-! ## Commands -/

/-- The error code of a decode refusal (60_exceptions.md R311). -/
def decodeErrCode : DecodeError → ErrCode
  | .illegalOpcode => .illegalOpcode
  | .reservedField => .reservedField
  | .unsupportedMode => .unsupportedMode

/-- A host write of `v` to CMD (10_state.md R31): CMD holds `v`, then the command runs or is refused
(30_encoding.md R85). -/
def startCommand (v : Word) (s : State) : StepResult :=
  match decode v with
  | .error e => .next (raiseErr (decodeErrCode e) (writeReg s .cmd v))
  | .ok i => exec i (writeReg s .cmd v)

/-! ## The frame-buffer window -/

/-- The first offset of the window (20_memory.md R54). -/
def windowBase : Nat := 0x400

/-- The FB byte a host offset maps to; none outside the window (20_memory.md R53, R54). -/
def windowIndex (p : Params) (off : Nat) : Option Nat :=
  if windowBase ≤ off ∧ off < windowBase + p.fbBytes then some (off - windowBase) else none

/-- A 16-bit read at FB byte `k`, little-endian; past the last byte bits [15:8] read 0 (20_memory.md R51, R53). -/
def windowRead16 (s : State) (k : Nat) : Word :=
  (if k + 1 < s.params.fbBytes then s.fb.read (k + 1) else 0x00) ++ s.fb.read k

/-- A 16-bit write at FB byte `k`, little-endian; past the last byte bits [15:8] go nowhere (20_memory.md R51, R53). -/
def windowWrite16 (s : State) (k : Nat) (v : Word) : State :=
  let fb := s.fb.write k (v.extractLsb' 0 8)
  { s with fb := if k + 1 < s.params.fbBytes then fb.write (k + 1) (v.extractLsb' 8 8) else fb }

/-! ## Host accesses -/

/-- A 16-bit access is admitted at an even offset (20_memory.md R52). -/
def admits16 (off : Word) : Bool := off.toNat % 2 == 0

/-- An 8-bit access is admitted outside the registers (20_memory.md R52). -/
def admits8 (off : Word) : Bool := decide (windowBase ≤ off.toNat)

/-- An access the port does not admit sets BUSERR and nothing else (20_memory.md R52, 60_exceptions.md R314). -/
def busError (s : State) : State := { s with busErr := true }

/-- A read answers the host. -/
def respond (s : State) (a : Response) : State := { s with responses := a :: s.responses }

/-- 16-bit host write (20_memory.md R52 to R55). -/
def hostWrite16 (off v : Word) (s : State) : StepResult :=
  if admits16 off then
    match windowIndex s.params off.toNat with
    | some k => .next (windowWrite16 s k v)
    | none =>
      match regAt off.toNat with
      | some .cmd => startCommand v s
      | some r => .next (writeReg s r v)
      | none => .next s
  else .next (busError s)

/-- 8-bit host write (20_memory.md R52, R53, R55). -/
def hostWrite8 (off : Word) (v : Byte) (s : State) : State :=
  if admits8 off then
    match windowIndex s.params off.toNat with
    | some k => { s with fb := s.fb.write k v }
    | none => s
  else busError s

/-- What an admitted 16-bit read answers (20_memory.md R53, R55; 10_state.md R26, R39). -/
def readValue16 (s : State) (off : Nat) : Word :=
  match windowIndex s.params off with
  | some k => windowRead16 s k
  | none =>
    match regAt off with
    | some r => readReg s r
    | none => 0x0000

/-- What an admitted 8-bit read answers (20_memory.md R53, R55). -/
def readValue8 (s : State) (off : Nat) : Byte :=
  match windowIndex s.params off with
  | some k => s.fb.read k
  | none => 0x00

/-- 16-bit host read (20_memory.md R52 to R55). -/
def hostRead16 (off : Word) (s : State) : State :=
  if admits16 off then respond s (.word (readValue16 s off.toNat)) else respond (busError s) (.word 0x0000)

/-- 8-bit host read (20_memory.md R52, R53, R55). -/
def hostRead8 (off : Word) (s : State) : State :=
  if admits8 off then respond s (.byte (readValue8 s off.toNat)) else respond (busError s) (.byte 0x00)

/-! ## The platform -/

/-- The platform's reset (70_reset_and_hazards.md R340 to R343): every register and FB at its reset value, RES and FONT
unchanged; the model's own inputs and answers stay (log entry 10). -/
def resetState (s : State) : State :=
  { State.reset with
    params := s.params
    res := s.res
    font := s.font
    pending := s.pending
    responses := s.responses
    freeCtr := s.freeCtr }

/-- The platform stores one byte of RES; an address that RES does not have stores nothing (log entry 13). -/
def loadRes (a : Word) (b : Byte) (s : State) : State :=
  if a.toNat < s.params.resSize then { s with res := s.res.write a.toNat b } else s

/-- The platform stores column `i` of glyph `c` (70_reset_and_hazards.md R344). DESIGN CHOICE: it may do so between any
two inputs, and never while a command runs (log entry 19). -/
def loadFont (c : Byte) (i : Fin 5) (b : Byte) (s : State) : State :=
  { s with font := s.font.write (5 * c.toNat + i.val) b }

/-- A command while which runs an outside agent stores one byte of RES (20_memory.md R68): a word refused at decode
does not run (60_exceptions.md R313); a store that leaves RES as it was is no change (log entry 9). -/
def raceCommand (v a : Word) (b : Byte) (s : State) : StepResult :=
  match decode v with
  | .error e => .next (raiseErr (decodeErrCode e) (writeReg (loadRes a b s) .cmd v))
  | .ok i =>
    if a.toNat < s.params.resSize ∧ s.res.read a.toNat ≠ b then
      .next (raiseUndefined .resChanged (writeReg (loadRes a b s) .cmd v))
    else exec i (writeReg s .cmd v)

/-- One input performed. -/
def perform (e : Input) (s : State) : StepResult :=
  match e with
  | .write16 off v => hostWrite16 off v s
  | .write8 off v => .next (hostWrite8 off v s)
  | .read16 off => .next (hostRead16 off s)
  | .read8 off => .next (hostRead8 off s)
  | .platformReset => .next (resetState s)
  | .resetDuring _ => .next (resetState s)
  | .loadRes a b => .next (loadRes a b s)
  | .loadFont c i b => .next (loadFont c i b s)
  | .writeCmdRacingRes v a b => raceCommand v a b s

/-- The host reads that hand FB to the display collaborator, in FB order (20_memory.md R56). -/
def commitScript (p : Params) : List Input :=
  (List.range p.fbBytes).map fun (k : Nat) => .read8 (BitVec.ofNat 16 (windowBase + k))

end Sys2Proof.Machine
end

