-- ==== Sys2Proof/Machine/Assembler.lean ====
section
/-! DEFINITION. The spec's assembler lines and pseudo-instructions as the host accesses they expand into
(30_encoding.md R89, R90). -/

namespace Sys2Proof.Machine

/-- The host offset of a register (10_state.md R26). -/
def Reg.offset : Reg → Word
  | .id => 0x000
  | .config => 0x002
  | .status => 0x004
  | .cmd => 0x006
  | .result0 => 0x008
  | .result1 => 0x00A
  | .arg i => 0x010 + BitVec.ofNat 16 (2 * i.val)
  | .cursorX => 0x020
  | .cursorY => 0x022
  | .textSize => 0x024
  | .textColor => 0x026
  | .textBg => 0x028
  | .textWrap => 0x02A

/-- A line of the spec's programs (30_encoding.md R89, R90). -/
inductive AsmLine where
  | wr (r : Reg) (v : Int)
  | wrAt (off : Word) (v : Int)
  | wrb (off : Word) (v : Byte)
  | rd (r : Reg)
  | rdAt (off : Word)
  | rdb (off : Word)
  /-- A command line: the operands in the order of 30_encoding.md R84's operand column. -/
  | command (i : Instr) (operands : List Int)
  | clear
  | drawOverwrite (x y bmp frame : Int)
  | drawSelfMasked (x y bmp frame : Int)
  | drawErase (x y bmp frame : Int)
  | drawExternalMask (x y bmp mask frame mframe : Int)
  | drawPlusMask (x y bmp frame : Int)
  | draw (x y bmp frame mask mframe : Int)
  | setCursor (x y : Int)
  | print (codes : List Byte)
deriving DecidableEq, Repr

/-- `WR ARGi, <operand i mod 2^16>` for each operand in order, from ARG `i` (30_encoding.md R89). -/
def writeOperands (i : Nat) (operands : List Int) : List Input :=
  match operands with
  | [] => []
  | v :: rest => .write16 (BitVec.ofNat 16 (0x010 + 2 * i)) (toWord v) :: writeOperands (i + 1) rest

/-- A command line's expansion (30_encoding.md R89). -/
def commandLine (i : Instr) (operands : List Int) : List Input :=
  writeOperands 0 operands ++ [.write16 Reg.cmd.offset (encode i)]

/-- The host accesses a line expands into (30_encoding.md R89, R90). -/
def AsmLine.expand : AsmLine → List Input
  | .wr r v => [.write16 r.offset (toWord v)]
  | .wrAt off v => [.write16 off (toWord v)]
  | .wrb off v => [.write8 off v]
  | .rd r => [.read16 r.offset]
  | .rdAt off => [.read16 off]
  | .rdb off => [.read8 off]
  | .command i operands => commandLine i operands
  | .clear => commandLine (.fill .black) []
  | .drawOverwrite x y bmp frame => commandLine (.sprite .unmasked) [x, y, bmp, frame, 0, 0]
  | .drawSelfMasked x y bmp frame => commandLine (.sprite .selfmask) [x, y, bmp, frame, 0, 0]
  | .drawErase x y bmp frame => commandLine (.sprite .erasemask) [x, y, bmp, frame, 0, 0]
  | .drawExternalMask x y bmp mask frame mframe => commandLine (.sprite .masked) [x, y, bmp, frame, mask, mframe]
  | .drawPlusMask x y bmp frame => commandLine (.sprite .plusmask) [x, y, bmp, frame, 0, 0]
  | .draw x y bmp frame mask mframe => commandLine (.sprite .autodetect) [x, y, bmp, frame, mask, mframe]
  | .setCursor x y => [.write16 Reg.cursorX.offset (toWord x), .write16 Reg.cursorY.offset (toWord y)]
  | .print codes => codes.flatMap fun b => commandLine .writechar [(b.toNat : Int)]

end Sys2Proof.Machine
end

