-- ==== Sys2Proof/Machine/Step.lean ====
section
/-! DEFINITION. One step of the block: the oldest input not yet performed (20_memory.md R64, log entry 1). -/

namespace Sys2Proof.Machine

/-- One step: the next input is taken from the queue and performed; with none, the block waits (log entry 2). -/
def step (s : State) : Host.Outcome State Fault Refusal :=
  match s.pending with
  | [] => .next s
  | e :: rest => perform e { s with pending := rest }

/-- The state whose next input is the host's write of a command word to CMD (log entries 1 and 14). -/
def State.withFetchWord (s : State) (nbits w : Nat) : State :=
  { s with pending := .write16 0x0006 (BitVec.ofNat 16 (w % 2 ^ nbits)) :: s.pending }

end Sys2Proof.Machine
end

