-- ==== Sys2Proof/Safety.lean ====
section
/-! DEFINITION. What counts as a legal state and as a safe run, in the terms the statements use. -/

namespace Sys2Proof.Machine

/-- The bits a register's rule reserves read 0, and TEXT_SIZE holds a size of 1..255 (10_state.md R28, R35 to R38). -/
def State.regsLegal (s : State) : Bool :=
  decide (s.config.toNat ≤ 1) && decide (1 ≤ s.textSize.toNat) && decide (s.textSize.toNat ≤ 255)
    && decide (s.textColor.toNat ≤ 1) && decide (s.textBg.toNat ≤ 1) && decide (s.textWrap.toNat ≤ 1)

/-- A legal state: legal parameters (00_scope.md section 5); FB, RES and FONT in canonical form and listing no byte
outside their spaces (20_memory.md R50); legal registers. -/
def State.legal (s : State) : Bool :=
  s.params.wf
    && s.fb.wf && s.fb.below s.params.fbBytes
    && s.res.wf && s.res.below s.params.resSize
    && s.font.wf && s.font.below 1280
    && s.regsLegal

/-- `State.legal` as a proposition. -/
abbrev State.Legal (s : State) : Prop := s.legal = true

/-- The latest command did not end in UNDEFINED: no fault of the issuing program so far (60_exceptions.md R318). -/
def State.noUndefined (s : State) : Bool :=
  match s.lastOutcome with
  | some (.undefined _) => false
  | some .done => true
  | some (.err _) => true
  | none => true

/-- A run of `n` steps in which no command ended in UNDEFINED. -/
def SafeRun (n : Nat) (s : State) : Prop :=
  ∀ k, k ≤ n → ∀ t, Sys2Proof.core.run k s = .next t → t.noUndefined = true

/-! ## What a command did, in the terms the statements use -/

/-- Bit `j` of FB byte `k`. -/
def State.fbBit (s : State) (k j : Nat) : Bool := (s.fb.read k).getLsbD j

/-- Bit `j` of FB byte `k` is pixel (x, y) of the buffer (10_state.md R21): the byte and the bit are computed as the
pixel primitive computes them. -/
abbrev IsPixel (p : Params) (k j : Nat) (x y : Int) : Prop :=
  inBuffer p x y = true ∧ pixelByte p x y = k ∧ pixelBit y = j

/-- `t` is `s` after a command that ended in DONE and wrote, besides STATUS.ERR, at most FB. -/
def DoneFb (s t : State) : Prop := t = { s with fb := t.fb, err := 0, lastOutcome := some .done }

/-- `t` is `s` after a command that ended in DONE, wrote the pixels of `shape` that lie in the buffer in the colour
`ink`, and changed no other bit of any FB byte. -/
def PaintsExactly (s t : State) (ink : Bool) (shape : Int → Int → Prop) : Prop :=
  DoneFb s t ∧ ∀ k j, j < 8 →
    ((∃ x y, shape x y ∧ IsPixel s.params k j x y) → t.fbBit k j = ink) ∧
    ((¬ ∃ x y, shape x y ∧ IsPixel s.params k j x y) → t.fbBit k j = s.fbBit k j)

/-- `t` is `s` after a command that ended in UNDEFINED(r): FB, RESULT0, RESULT1, CURSOR_X, CURSOR_Y and STATUS.ERR may
hold anything, every other register, RES and FONT are kept (60_exceptions.md R319). -/
def UndefinedKeeps (r : Undefined) (s t : State) : Prop :=
  t = { s with
        fb := t.fb
        result0 := t.result0
        result1 := t.result1
        cursorX := t.cursorX
        cursorY := t.cursorY
        err := t.err
        lastOutcome := some (.undefined r)
        freeCtr := s.freeCtr + 1 }

/-- `t` is `s` after a command with outcome `o`: STATUS.ERR is 0 after DONE; after ERR nothing but STATUS.ERR changed, and
it holds the code; after UNDEFINED what 60_exceptions.md R319 keeps is kept (60_exceptions.md R312). -/
def EndsIn (s t : State) (o : CmdOutcome) : Prop :=
  t.lastOutcome = some o ∧
    match o with
    | .done => t.err = 0
    | .err e => t = { s with err := e.code, lastOutcome := some (.err e) }
    | .undefined r => UndefinedKeeps r s t

/-- Two runs agree: they end in the same outcome, and unless that is UNDEFINED the second leaves the state `f` makes of
the first's. What an UNDEFINED outcome leaves free may differ (60_exceptions.md R319). -/
def Agree (a b : StepResult) (f : State → State) : Prop :=
  ∃ t u : State, a = .next t ∧ b = .next u ∧ u.lastOutcome = t.lastOutcome ∧
    ((∀ r, t.lastOutcome ≠ some (.undefined r)) → u = f t)

/-- The points a one-colour shape command draws for the operands of `s`, as its rule lists them; none for the other
commands (40_framebuffer.md R104, R107, R109; 41_line.md R131; 42_circle.md R141 to R146; 43_polygon.md R160 to R167). -/
def shapePoints (s : State) : Instr → Option (Colour × List Point)
  | .setpix c => some (c, [(s16 (s.arg 0), s16 (s.arg 1))])
  | .hline c => some (c, hspan s.params (s16 (s.arg 0)) (s16 (s.arg 1)) (u8 (s.arg 2)))
  | .vline c => some (c, vspan s.params (s16 (s.arg 0)) (s16 (s.arg 1)) (u8 (s.arg 2)))
  | .line c => some (c, linePoints (s16 (s.arg 0)) (s16 (s.arg 1)) (s16 (s.arg 2)) (s16 (s.arg 3)))
  | .circle c => some (c, circlePoints (s16 (s.arg 0)) (s16 (s.arg 1)) (u8 (s.arg 2)))
  | .circleq c => some (c, arcPoints (s16 (s.arg 0)) (s16 (s.arg 1)) (u8 (s.arg 2)) (bits 4 (s.arg 3)))
  | .fcircle c => some (c, discPoints s.params (s16 (s.arg 0)) (s16 (s.arg 1)) (u8 (s.arg 2)))
  | .fcircleq c => some (c, halfPoints s.params (s16 (s.arg 0)) (s16 (s.arg 1)) (u8 (s.arg 2)) (bits 2 (s.arg 3))
      (s16 (s.arg 4)))
  | .rect c => some (c, rectPoints s.params (s16 (s.arg 0)) (s16 (s.arg 1)) (u8 (s.arg 2)) (u8 (s.arg 3)))
  | .frect c => some (c, fillRectPoints s.params (s16 (s.arg 0)) (s16 (s.arg 1)) (u8 (s.arg 2)) (u8 (s.arg 3)))
  | .rrect c => some (c, roundRectPoints s.params (s16 (s.arg 0)) (s16 (s.arg 1)) (u8 (s.arg 2)) (u8 (s.arg 3))
      (u8 (s.arg 4)))
  | .frrect c => some (c, fillRoundRectPoints s.params (s16 (s.arg 0)) (s16 (s.arg 1)) (u8 (s.arg 2)) (u8 (s.arg 3))
      (u8 (s.arg 4)))
  | .tri c => some (c, triPoints (s16 (s.arg 0)) (s16 (s.arg 1)) (s16 (s.arg 2)) (s16 (s.arg 3)) (s16 (s.arg 4))
      (s16 (s.arg 5)))
  | .ftri c => some (c, triFillPoints s.params (s16 (s.arg 0), s16 (s.arg 1)) (s16 (s.arg 2), s16 (s.arg 3))
      (s16 (s.arg 4), s16 (s.arg 5)))
  | .nop | .fill _ | .getpix | .bitmap _ | .sprite _ | .drawcomp _ | .rotvec | .drawrot _ | .drawchar _ | .writechar =>
    none

/-! ## The opcode map and the operand column, as tables -/

/-- 30_encoding.md R84 as a table: OPC, its legal COLOR values, its MODE values (those that are supported). -/
def opcodeMap : List (Nat × List Nat × List Nat) :=
  [(0x00, [0], [0]), (0x01, [0, 1], [0]), (0x02, [0, 1], [0]), (0x03, [0], [0]), (0x04, [0, 1], [0]),
   (0x05, [0, 1], [0]), (0x10, [0, 1], [0]), (0x20, [0, 1], [0]), (0x21, [0, 1], [0]), (0x22, [0, 1], [0]),
   (0x23, [0, 1], [0]), (0x30, [0, 1], [0]), (0x31, [0, 1], [0]), (0x32, [0, 1], [0]), (0x33, [0, 1], [0]),
   (0x34, [0, 1], [0]), (0x35, [0, 1], [0]), (0x40, [0, 1, 2], [0]), (0x50, [0], [0, 1, 2, 3, 4, 5]),
   (0x60, [0, 1], [0]), (0x70, [0], [0]), (0x71, [0], [0, 1]), (0x80, [0, 1], [0]), (0x81, [0], [0])]

/-- The operand views (10_state.md R24). -/
inductive View where
  | s16
  | u8
  | addr
  | bits (n : Nat)
deriving DecidableEq, Repr

/-- The value a view gives (10_state.md R24). -/
def View.value : View → Word → Int
  | .s16, w => Sys2Proof.Machine.s16 w
  | .u8, w => (Sys2Proof.Machine.u8 w : Nat)
  | .addr, w => (Sys2Proof.Machine.addr w : Nat)
  | .bits n, w => (Sys2Proof.Machine.bits n w : Nat)

/-- The operand column of 30_encoding.md R84. -/
def operandViews : Instr → List (Fin 8 × View)
  | .nop => []
  | .fill _ => []
  | .setpix _ => [(0, .s16), (1, .s16)]
  | .getpix => [(0, .s16), (1, .s16)]
  | .hline _ => [(0, .s16), (1, .s16), (2, .u8)]
  | .vline _ => [(0, .s16), (1, .s16), (2, .u8)]
  | .line _ => [(0, .s16), (1, .s16), (2, .s16), (3, .s16)]
  | .circle _ => [(0, .s16), (1, .s16), (2, .u8)]
  | .circleq _ => [(0, .s16), (1, .s16), (2, .u8), (3, .bits 4)]
  | .fcircle _ => [(0, .s16), (1, .s16), (2, .u8)]
  | .fcircleq _ => [(0, .s16), (1, .s16), (2, .u8), (3, .bits 2), (4, .s16)]
  | .rect _ => [(0, .s16), (1, .s16), (2, .u8), (3, .u8)]
  | .frect _ => [(0, .s16), (1, .s16), (2, .u8), (3, .u8)]
  | .rrect _ => [(0, .s16), (1, .s16), (2, .u8), (3, .u8), (4, .u8)]
  | .frrect _ => [(0, .s16), (1, .s16), (2, .u8), (3, .u8), (4, .u8)]
  | .tri _ => [(0, .s16), (1, .s16), (2, .s16), (3, .s16), (4, .s16), (5, .s16)]
  | .ftri _ => [(0, .s16), (1, .s16), (2, .s16), (3, .s16), (4, .s16), (5, .s16)]
  | .bitmap _ => [(0, .s16), (1, .s16), (2, .addr), (3, .u8), (4, .u8)]
  | .sprite _ => [(0, .s16), (1, .s16), (2, .addr), (3, .u8), (4, .addr), (5, .u8)]
  | .drawcomp _ => [(0, .s16), (1, .s16), (2, .addr)]
  | .rotvec => [(0, .s16)]
  | .drawrot _ => [(0, .s16), (1, .s16), (2, .addr), (3, .u8), (4, .s16), (5, .u8)]
  | .drawchar _ => [(0, .s16), (1, .s16), (2, .u8), (3, .bits 1), (4, .u8)]
  | .writechar => [(0, .u8)]

/-! ## Pixels before and after -/

/-- Pixel (x, y) of the buffer (40_framebuffer.md R101). -/
def State.pixel (s : State) (x y : Int) : Bool := pixelRead s.params s.fb x y

/-- `t.fb` is `s.fb` with `f x y` applied to every pixel (x, y); no byte outside FB changed. -/
def MapsPixels (s t : State) (f : Int → Int → Bool → Bool) : Prop :=
  (∀ x y, inBuffer s.params x y = true → pixelRead s.params t.fb x y = f x y (s.pixel x y)) ∧
  ∀ k, s.params.fbBytes ≤ k → t.fb.read k = s.fb.read k

/-! ## Shapes in closed form -/

/-- Row `a - x0` of the line from (x0, y0) to (x1, y1), x0 <= x1 and not steep: the row moves by the least `n` that
keeps the error term of 41_line.md R130 non-negative. -/
def onOrderedLine (x0 y0 x1 y1 a b : Int) : Prop :=
  x0 ≤ a ∧ a ≤ x1 ∧
    b = y0 + (if y0 < y1 then 1 else -1) * -(((x1 - x0) / 2 - (a - x0) * |y1 - y0|) / (x1 - x0))

/-- The line between two points that is not steep, left to right (41_line.md R130). -/
def onGentleLine (x0 y0 x1 y1 a b : Int) : Prop :=
  if x0 ≤ x1 then onOrderedLine x0 y0 x1 y1 a b else onOrderedLine x1 y1 x0 y0 a b

/-- The line between two points; a steep one is the transposed line of the transposed points (41_line.md R130). -/
def onLine (x0 y0 x1 y1 a b : Int) : Prop :=
  if |y1 - y0| > |x1 - x0| then onGentleLine y0 x0 y1 x1 b a else onGentleLine x0 y0 x1 y1 a b

/-- The circle: a point whose distances from the centre are, in either order, those of a midpoint step or (0, r)
(42_circle.md R141). -/
def onCircle (x0 y0 : Int) (r : Nat) (a b : Int) : Prop :=
  ∃ q, (q = ((0 : Int), (r : Int)) ∨ q ∈ midpointSteps r) ∧
    ((|a - x0| = q.1 ∧ |b - y0| = q.2) ∨ (|a - x0| = q.2 ∧ |b - y0| = q.1))

/-- The x side of corner bit `n`: upper-left 0, upper-right 1, lower-right 2, lower-left 3 (42_circle.md R142). -/
def cornerX (n : Nat) : Int := if n = 1 ∨ n = 2 then 1 else -1

/-- The y side of corner bit `n` (42_circle.md R142). -/
def cornerY (n : Nat) : Int := if n = 2 ∨ n = 3 then 1 else -1

/-- The quadrant arcs of a corner mask: the midpoint steps, in either order, on the sides of each chosen corner
(42_circle.md R142). -/
def onArcs (x0 y0 : Int) (r corners : Nat) (a b : Int) : Prop :=
  ∃ n < 4, corners.testBit n = true ∧ ∃ q ∈ midpointSteps r,
    (a = x0 + cornerX n * q.1 ∧ b = y0 + cornerY n * q.2) ∨ (a = x0 + cornerX n * q.2 ∧ b = y0 + cornerY n * q.1)

/-- The filled halves of a side mask: for each midpoint step, in either order, one column, extended downward by
`delta` (42_circle.md R144). -/
def onHalves (x0 y0 : Int) (r sides : Nat) (delta a b : Int) : Prop :=
  ∃ n < 2, sides.testBit n = true ∧ ∃ q ∈ midpointSteps r,
    (a = x0 + (if n = 0 then 1 else -1) * q.1 ∧ y0 - q.2 ≤ b ∧ b ≤ y0 + q.2 + delta) ∨
    (a = x0 + (if n = 0 then 1 else -1) * q.2 ∧ y0 - q.1 ≤ b ∧ b ≤ y0 + q.1 + delta)

/-- The disc: for each midpoint step or (0, r), in either order, the column at one distance filled up to the other
(42_circle.md R146). -/
def onDisc (x0 y0 : Int) (r : Nat) (a b : Int) : Prop :=
  ∃ q, (q = ((0 : Int), (r : Int)) ∨ q ∈ midpointSteps r) ∧
    ((|a - x0| = q.1 ∧ |b - y0| ≤ q.2) ∨ (|a - x0| = q.2 ∧ |b - y0| ≤ q.1))

/-- A w × h box at (x, y). -/
def inBox (x y w h a b : Int) : Prop := x ≤ a ∧ a < x + w ∧ y ≤ b ∧ b < y + h

/-- The four edges of RECT, each on its own terms (43_polygon.md R160: with w = 0 two columns, with h = 0 two rows; log
entry 18). -/
def onRect (x y w h a b : Int) : Prop :=
  (x ≤ a ∧ a < x + w ∧ (b = y ∨ b = y + h - 1)) ∨ (y ≤ b ∧ b < y + h ∧ (a = x ∨ a = x + w - 1))

/-- The four corner arcs of RRECT (43_polygon.md R163). -/
def onCorners (x y w h : Int) (r : Nat) (a b : Int) : Prop :=
  onArcs (x + r) (y + r) r 0x1 a b ∨ onArcs (x + w - r - 1) (y + r) r 0x2 a b ∨
  onArcs (x + w - r - 1) (y + h - r - 1) r 0x4 a b ∨ onArcs (x + r) (y + h - r - 1) r 0x8 a b

/-- The shortened edges and the four corner arcs of RRECT (43_polygon.md R163; with w = 0 or h = 0 log entry 18). -/
def onRoundRect (x y w h : Int) (r : Nat) (a b : Int) : Prop :=
  (x + r ≤ a ∧ a < x + w - r ∧ (b = y ∨ b = y + h - 1)) ∨
  (y + r ≤ b ∧ b < y + h - r ∧ (a = x ∨ a = x + w - 1)) ∨ onCorners x y w h r a b

/-- The body and the two rounded ends of FRRECT (43_polygon.md R164; with w = 0 log entry 18). -/
def onFilledRoundRect (x y w h : Int) (r : Nat) (a b : Int) : Prop :=
  inBox (x + r) y (w - 2 * r) h a b ∨
  onHalves (x + w - r - 1) (y + r) r 0x1 (h - 2 * r - 1) a b ∨ onHalves (x + r) (y + r) r 0x2 (h - 2 * r - 1) a b

/-- Where an edge from (x0, y0) to (x1, y1) crosses row `b`, rounded toward zero from x0 (43_polygon.md R166). -/
def edgeAt (x0 y0 x1 y1 b : Int) : Int := x0 + ((x1 - x0) * (b - y0)).tdiv (y1 - y0)

/-- The filled triangle of vertices sorted by y (43_polygon.md R166). -/
def onTriangle (x0 y0 x1 y1 x2 y2 a b : Int) : Prop :=
  if y0 = y2 then b = y0 ∧ min x0 (min x1 x2) ≤ a ∧ a ≤ max x0 (max x1 x2)
  else
    let e := if b < y1 ∨ y1 = y2 then edgeAt x0 y0 x1 y1 b else edgeAt x1 y1 x2 y2 b
    let f := edgeAt x0 y0 x2 y2 b
    y0 ≤ b ∧ b ≤ y2 ∧ min e f ≤ a ∧ a ≤ max e f

/-! ## Blits, pixel by pixel -/

/-- The bounding test of the blits lets the bitmap through (44_sprite_aligned.md R180). -/
def onScreen (p : Params) (x y : Int) (w h : Nat) : Prop :=
  0 < x + w ∧ x < p.width ∧ 0 < y + h ∧ y < p.height

/-- A bitmap drawn one pixel at a time (44_sprite_aligned.md R184): `op d i r` is the new value of a pixel of value
`d` under source pixel (i, r); the padding rows of the last source page are drawn. -/
def pixelBlit (x y : Int) (w h : Nat) (op : Bool → Nat → Nat → Bool) (a b : Int) (d : Bool) : Bool :=
  if x ≤ a ∧ a < x + w ∧ y ≤ b ∧ b < y + 8 * ((h + 7) / 8 : Nat) then op d (a - x).toNat (b - y).toNat else d

/-- The cell number of source pixel (i, r) in a frame (20_memory.md R59). -/
def cellIndex (w i r : Nat) : Nat := r / 8 * w + i

/-- Bit `r mod 8` of the RES byte at an address, taken mod 2^16 (20_memory.md R57). -/
def resBit (res : Memory) (a : Nat) (r : Nat) : Bool := (res.read (a % 65536)).getLsbD (r % 8)

/-- `n` RES bytes from an address can be read (20_memory.md R57). -/
def resReadable (p : Params) (a n : Nat) : Prop := ∀ k < n, (a + k) % 65536 < p.resSize

/-- The number of a frame's cells (20_memory.md R59). -/
def cellCount (w h : Nat) : Nat := w * ((h + 7) / 8)

/-- What BITMAP of a colour makes of a pixel under a source pixel (44_sprite_aligned.md R182). -/
def bitmapPixel : Colour → Bool → Bool → Bool
  | .black, d, src => d && !src
  | .white, d, src => d || src
  | .invert, d, src => d != src

/-- The address of frame `f` of the sprite at `b` (45_sprite_unaligned.md R200, R201). -/
def spriteImage (m : DrawMode) (b f w h : Nat) : Nat :=
  b + 2 + f * (if m = .plusmask then 2 * cellCount w h else cellCount w h)

/-- Cell (a, i) of a bitmap at (x, y) has a pixel on the screen; a blit reads only such cells (44_sprite_aligned.md
R181). -/
def cellVisible (p : Params) (x y : Int) (a i : Nat) : Prop :=
  0 ≤ x + i ∧ x + i < p.width ∧ 0 < y + 8 * a + 8 ∧ y + 8 * a < p.height

/-- The byte of every visible cell of a w × h bitmap at (x, y) can be read; `byteAt n` is the address of cell number
`n`'s byte (20_memory.md R57; 44_sprite_aligned.md R181). -/
def cellsReadable (p : Params) (x y : Int) (w h : Nat) (byteAt : Nat → Nat) : Prop :=
  ∀ a < (h + 7) / 8, ∀ i < w, cellVisible p x y a i → byteAt (a * w + i) % 65536 < p.resSize

/-- The image and mask bytes that SPRITE of a resolved mode reads can be read (45_sprite_unaligned.md R204). -/
def spriteReadable (p : Params) (m : DrawMode) (x y : Int) (b f mask mf w h : Nat) : Prop :=
  cellsReadable p x y w h (fun n => spriteImage m b f w h + if m = .plusmask then 2 * n else n) ∧
  (m = .plusmask → cellsReadable p x y w h fun n => spriteImage m b f w h + 2 * n + 1) ∧
  (m = .masked → cellsReadable p x y w h fun n => mask + mf * cellCount w h + n)

/-- What SPRITE of a resolved mode makes of a pixel `d` under source pixel (i, r) (45_sprite_unaligned.md R204 to
R209). -/
def spritePixel (res : Memory) (m : DrawMode) (b f mask mf w h : Nat) (d : Bool) (i r : Nat) : Bool :=
  let img := spriteImage m b f w h
  let n := cellIndex w i r
  match m with
  | .selfmask => d || resBit res (img + n) r
  | .erasemask => d && !resBit res (img + n) r
  | .masked => (d && !resBit res (mask + mf * cellCount w h + n) r) || resBit res (img + n) r
  | .plusmask => (d && !resBit res (img + 2 * n + 1) r) || resBit res (img + 2 * n) r
  | .unmasked | .autodetect => resBit res (img + n) r

/-! ## Compressed streams -/

/-- The low `n` bits of a value, the least significant first (46_rle_decoder.md R232). -/
def bitsLE (n v : Nat) : List Bool := (List.range n).map v.testBit

/-- One span (z, len) as bits: z zeros, a one, and len - 1 in 1 + 2z bits (46_rle_decoder.md R230). -/
def spanCode (z len : Nat) : List Bool := List.replicate z false ++ true :: bitsLE (1 + 2 * z) (len - 1)

/-- A compressed stream as bits (46_rle_decoder.md R230). -/
def streamCode (w h : Nat) (start : Bool) (spans : List (Nat × Nat)) : List Bool :=
  bitsLE 8 (w - 1) ++ bitsLE 8 (h - 1) ++ start :: spans.flatMap fun q => spanCode q.1 q.2

/-- The pixels of the spans, the colour toggling after each (46_rle_decoder.md R237). -/
def spanPixels (start : Bool) (spans : List (Nat × Nat)) : List Bool :=
  match spans with
  | [] => []
  | q :: rest => List.replicate q.2 start ++ spanPixels (!start) rest

/-- A span whose length its magnitude field can hold, of a class the decoder accepts (46_rle_decoder.md R234, R235). -/
def spanFits (q : Nat × Nat) : Prop := q.1 < 16 ∧ 1 ≤ q.2 ∧ q.2 ≤ 2 ^ (1 + 2 * q.1)

/-- RES holds a bit sequence from an address on, bit 0 of each byte first, and every byte of it can be read
(46_rle_decoder.md R231, 20_memory.md R57). -/
def streamHolds (p : Params) (res : Memory) (st : Nat) (code : List Bool) : Prop :=
  ∀ n < code.length, (st + n / 8) % 65536 < p.resSize ∧ resBit res (st + n / 8) n = code.getD n false

/-- After the bits `code` of a w × h stream the decoder reads another: the code ends with the header, or inside a span
after well-formed spans that do not yet fill the bitmap (46_rle_decoder.md R233, R234, R235, R240). -/
def streamWants (w h : Nat) (code : List Bool) : Prop :=
  code = bitsLE 8 (w - 1) ++ bitsLE 8 (h - 1) ∨
  ∃ start spans z len tail more, (∀ q ∈ spans, spanFits q) ∧ (spans.map fun q => q.2).sum < 8 * cellCount w h ∧
    spanFits (z, len) ∧ tail ++ more = spanCode z len ∧ more ≠ [] ∧ code = streamCode w h start spans ++ tail

/-- The number of cell (a, c) in the decoder's scan order (46_rle_decoder.md R236). -/
def scanNumber (order : ScanOrder) (w h a c : Nat) : Nat :=
  match order with
  | .column => c * ((h + 7) / 8) + a
  | .pageRow => a * w + c

/-- Source pixel (i, r) of a decoded bitmap (46_rle_decoder.md R236, R237). -/
def decodedPixel (order : ScanOrder) (w h : Nat) (pixels : List Bool) (i r : Nat) : Bool :=
  pixels.getD (8 * scanNumber order w h (r / 8) i + r % 8) false

/-! ## Rotation -/

/-- The sine of `d` degrees, 0 <= d < 360, quadrant by quadrant (47_affine.md R260). -/
def sineOf (p : Params) (d : Nat) : Int :=
  if d < 90 then p.sinTable.getD d 0
  else if d = 90 then 127
  else if d < 180 then p.sinTable.getD (180 - d) 0
  else if d < 270 then -(p.sinTable.getD (d - 180) 0 : Int)
  else if d = 270 then -127
  else -(p.sinTable.getD (360 - d) 0 : Int)

/-- The scaled increment of the sine of an angle (47_affine.md R262, R263, R266). -/
def sineStep (p : Params) (angle : Int) (percent : Nat) : Int :=
  (sineOf p (angle % 360).toNat * percent * 256).tdiv 12700

/-- The column on which source pixel (i, j) lands (47_affine.md R267, R268, R270). -/
def landsX (p : Params) (x : Int) (w h : Nat) (angle : Int) (percent i j : Nat) : Int :=
  let C := sineStep p (angle + 90) percent
  let S := sineStep p angle percent
  ((x + (w / 2 : Nat)) * 256 - ((w / 2 : Nat) * C - (h / 2 : Nat) * S) + i * C - j * S) % 65536 / 256

/-- The row on which source pixel (i, j) lands (47_affine.md R267, R268, R270). -/
def landsY (p : Params) (y : Int) (w h : Nat) (angle : Int) (percent i j : Nat) : Int :=
  let C := sineStep p (angle + 90) percent
  let S := sineStep p angle percent
  ((y + (h / 2 : Nat)) * 256 - ((w / 2 : Nat) * S + (h / 2 : Nat) * C) + i * S + j * C) % 65536 / 256

/-! ## Glyphs -/

/-- Row `j` of column `i` of glyph `c` is set (48_glyph.md R290). -/
def glyphBit (font : Memory) (c i j : Nat) : Bool := decide (i < 5) && (font.read (5 * c + i)).getLsbD j

/-- The colour of glyph pixel (a, b) of glyph `c` at (x, y) (48_glyph.md R291). -/
def glyphOn (font : Memory) (x y : Int) (c : Nat) (fg bg : Bool) (size : Nat) (a b : Int) : Bool :=
  if glyphBit font c ((a - x).toNat / size) ((b - y).toNat / size) then fg else bg

/-- Glyph `c` at (x, y) with a size writes pixel (a, b): the first test of 48_glyph.md R291 lets the glyph through, the
pixel is in the 6s × 8s cell, and it is WHITE or the two colours differ. -/
def glyphWrites (p : Params) (font : Memory) (x y : Int) (c : Nat) (fg bg : Bool) (size : Nat) (a b : Int) : Bool :=
  decide (x < p.width ∧ y < p.height ∧ 0 ≤ x + 5 * size - 1 ∧ 0 ≤ y + 8 * size - 1) &&
    decide (x ≤ a ∧ a < x + 6 * size ∧ y ≤ b ∧ b < y + 8 * size) &&
    (glyphOn font x y c fg bg size a b || bg != fg)

/-- What drawing glyph `c` at (x, y) makes of pixel (a, b) of value `d` (48_glyph.md R291). -/
def glyphPixel (p : Params) (font : Memory) (x y : Int) (c : Nat) (fg bg : Bool) (size : Nat) (a b : Int)
    (d : Bool) : Bool :=
  if glyphWrites p font x y c fg bg size a b then glyphOn font x y c fg bg size a b else d

/-- A glyph's writes all go through in the mode of `s`: they are clipped, or all lie in the buffer (40_framebuffer.md
R100). -/
def glyphClean (s : State) (x y : Int) (c : Nat) (fg bg : Bool) (size : Nat) : Prop :=
  s.pixelSafe = true ∨ ∀ a b, glyphWrites s.params s.font x y c fg bg size a b = true → inBuffer s.params a b = true

end Sys2Proof.Machine
end

