-- ==== Sys2Proof/Certificates/Slice0/Obligations.lean ====
section
/-! DEFINITION. The statements about this model. Each docstring names the rules of spec/ a statement formalises; where it
rests on a choice of the model, the log entry. `DoneFb`, `PaintsExactly`, `MapsPixels` and `UndefinedKeeps` of
Sys2Proof/Safety.lean carry the frames: they fix every field of State that they do not name. -/

open Sys2Proof Sys2Proof.Machine

/-! ## The command word -/

/-- A word decodes to a command exactly when the command is well formed and encodes to that word: no bit of an
encoding is dropped, and no two words mean the same (30_encoding.md R80, R84, R85). -/
def Obligations.DecodeEncodeAgree : Prop :=
  ∀ (v : Word) (i : Instr), decode v = .ok i ↔ i.WellFormed ∧ encode i = v

/-- The decoding procedure of 30_encoding.md R85 at a host write of CMD, over the table of R84: the first of the
conditions (1) to (5) that applies decides the error code, and an error changes nothing but STATUS.ERR beside CMD (and
the model's own `pending` and `lastOutcome`); otherwise the command the word encodes executes. -/
def Obligations.CmdWriteDecodes : Prop :=
  ∀ (s : State) (v : Word) (rest : List Input), s.pending = .write16 0x0006 v :: rest →
    let s' := { s with pending := rest, cmd := v }
    let err := fun (code : BitVec 4) (e : ErrCode) =>
      step s = .next { s' with err := code, lastOutcome := some (.err e) }
    match opcodeMap.lookup (v.toNat % 256) with
    | none => err 1 .illegalOpcode
    | some (colours, modes) =>
      if v.toNat / 2 ^ 13 ≠ 0 then err 2 .reservedField
      else if v.toNat / 2 ^ 8 % 4 ∉ colours then err 2 .reservedField
      else if 6 ≤ v.toNat / 2 ^ 10 % 8 ∨ (modes = [0] ∧ v.toNat / 2 ^ 10 % 8 ≠ 0) then err 2 .reservedField
      else if v.toNat % 256 = 0x71 ∧ 2 ≤ v.toNat / 2 ^ 10 % 8 then err 3 .unsupportedMode
      else ∃ i : Instr, i.WellFormed ∧ encode i = v ∧ step s = exec i s'

/-- A few command words of 30_encoding.md R84 and of the rules' own examples, and what they decode to. -/
def Obligations.DecodeWords : Prop :=
  decode 0x0000 = .ok .nop ∧ decode 0x0101 = .ok (.fill .white) ∧ decode 0x0110 = .ok (.line .white) ∧
  decode 0x0023 = .ok (.fcircleq .black) ∧ decode 0x0134 = .ok (.tri .white) ∧
  decode 0x0240 = .ok (.bitmap .invert) ∧ decode 0x1450 = .ok (.sprite .autodetect) ∧
  decode 0x0C50 = .ok (.sprite .masked) ∧ decode 0x0160 = .ok (.drawcomp .white) ∧ decode 0x0070 = .ok .rotvec ∧
  decode 0x0471 = .ok (.drawrot .selfmask) ∧ decode 0x0180 = .ok (.drawchar .white) ∧ decode 0x0081 = .ok .writechar

/-- A step runs the decoded command: where the next input is a host write of `v` to CMD and `v` decodes to `i`, the step
is `exec i` on the state with that input taken and CMD holding `v` (10_state.md R31, R33). The queue of inputs is the
model's (log entry 1). -/
def Obligations.StepRunsCommand : Prop :=
  ∀ (s : State) (v : Word) (rest : List Input) (i : Instr), s.pending = .write16 0x0006 v :: rest → decode v = .ok i →
    step s = exec i { s with pending := rest, cmd := v }

/-! ## Outcomes and frames -/

/-- Every command, on every state and every operand, and every host write of CMD, answers a next state with exactly one
of the three outcomes: DONE with STATUS.ERR = 0; ERR with the code in STATUS.ERR and nothing else changed; UNDEFINED with
everything but FB, RESULT0, RESULT1, CURSOR_X, CURSOR_Y and STATUS.ERR kept (00_scope.md R17; 60_exceptions.md R312, R319).
That the machine goes on after UNDEFINED, with free values there, is the model's choice (log entry 3). -/
def Obligations.CommandOutcomes : Prop :=
  (∀ (i : Instr) (s : State), ∃ (t : State) (o : CmdOutcome), exec i s = .next t ∧ EndsIn s t o) ∧
  ∀ (s : State) (v : Word) (rest : List Input), s.pending = .write16 0x0006 v :: rest →
    ∃ (t : State) (o : CmdOutcome), step s = .next t ∧ EndsIn { s with pending := rest, cmd := v } t o

/-- What a command that ends in DONE leaves alone: every register but STATUS.ERR, RESULT0 (GETPIX, ROTVEC), RESULT1
(ROTVEC) and the cursor (WRITECHAR); RES, FONT and BUSERR; FB in NOP, GETPIX and ROTVEC; every byte outside FB
(10_state.md R22, R23, R30, R32, R34, R40, R41). -/
def Obligations.CommandFrame : Prop :=
  ∀ (i : Instr) (s t : State), s.Legal → exec i s = .next t → t.lastOutcome = some .done →
    t = { s with
          fb := t.fb
          result0 := t.result0
          result1 := t.result1
          cursorX := t.cursorX
          cursorY := t.cursorY
          err := 0
          lastOutcome := some .done } ∧
    (i ≠ .getpix → i ≠ .rotvec → t.result0 = s.result0) ∧
    (i ≠ .rotvec → t.result1 = s.result1) ∧
    (i ≠ .writechar → t.cursorX = s.cursorX ∧ t.cursorY = s.cursorY) ∧
    (i = .nop ∨ i = .getpix ∨ i = .rotvec → t.fb = s.fb) ∧
    ∀ k, s.params.fbBytes ≤ k → t.fb.read k = s.fb.read k

/-- The block takes no trap and no input stops it: every step answers a next state (60_exceptions.md R316, R325). That a
step after an UNDEFINED outcome does so too, and that an idle step answers its own state, are the model's choices (log
entries 3 and 2). -/
def Obligations.EveryStepAnswers : Prop :=
  ∀ s : State, ∃ t : State, step s = .next t

/-- Bits of an ARG register outside the view a command reads it through, and ARG registers it does not read, have no
effect on it (10_state.md R24; 30_encoding.md R81, R84). -/
def Obligations.OperandViewsAlone : Prop :=
  ∀ (i : Instr) (s : State) (A B : Vector Word 8),
    (∀ e ∈ operandViews i, e.2.value A[e.1] = e.2.value B[e.1]) →
    Agree (exec i { s with args := A }) (exec i { s with args := B }) fun t => { t with args := B }

/-- FILL, the commands built only from spans, the blits, the decoder and the rotation do not depend on CONFIG
(40_framebuffer.md R103, R111; 44_sprite_aligned.md R181; 45_sprite_unaligned.md R211; 47_affine.md R270). -/
def Obligations.ConfigIndependence : Prop :=
  ∀ (c : Colour) (m : DrawMode) (i : Instr) (s : State) (v : Word),
    i ∈ [.nop, .fill c, .getpix, .hline c, .vline c, .fcircle c, .fcircleq c, .rect c, .frect c, .frrect c, .ftri c,
      .bitmap c, .sprite m, .drawcomp c, .rotvec, .drawrot m] →
    Agree (exec i s) (exec i { s with config := v }) fun t => { t with config := v }

/-! ## Frame-buffer commands -/

/-- NOP completes in every state and changes STATUS.ERR alone (40_framebuffer.md R102). -/
def Obligations.NopCompletes : Prop :=
  ∀ s : State, exec .nop s = .next { s with err := 0, lastOutcome := some .done }

/-- FILL sets every FB byte to 0x00 or 0xFF and nothing else, whatever CONFIG holds (40_framebuffer.md R103). -/
def Obligations.FillSetsEveryByte : Prop :=
  ∀ (c : Colour) (ink : Bool) (s : State), inkOf c = some ink →
    ∃ t : State, exec (.fill c) s = .next t ∧ DoneFb s t ∧
      (∀ k, k < s.params.fbBytes → t.fb.read k = if ink then 0xFF else 0x00) ∧
      (s.fb.below s.params.fbBytes = true → ∀ k, s.params.fbBytes ≤ k → t.fb.read k = s.fb.read k)

/-- SETPIX writes the one pixel of its operands where it lies in the buffer; outside it, it is a no-op in safe mode and
UNDEFINED(PIXEL_RANGE) in unchecked mode, which keeps everything but FB, RESULT0, RESULT1, CURSOR_X, CURSOR_Y and
STATUS.ERR (40_framebuffer.md R100, R104; 60_exceptions.md R319). That the machine goes on after UNDEFINED, with free values
there, is the model's choice (log entry 3). -/
def Obligations.SetpixWritesOnePixel : Prop :=
  ∀ (c : Colour) (ink : Bool) (s : State), inkOf c = some ink →
    let x := s16 (s.arg 0)
    let y := s16 (s.arg 1)
    if 0 ≤ x ∧ x < s.params.width ∧ 0 ≤ y ∧ y < s.params.height then
      ∃ t : State, exec (.setpix c) s = .next t ∧ PaintsExactly s t ink (fun a b => a = x ∧ b = y)
    else if s.pixelSafe then exec (.setpix c) s = .next { s with err := 0, lastOutcome := some .done }
    else ∃ t : State, exec (.setpix c) s = .next t ∧ UndefinedKeeps .pixelRange s t

/-- SETPIX then GETPIX at a pixel of the buffer reads the colour back, and every other FB bit is unchanged
(40_framebuffer.md R110). -/
def Obligations.SetThenGet : Prop :=
  ∀ (c : Colour) (ink : Bool) (s : State), inkOf c = some ink →
    inBuffer s.params (s16 (s.arg 0)) (s16 (s.arg 1)) = true →
    ∃ t u : State, exec (.setpix c) s = .next t ∧ exec .getpix t = .next u ∧
      u.result0 = (if ink then 1 else 0) ∧
      ∀ k j, j < 8 → ¬ IsPixel s.params k j (s16 (s.arg 0)) (s16 (s.arg 1)) → u.fbBit k j = s.fbBit k j

/-- GETPIX puts the pixel of its operands, or 0 outside the buffer, into RESULT0 and changes nothing else but
STATUS.ERR, in both CONFIG modes (40_framebuffer.md R101, R105). -/
def Obligations.GetpixReads : Prop :=
  ∀ s : State,
    let x := s16 (s.arg 0)
    let y := s16 (s.arg 1)
    exec .getpix s = .next { s with
      result0 :=
        if 0 ≤ x ∧ x < s.params.width ∧ 0 ≤ y ∧ y < s.params.height ∧
            (s.fb.read (y / 8 * s.params.width + x).toNat).getLsbD (y % 8).toNat = true then 0x0001 else 0x0000
      err := 0
      lastOutcome := some .done }

/-- HLINE and VLINE complete in every state, in both CONFIG modes, and paint exactly the part of their run that lies in
the buffer (40_framebuffer.md R106, R107, R108, R109). -/
def Obligations.SpanCommandsPaint : Prop :=
  ∀ (c : Colour) (ink : Bool) (s : State), inkOf c = some ink →
    let x := s16 (s.arg 0)
    let y := s16 (s.arg 1)
    let n := u8 (s.arg 2)
    (∃ t : State, exec (.hline c) s = .next t ∧ PaintsExactly s t ink (fun a b => b = y ∧ x ≤ a ∧ a < x + n)) ∧
    (∃ t : State, exec (.vline c) s = .next t ∧ PaintsExactly s t ink (fun a b => a = x ∧ y ≤ b ∧ b < y + n))

/-! ## Lines -/

/-- LINE paints exactly the line between its endpoints, in closed form, where its writes are clipped or both endpoints
lie in the buffer (41_line.md R130, R131). -/
def Obligations.LinePaints : Prop :=
  ∀ (c : Colour) (ink : Bool) (s : State), inkOf c = some ink →
    let x0 := s16 (s.arg 0)
    let y0 := s16 (s.arg 1)
    let x1 := s16 (s.arg 2)
    let y1 := s16 (s.arg 3)
    (s.pixelSafe = true ∨ (inBuffer s.params x0 y0 = true ∧ inBuffer s.params x1 y1 = true)) →
    ∃ t : State, exec (.line c) s = .next t ∧ PaintsExactly s t ink (onLine x0 y0 x1 y1)

/-- Swapping the two endpoints of LINE gives the same outcome, on every state (41_line.md R131). -/
def Obligations.LineSwapEndpoints : Prop :=
  ∀ (c : Colour) (s : State) (A B : Vector Word 8), B[0] = A[2] → B[1] = A[3] → B[2] = A[0] → B[3] = A[1] →
    Agree (exec (.line c) { s with args := A }) (exec (.line c) { s with args := B }) fun t => { t with args := B }

/-- The line has max(|Δx|, |Δy|) + 1 points, no point twice, and both endpoints among them (41_line.md R130). -/
def Obligations.LinePointCount : Prop :=
  ∀ x0 y0 x1 y1 : Int, ((linePoints x0 y0 x1 y1).length : Int) = max |x1 - x0| |y1 - y0| + 1 ∧
    (linePoints x0 y0 x1 y1).Nodup ∧ (x0, y0) ∈ linePoints x0 y0 x1 y1 ∧ (x1, y1) ∈ linePoints x0 y0 x1 y1

/-! ## Circles -/

/-- The midpoint steps: the n-th has x = n, stays in the octant up to one pixel past the diagonal, never touches an axis
for r >= 2, and lies on the circle up to its rounding: |x² + y² - r²| <= y (42_circle.md R140). -/
def Obligations.MidpointStepsOnCircle : Prop :=
  ∀ (r n : Nat) (x y : Int), (midpointSteps r)[n]? = some (x, y) →
    x = n + 1 ∧ x ≤ y + 1 ∧ 0 ≤ y ∧ y ≤ r ∧ (2 ≤ r → 1 ≤ y) ∧ x * x + y * y - r * r ≤ y ∧ r * r - (x * x + y * y) ≤ y

/-- CIRCLE paints exactly its circle and CIRCLEQ exactly the chosen quadrant arcs, each where its writes are clipped or
all its points lie in the buffer (42_circle.md R141, R142, R143). -/
def Obligations.CircleCommandsPaint : Prop :=
  ∀ (c : Colour) (ink : Bool) (s : State), inkOf c = some ink →
    let x0 := s16 (s.arg 0)
    let y0 := s16 (s.arg 1)
    let r := u8 (s.arg 2)
    let arcs := onArcs x0 y0 r (bits 4 (s.arg 3))
    ((s.pixelSafe = true ∨ ∀ a b, onCircle x0 y0 r a b → inBuffer s.params a b = true) →
      ∃ t : State, exec (.circle c) s = .next t ∧ PaintsExactly s t ink (onCircle x0 y0 r)) ∧
    ((s.pixelSafe = true ∨ ∀ a b, arcs a b → inBuffer s.params a b = true) →
      ∃ t : State, exec (.circleq c) s = .next t ∧ PaintsExactly s t ink arcs)

/-- FCIRCLE paints exactly its disc and FCIRCLEQ exactly the chosen halves, in every state, in both CONFIG modes
(42_circle.md R144, R145, R146). -/
def Obligations.FilledCircleCommandsPaint : Prop :=
  ∀ (c : Colour) (ink : Bool) (s : State), inkOf c = some ink →
    let x0 := s16 (s.arg 0)
    let y0 := s16 (s.arg 1)
    let r := u8 (s.arg 2)
    (∃ t : State, exec (.fcircle c) s = .next t ∧ PaintsExactly s t ink (onDisc x0 y0 r)) ∧
    (∃ t : State, exec (.fcircleq c) s = .next t ∧
      PaintsExactly s t ink (onHalves x0 y0 r (bits 2 (s.arg 3)) (s16 (s.arg 4))))

/-- Every pixel CIRCLE draws is also drawn by FCIRCLE with the same operands, and FCIRCLE draws nothing outside the
column range of the outline, for every radius (42_circle.md R146 checks some radii and leaves the rest unproved). -/
def Obligations.CircleInsideDisc : Prop :=
  ∀ (s t u : State), s.pixelSafe = true → s.fb = [] →
    exec (.circle .white) s = .next t → exec (.fcircle .white) s = .next u →
    ∀ x y, inBuffer s.params x y = true →
      (pixelRead s.params t.fb x y = true → pixelRead s.params u.fb x y = true) ∧
      (pixelRead s.params u.fb x y = true →
        s16 (s.arg 0) - u8 (s.arg 2) ≤ x ∧ x ≤ s16 (s.arg 0) + u8 (s.arg 2))

/-! ## Rectangles and triangles -/

/-- RECT paints exactly its four edges and FRECT exactly its box, in every state, in both CONFIG modes
(43_polygon.md R160, R161, R162; for a zero width or height log entry 18). -/
def Obligations.RectanglesPaint : Prop :=
  ∀ (c : Colour) (ink : Bool) (s : State), inkOf c = some ink →
    let x := s16 (s.arg 0)
    let y := s16 (s.arg 1)
    let w := u8 (s.arg 2)
    let h := u8 (s.arg 3)
    (∃ t : State, exec (.rect c) s = .next t ∧ PaintsExactly s t ink (onRect x y w h)) ∧
    (∃ t : State, exec (.frect c) s = .next t ∧ PaintsExactly s t ink (inBox x y w h))

/-- RRECT paints exactly its shortened edges and corner arcs, where its writes are clipped or all points of the arcs lie in
the buffer; the edges clip in both CONFIG modes (43_polygon.md R163; that a zero width or height is drawn as R163's
pseudocode says although 60_exceptions.md R320 lists it among the no-ops is log entry 18). -/
def Obligations.RoundRectPaints : Prop :=
  ∀ (c : Colour) (ink : Bool) (s : State), inkOf c = some ink →
    let x := s16 (s.arg 0)
    let y := s16 (s.arg 1)
    let w := u8 (s.arg 2)
    let h := u8 (s.arg 3)
    let r := u8 (s.arg 4)
    (s.pixelSafe = true ∨ ∀ a b, onCorners x y w h r a b → inBuffer s.params a b = true) →
    ∃ t : State, exec (.rrect c) s = .next t ∧ PaintsExactly s t ink (onRoundRect x y w h r)

/-- FRRECT paints exactly its body and its two rounded ends, in every state, in both CONFIG modes (43_polygon.md R164; for
a zero width log entry 18). -/
def Obligations.FilledRoundRectPaints : Prop :=
  ∀ (c : Colour) (ink : Bool) (s : State), inkOf c = some ink →
    ∃ t : State, exec (.frrect c) s = .next t ∧
      PaintsExactly s t ink
        (onFilledRoundRect (s16 (s.arg 0)) (s16 (s.arg 1)) (u8 (s.arg 2)) (u8 (s.arg 3)) (u8 (s.arg 4)))

/-- TRI paints exactly the three lines between its vertices, where its writes are clipped or the vertices lie in the
buffer (43_polygon.md R165, 41_line.md R130). -/
def Obligations.TrianglePaints : Prop :=
  ∀ (c : Colour) (ink : Bool) (s : State), inkOf c = some ink →
    let x0 := s16 (s.arg 0)
    let y0 := s16 (s.arg 1)
    let x1 := s16 (s.arg 2)
    let y1 := s16 (s.arg 3)
    let x2 := s16 (s.arg 4)
    let y2 := s16 (s.arg 5)
    (s.pixelSafe = true ∨
      (inBuffer s.params x0 y0 = true ∧ inBuffer s.params x1 y1 = true ∧ inBuffer s.params x2 y2 = true)) →
    ∃ t : State, exec (.tri c) s = .next t ∧
      PaintsExactly s t ink (fun a b => onLine x0 y0 x1 y1 a b ∨ onLine x1 y1 x2 y2 a b ∨ onLine x2 y2 x0 y0 a b)

/-- FTRI completes in every state, in both CONFIG modes, and paints exactly one span per row, between the two edges the
row crosses; the order in which the operands name the vertices does not matter (43_polygon.md R166, R167). -/
def Obligations.FilledTrianglePaints : Prop :=
  ∀ (c : Colour) (ink : Bool) (s : State) (u v w : Point), inkOf c = some ink →
    [u, v, w].Perm [(s16 (s.arg 0), s16 (s.arg 1)), (s16 (s.arg 2), s16 (s.arg 3)), (s16 (s.arg 4), s16 (s.arg 5))] →
    u.2 ≤ v.2 → v.2 ≤ w.2 →
    ∃ t : State, exec (.ftri c) s = .next t ∧ PaintsExactly s t ink (onTriangle u.1 u.2 v.1 v.2 w.1 w.2)

/-! ## Clipping -/

/-- In unchecked mode a shape command with a point outside the buffer, or a glyph that writes a pixel outside it, ends in
UNDEFINED(PIXEL_RANGE), which keeps everything but FB, RESULT0, RESULT1, CURSOR_X, CURSOR_Y and STATUS.ERR
(40_framebuffer.md R100; 48_glyph.md R292, R293; 60_exceptions.md R318, R319). That the machine goes on, with free values
there, is the model's choice (log entry 3). -/
def Obligations.UncheckedWriteUndefined : Prop :=
  ∀ (c : Colour) (ink : Bool) (s : State), inkOf c = some ink → s.pixelSafe = false →
    let fails := fun i => ∃ t : State, exec i s = .next t ∧ UndefinedKeeps .pixelRange s t
    (∀ (i : Instr) (pts : List Point), shapePoints s i = some (c, pts) →
      (∃ q ∈ pts, inBuffer s.params q.1 q.2 = false) → fails i) ∧
    (¬ glyphClean s (s16 (s.arg 0)) (s16 (s.arg 1)) (u8 (s.arg 2)) ink ((s.arg 3).getLsbD 0) (u8 (s.arg 4)) →
      fails (.drawchar c)) ∧
    (u8 (s.arg 0) ≠ 0x0A → u8 (s.arg 0) ≠ 0x0D →
      ¬ glyphClean s (s16 s.cursorX) (s16 s.cursorY) (u8 (s.arg 0)) (s.textColor.getLsbD 0) (s.textBg.getLsbD 0)
        (u8 s.textSize) →
      fails .writechar)

/-- In safe mode a shape command whose points all lie outside the buffer leaves FB byte for byte unchanged
(40_framebuffer.md R111). -/
def Obligations.OffscreenShapeUnchanged : Prop :=
  ∀ (i : Instr) (c : Colour) (ink : Bool) (pts : List Point) (s : State), inkOf c = some ink →
    shapePoints s i = some (c, pts) → s.pixelSafe = true → (∀ q ∈ pts, inBuffer s.params q.1 q.2 = false) →
    exec i s = .next { s with err := 0, lastOutcome := some .done }

/-- The null and zero-sized inputs of the blits, the decoder, the rotation and DRAWCHAR end in DONE with no FB change
(60_exceptions.md R320). -/
def Obligations.SilentDegradation : Prop :=
  ∀ (c : Colour) (ink : Bool) (m : DrawMode) (s : State), inkOf c = some ink →
    let noop : StepResult := .next { s with err := 0, lastOutcome := some .done }
    let b := addr (s.arg 2)
    (b = 0 ∨ u8 (s.arg 3) = 0 ∨ u8 (s.arg 4) = 0 → exec (.bitmap c) s = noop ∧ exec (.bitmap .invert) s = noop) ∧
    (b = 0 → exec (.sprite m) s = noop ∧ exec (.drawcomp c) s = noop ∧ exec (.drawrot .unmasked) s = noop ∧
      exec (.drawrot .selfmask) s = noop) ∧
    (resReadable s.params b 2 → s.res.read b = 0 ∨ s.res.read ((b + 1) % 65536) = 0 →
      (m = .masked → addr (s.arg 4) ≠ 0) →
      exec (.sprite m) s = noop ∧ exec (.drawrot .unmasked) s = noop ∧ exec (.drawrot .selfmask) s = noop) ∧
    (u8 (s.arg 4) = 0 → exec (.drawchar c) s = noop)

/-- A blit wholly off the screen ends in DONE with no FB change: BITMAP without reading RES at all, SPRITE and DRAWCOMP
after the header (44_sprite_aligned.md R180; 45_sprite_unaligned.md R210; 46_rle_decoder.md R240). -/
def Obligations.OffscreenBlits : Prop :=
  ∀ (c : Colour) (ink : Bool) (m : DrawMode) (s : State), inkOf c = some ink →
    let noop : StepResult := .next { s with err := 0, lastOutcome := some .done }
    let x := s16 (s.arg 0)
    let y := s16 (s.arg 1)
    let b := addr (s.arg 2)
    let b0 := (s.res.read b).toNat
    let b1 := (s.res.read ((b + 1) % 65536)).toNat
    (¬ onScreen s.params x y (u8 (s.arg 3)) (u8 (s.arg 4)) →
      exec (.bitmap c) s = noop ∧ exec (.bitmap .invert) s = noop) ∧
    (resReadable s.params b 2 → (m = .masked → addr (s.arg 4) ≠ 0) → ¬ onScreen s.params x y b0 b1 →
      exec (.sprite m) s = noop) ∧
    (resReadable s.params b 2 → ¬ onScreen s.params x y (b0 + 1) (b1 + 1) → exec (.drawcomp c) s = noop)

/-! ## Bitmaps and sprites -/

/-- BITMAP matches the pixel-by-pixel reference: every destination pixel on the screen becomes the colour's one-bit
combine of it and its source pixel, padding rows included, and no other bit changes, at every y mod 8. Only the visible
cells need be readable: the others are never read (44_sprite_aligned.md R180, R181, R182, R184). -/
def Obligations.BitmapPixels : Prop :=
  ∀ (c : Colour) (s : State),
    let x := s16 (s.arg 0)
    let y := s16 (s.arg 1)
    let b := addr (s.arg 2)
    let w := u8 (s.arg 3)
    let h := u8 (s.arg 4)
    s.params.wf = true → b ≠ 0 → onScreen s.params x y w h → w ≠ 0 → h ≠ 0 →
    cellsReadable s.params x y w h (fun n => b + n) →
    ∃ t : State, exec (.bitmap c) s = .next t ∧ DoneFb s t ∧
      MapsPixels s t (pixelBlit x y w h fun d i r => bitmapPixel c d (resBit s.res (b + cellIndex w i r) r))

/-- BITMAP with INVERT twice with the same operands restores every FB byte (44_sprite_aligned.md R182). -/
def Obligations.InvertTwice : Prop :=
  ∀ s t : State, exec (.bitmap .invert) s = .next t → t.lastOutcome = some .done →
    ∃ u : State, exec (.bitmap .invert) t = .next u ∧ DoneFb s u ∧ ∀ k, u.fb.read k = s.fb.read k

/-- SPRITE in every mode matches the pixel-by-pixel reference of its mode's algebra, padding rows included, and no other
bit changes. Only the visible cells need be readable (45_sprite_unaligned.md R200, R201, R204 to R210;
44_sprite_aligned.md R181, R184). -/
def Obligations.SpritePixels : Prop :=
  ∀ (m : DrawMode) (s : State),
    let x := s16 (s.arg 0)
    let y := s16 (s.arg 1)
    let b := addr (s.arg 2)
    let f := u8 (s.arg 3)
    let mask := addr (s.arg 4)
    let mf := u8 (s.arg 5)
    let w := (s.res.read b).toNat
    let h := (s.res.read ((b + 1) % 65536)).toNat
    let md := if m = .autodetect then (if mask = 0 then .unmasked else .masked) else m
    s.params.wf = true → b ≠ 0 → (m = .masked → mask ≠ 0) → resReadable s.params b 2 → w ≠ 0 → h ≠ 0 →
    onScreen s.params x y w h → spriteReadable s.params md x y b f mask mf w h →
    ∃ t : State, exec (.sprite m) s = .next t ∧ DoneFb s t ∧
      MapsPixels s t (pixelBlit x y w h fun d i r => spritePixel s.res md b f mask mf w h d i r)

/-- AUTODETECT is MASKED where a mask address is supplied and UNMASKED where it is 0 (45_sprite_unaligned.md R202). -/
def Obligations.SpriteAutodetect : Prop :=
  ∀ s : State, Agree (exec (.sprite .autodetect) s)
    (exec (.sprite (if addr (s.arg 4) ≠ 0 then .masked else .unmasked)) s) id

/-- SPRITE ends in ERR(NULL_MASK) exactly for MASKED requested with mask address 0 and a bitmap that is not null, and
then only STATUS.ERR changes (45_sprite_unaligned.md R203; 60_exceptions.md R311, R312, R313). -/
def Obligations.SpriteNullMask : Prop :=
  ∀ (m : DrawMode) (s : State),
    (m = .masked → addr (s.arg 4) = 0 → addr (s.arg 2) ≠ 0 →
      exec (.sprite m) s = .next { s with err := 4, lastOutcome := some (.err .nullMask) }) ∧
    (∀ t : State, exec (.sprite m) s = .next t → t.lastOutcome = some (.err .nullMask) →
      m = .masked ∧ addr (s.arg 4) = 0 ∧ addr (s.arg 2) ≠ 0)

/-- SELFMASK never clears a bit and ERASEMASK never sets one (45_sprite_unaligned.md R206, R207, R210). -/
def Obligations.SpriteOneWay : Prop :=
  ∀ s t : State, t.lastOutcome = some .done →
    (exec (.sprite .selfmask) s = .next t → ∀ k j, s.fbBit k j = true → t.fbBit k j = true) ∧
    (exec (.sprite .erasemask) s = .next t → ∀ k j, t.fbBit k j = true → s.fbBit k j = true)

/-- A resource read at or above RES_SIZE ends the command in UNDEFINED(RES_RANGE): either byte of a header (SPRITE,
DRAWCOMP, DRAWROT); a visible cell of BITMAP; the image or mask byte of a visible cell of SPRITE; a byte of DRAWROT's frame;
a stream byte of DRAWCOMP, wherever in the stream the decoder comes to it (20_memory.md R57; 44_sprite_aligned.md R181;
60_exceptions.md R318, R319). That the machine goes on, with free values, is the model's choice (log entry 3). -/
def Obligations.ResourceRange : Prop :=
  ∀ (c : Colour) (ink : Bool) (m : DrawMode) (s : State), inkOf c = some ink →
    let x := s16 (s.arg 0)
    let y := s16 (s.arg 1)
    let b := addr (s.arg 2)
    let f := u8 (s.arg 3)
    let mask := addr (s.arg 4)
    let mf := u8 (s.arg 5)
    let w := (s.res.read b).toNat
    let h := (s.res.read ((b + 1) % 65536)).toNat
    let md := if m = .autodetect then (if mask = 0 then .unmasked else .masked) else m
    let fails := fun i => ∃ t : State, exec i s = .next t ∧ UndefinedKeeps .resRange s t
    s.params.wf = true → b ≠ 0 →
    (¬ resReadable s.params b 2 →
      ((m = .masked → mask ≠ 0) → fails (.sprite m)) ∧ fails (.drawcomp c) ∧ fails (.drawrot .unmasked) ∧
      fails (.drawrot .selfmask)) ∧
    (u8 (s.arg 3) ≠ 0 → u8 (s.arg 4) ≠ 0 → onScreen s.params x y (u8 (s.arg 3)) (u8 (s.arg 4)) →
      ¬ cellsReadable s.params x y (u8 (s.arg 3)) (u8 (s.arg 4)) (fun n => b + n) →
      fails (.bitmap c) ∧ fails (.bitmap .invert)) ∧
    (resReadable s.params b 2 → w ≠ 0 → h ≠ 0 →
      ((m = .masked → mask ≠ 0) → onScreen s.params x y w h → ¬ spriteReadable s.params md x y b f mask mf w h →
        fails (.sprite m)) ∧
      (¬ resReadable s.params (b + 2 + f * cellCount w h) (cellCount w h) →
        fails (.drawrot .unmasked) ∧ fails (.drawrot .selfmask))) ∧
    ∀ cw ch code, 1 ≤ cw → cw ≤ 256 → 1 ≤ ch → ch ≤ 256 → onScreen s.params x y cw ch → streamWants cw ch code →
      streamHolds s.params s.res b code → s.params.resSize ≤ (b + code.length / 8) % 65536 → fails (.drawcomp c)

/-! ## Compressed bitmaps -/

/-- DRAWCOMP decodes every well-formed stream: where RES holds the bits of a header, a starting colour and spans that fill
the bitmap, it draws the spans' pixels in the scan order, its colour's one-bit combine at each pixel, and changes no
other bit (46_rle_decoder.md R230 to R240). -/
def Obligations.DrawcompDecodes : Prop :=
  ∀ (c : Colour) (ink : Bool) (s : State) (w h : Nat) (start : Bool) (spans : List (Nat × Nat)), inkOf c = some ink →
    let x := s16 (s.arg 0)
    let y := s16 (s.arg 1)
    let st := addr (s.arg 2)
    s.params.wf = true → st ≠ 0 → 1 ≤ w → w ≤ 256 → 1 ≤ h → h ≤ 256 → onScreen s.params x y w h →
    (∀ q ∈ spans, spanFits q) → (spans.map (fun q => q.2)).sum = 8 * cellCount w h →
    streamHolds s.params s.res st (streamCode w h start spans) →
    ∃ t : State, exec (.drawcomp c) s = .next t ∧ DoneFb s t ∧
      MapsPixels s t (pixelBlit x y w h fun d i r =>
        bitmapPixel c d (decodedPixel s.params.scanOrder w h (spanPixels start spans) i r))

/-- A malformed stream ends DRAWCOMP in UNDEFINED(RLE_OVERRUN): after any well-formed spans that do not yet fill the
bitmap, sixteen zeros of a unary code, or a span that goes past the last pixel (46_rle_decoder.md R234, R239;
60_exceptions.md R318, R319). That the machine goes on, with free values, is the model's choice (log entry 3). -/
def Obligations.DrawcompMalformed : Prop :=
  ∀ (c : Colour) (ink : Bool) (s : State) (w h : Nat) (start : Bool) (spans : List (Nat × Nat)), inkOf c = some ink →
    let st := addr (s.arg 2)
    let drawn := (spans.map fun q => q.2).sum
    st ≠ 0 → 1 ≤ w → w ≤ 256 → 1 ≤ h → h ≤ 256 → onScreen s.params (s16 (s.arg 0)) (s16 (s.arg 1)) w h →
    (∀ q ∈ spans, spanFits q) → drawn < 8 * cellCount w h →
    (streamHolds s.params s.res st (streamCode w h start spans ++ List.replicate 16 false) ∨
      ∃ z len, spanFits (z, len) ∧ 8 * cellCount w h < drawn + len ∧
        streamHolds s.params s.res st (streamCode w h start (spans ++ [(z, len)]))) →
    ∃ t : State, exec (.drawcomp c) s = .next t ∧ UndefinedKeeps .rleOverrun s t

/-! ## Rotation -/

/-- ROTVEC puts the cosine and the sine of the angle, quadrant by quadrant from the quarter-wave table, into RESULT0 and
RESULT1, and changes nothing else but STATUS.ERR (47_affine.md R260, R262, R263, R264). -/
def Obligations.RotvecValues : Prop :=
  ∀ s : State, exec .rotvec s = .next { s with
    result0 := toWord (sineOf s.params ((s16 (s.arg 0) + 90) % 360).toNat)
    result1 := toWord (sineOf s.params (s16 (s.arg 0) % 360).toNat)
    err := 0
    lastOutcome := some .done }

/-- RotationVector(0) is (127, 0), RotationVector(90) is (0, 127), and angles 360 apart give the same fractions, at every
legal parameter (47_affine.md R265). -/
def Obligations.RotationSymmetry : Prop :=
  ∀ s : State, s.params.wf = true →
    (s16 (s.arg 0) = 0 → ∃ t, exec .rotvec s = .next t ∧ t.result0 = 127 ∧ t.result1 = 0) ∧
    (s16 (s.arg 0) = 90 → ∃ t, exec .rotvec s = .next t ∧ t.result0 = 0 ∧ t.result1 = 127) ∧
    (∀ A : Vector Word 8, s16 A[0] = s16 (s.arg 0) + 360 →
      ∃ t u, exec .rotvec s = .next t ∧ exec .rotvec { s with args := A } = .next u ∧
        u.result0 = t.result0 ∧ u.result1 = t.result1)

/-- DRAWROT in closed form: source pixel (i, j) lands at the anchored, rotated, scaled position, taken mod 256. In
OVERWRITE a pixel that some source pixels land on holds the value of the last of them in column order, in SELFMASK a
pixel is set by any 1 that lands on it; no other bit changes, in both CONFIG modes (47_affine.md R266 to R272). -/
def Obligations.DrawrotLands : Prop :=
  ∀ s : State,
    let b := addr (s.arg 2)
    let w := (s.res.read b).toNat
    let h := (s.res.read ((b + 1) % 65536)).toNat
    let src := b + 2 + u8 (s.arg 3) * cellCount w h
    let lands := fun (i j : Nat) (a d : Int) => i < w ∧ j < h ∧
      landsX s.params (s16 (s.arg 0)) w h (s16 (s.arg 4)) (u8 (s.arg 5)) i j = a ∧
      landsY s.params (s16 (s.arg 1)) w h (s16 (s.arg 4)) (u8 (s.arg 5)) i j = d
    let bit := fun (i j : Nat) => resBit s.res (src + cellIndex w i j) j
    s.params.wf = true → b ≠ 0 → resReadable s.params b 2 → w ≠ 0 → h ≠ 0 →
    resReadable s.params src (cellCount w h) →
    (∃ t : State, exec (.drawrot .unmasked) s = .next t ∧ DoneFb s t ∧
      (∀ k, s.params.fbBytes ≤ k → t.fb.read k = s.fb.read k) ∧
      ∀ a d, inBuffer s.params a d = true →
        ((¬ ∃ i j, lands i j a d) → pixelRead s.params t.fb a d = s.pixel a d) ∧
        ∀ i j, lands i j a d → (∀ i' j', lands i' j' a d → i' < i ∨ (i' = i ∧ j' ≤ j)) →
          pixelRead s.params t.fb a d = bit i j) ∧
    (∃ t : State, exec (.drawrot .selfmask) s = .next t ∧ DoneFb s t ∧
      (∀ k, s.params.fbBytes ≤ k → t.fb.read k = s.fb.read k) ∧
      ∀ a d, inBuffer s.params a d = true →
        (pixelRead s.params t.fb a d = true ↔ s.pixel a d = true ∨ ∃ i j, lands i j a d ∧ bit i j = true))

/-- DRAWROT at angle 0 and scale 100, without a wrap, is the blit of the frame's h rows: every pixel of the box replaced
in OVERWRITE, or-ed in SELFMASK (47_affine.md R272). -/
def Obligations.DrawrotIdentity : Prop :=
  ∀ s : State,
    let x := s16 (s.arg 0)
    let y := s16 (s.arg 1)
    let b := addr (s.arg 2)
    let w := (s.res.read b).toNat
    let h := (s.res.read ((b + 1) % 65536)).toNat
    let src := b + 2 + u8 (s.arg 3) * cellCount w h
    let draw := fun (op : Bool → Bool → Bool) (a d : Int) (old : Bool) =>
      if x ≤ a ∧ a < x + w ∧ y ≤ d ∧ d < y + h then
        op old (resBit s.res (src + cellIndex w (a - x).toNat (d - y).toNat) (d - y).toNat)
      else old
    s.params.wf = true → b ≠ 0 → resReadable s.params b 2 → w ≠ 0 → h ≠ 0 →
    resReadable s.params src (cellCount w h) → s16 (s.arg 4) % 360 = 0 → u8 (s.arg 5) = 100 →
    -128 ≤ x → x + w - 1 ≤ 255 → -128 ≤ y → y + h - 1 ≤ 255 →
    (∃ t : State, exec (.drawrot .unmasked) s = .next t ∧ DoneFb s t ∧ MapsPixels s t (draw fun _ new => new)) ∧
    (∃ t : State, exec (.drawrot .selfmask) s = .next t ∧ DoneFb s t ∧ MapsPixels s t (draw fun old new => old || new))

/-! ## Text -/

/-- DRAWCHAR draws its glyph, each glyph pixel a size × size block, and changes no other bit (48_glyph.md R290, R291,
R292). -/
def Obligations.DrawcharPaints : Prop :=
  ∀ (c : Colour) (fg : Bool) (s : State), inkOf c = some fg →
    let x := s16 (s.arg 0)
    let y := s16 (s.arg 1)
    let size := u8 (s.arg 4)
    s.params.wf = true → size ≠ 0 →
    glyphClean s x y (u8 (s.arg 2)) fg ((s.arg 3).getLsbD 0) size →
    ∃ t : State, exec (.drawchar c) s = .next t ∧ DoneFb s t ∧
      MapsPixels s t (glyphPixel s.params s.font x y (u8 (s.arg 2)) fg ((s.arg 3).getLsbD 0) size)

/-- WRITECHAR of a code other than line feed and carriage return draws its glyph at the cursor in the text colours, then
advances the cursor by 6s, or to the start of the next text line where wrap is on and the advanced cursor is past
WIDTH - 6s (48_glyph.md R293, R294). -/
def Obligations.WritecharGlyph : Prop :=
  ∀ s : State,
    let cx := s16 s.cursorX
    let cy := s16 s.cursorY
    let size := u8 s.textSize
    s.Legal → u8 (s.arg 0) ≠ 0x0A → u8 (s.arg 0) ≠ 0x0D →
    glyphClean s cx cy (u8 (s.arg 0)) (s.textColor.getLsbD 0) (s.textBg.getLsbD 0) size →
    ∃ t : State, exec .writechar s = .next t ∧
      MapsPixels s t
        (glyphPixel s.params s.font cx cy (u8 (s.arg 0)) (s.textColor.getLsbD 0) (s.textBg.getLsbD 0) size) ∧
      if s.textWrap = 1 ∧ cx + 6 * size > s.params.width - 6 * (size : Int) then
        t = { s with fb := t.fb, cursorX := 0, cursorY := toWord (cy + 8 * size), err := 0, lastOutcome := some .done }
      else t = { s with fb := t.fb, cursorX := toWord (cx + 6 * size), err := 0, lastOutcome := some .done }

/-- WRITECHAR of a line feed moves the cursor to the start of the next text line and draws nothing; of a carriage return
it changes nothing but STATUS.ERR (48_glyph.md R293, R294). -/
def Obligations.WritecharControl : Prop :=
  ∀ s : State,
    (u8 (s.arg 0) = 0x0A → exec .writechar s = .next { s with
      cursorX := 0
      cursorY := toWord (s16 s.cursorY + 8 * u8 s.textSize)
      err := 0
      lastOutcome := some .done }) ∧
    (u8 (s.arg 0) = 0x0D → exec .writechar s = .next { s with err := 0, lastOutcome := some .done })

/-! ## The host port -/

/-- An access the port does not admit (8 bits at a register offset, 16 bits at an odd offset) sets BUSERR; a write is
dropped, a read answers 0, and nothing else changes (20_memory.md R52). -/
def Obligations.AccessNotAdmitted : Prop :=
  ∀ (s : State) (off v : Word) (b : Byte) (rest : List Input),
    (off.toNat % 2 = 1 →
      (s.pending = .write16 off v :: rest → step s = .next { s with pending := rest, busErr := true }) ∧
      (s.pending = .read16 off :: rest →
        step s = .next { s with pending := rest, busErr := true, responses := .word 0 :: s.responses })) ∧
    (off.toNat < 0x400 →
      (s.pending = .write8 off b :: rest → step s = .next { s with pending := rest, busErr := true }) ∧
      (s.pending = .read8 off :: rest →
        step s = .next { s with pending := rest, busErr := true, responses := .byte 0 :: s.responses }))

/-- The frame-buffer window: host offset 0x400 + k is FB byte k, 8 bits at a time or 16 at an even offset, low byte
first; at the last byte of an odd FB_BYTES the high half reads 0 and is not written (20_memory.md R51, R53). -/
def Obligations.WindowAccess : Prop :=
  ∀ (s : State) (k : Nat) (off v : Word) (b : Byte) (rest : List Input), off.toNat = 0x400 + k →
    k < s.params.fbBytes →
    (s.pending = .read8 off :: rest →
      step s = .next { s with pending := rest, responses := .byte (s.fb.read k) :: s.responses }) ∧
    (s.pending = .write8 off b :: rest → ∃ t : State, step s = .next t ∧ t = { s with pending := rest, fb := t.fb } ∧
      ∀ n, t.fb.read n = if n = k then b else s.fb.read n) ∧
    (s.pending = .read16 off :: rest → k % 2 = 0 → ∃ r : Word,
      step s = .next { s with pending := rest, responses := .word r :: s.responses } ∧
      r.toNat = (s.fb.read k).toNat + 256 * (if k + 1 < s.params.fbBytes then (s.fb.read (k + 1)).toNat else 0)) ∧
    (s.pending = .write16 off v :: rest → k % 2 = 0 → ∃ t : State, step s = .next t ∧
      t = { s with pending := rest, fb := t.fb } ∧
      ∀ n, (t.fb.read n).toNat =
        if n = k then v.toNat % 256
        else if n = k + 1 ∧ k + 1 < s.params.fbBytes then v.toNat / 256
        else (s.fb.read n).toNat)

/-- Unmapped offsets, past the window: an admitted read answers 0 and a write is ignored. Reserved register offsets: a
16-bit read answers 0x0000 and a write is ignored. Neither sets BUSERR (20_memory.md R55; 10_state.md R39). -/
def Obligations.UnmappedAndReservedOffsets : Prop :=
  ∀ (s : State) (off v : Word) (b : Byte) (rest : List Input),
    (0x400 + s.params.fbBytes ≤ off.toNat →
      (s.pending = .read8 off :: rest →
        step s = .next { s with pending := rest, responses := .byte 0 :: s.responses }) ∧
      (s.pending = .write8 off b :: rest → step s = .next { s with pending := rest })) ∧
    (off.toNat % 2 = 0 →
      (0x400 + s.params.fbBytes ≤ off.toNat ∨ off = 0x00C ∨ off = 0x00E ∨
        (0x02C ≤ off.toNat ∧ off.toNat ≤ 0x3FE)) →
      (s.pending = .read16 off :: rest →
        step s = .next { s with pending := rest, responses := .word 0x0000 :: s.responses }) ∧
      (s.pending = .write16 off v :: rest → step s = .next { s with pending := rest }))

/-- A 16-bit host read of a register answers its value and changes nothing; which part of the state each register reads
as (10_state.md R26 to R38; 20_memory.md R63). -/
def Obligations.RegisterReads : Prop :=
  ∀ (s : State) (r : Reg) (rest : List Input), s.pending = .read16 r.offset :: rest →
    step s = .next { s with pending := rest, responses := .word (readReg s r) :: s.responses } ∧
    (readReg s r).toNat = match r with
      | .id => 0xFB01
      | .config => s.config.toNat
      | .status => s.err.toNat + 16 * s.busErr.toNat
      | .cmd => s.cmd.toNat
      | .result0 => s.result0.toNat
      | .result1 => s.result1.toNat
      | .arg i => s.args[i].toNat
      | .cursorX => s.cursorX.toNat
      | .cursorY => s.cursorY.toNat
      | .textSize => s.textSize.toNat
      | .textColor => s.textColor.toNat
      | .textBg => s.textBg.toNat
      | .textWrap => s.textWrap.toNat

/-- A 16-bit host write of a register other than CMD: what it reads as afterwards, bit by bit as its rule says (ID,
RESULT0 and RESULT1 ignore it; CONFIG, TEXT_COLOR, TEXT_BG and TEXT_WRAP keep bit 0; STATUS clears BUSERR by a 1 in bit
4; TEXT_SIZE keeps the low byte, 1 for 0); every other register, FB, RES and FONT are unchanged (10_state.md R23, R26 to
R38). -/
def Obligations.RegisterWrites : Prop :=
  ∀ (s : State) (r : Reg) (v : Word) (rest : List Input), s.pending = .write16 r.offset v :: rest → r ≠ .cmd →
    ∃ t : State, step s = .next t ∧
      (∀ r', r' ≠ r → readReg t r' = readReg s r') ∧
      t = { s with
            pending := rest
            args := t.args
            config := t.config
            busErr := t.busErr
            cursorX := t.cursorX
            cursorY := t.cursorY
            textSize := t.textSize
            textColor := t.textColor
            textBg := t.textBg
            textWrap := t.textWrap } ∧
      (readReg t r).toNat = match r with
        | .id => 0xFB01
        | .result0 => s.result0.toNat
        | .result1 => s.result1.toNat
        | .config | .textColor | .textBg | .textWrap => v.toNat % 2
        | .status => s.err.toNat + 16 * (s.busErr && v.toNat / 16 % 2 == 0).toNat
        | .textSize => if v.toNat % 256 = 0 then 1 else v.toNat % 256
        | .arg _ | .cursorX | .cursorY | .cmd => v.toNat

/-- A command line of the assembler: its host writes, run in order, load the operands mod 2^16 into ARG0, ARG1, … and then
run the command; the other operand registers are not written (30_encoding.md R89). -/
def Obligations.CommandLineRuns : Prop :=
  ∀ (s : State) (i : Instr) (operands : List Int) (rest : List Input), i.WellFormed → operands.length ≤ 8 →
    s.pending = commandLine i operands ++ rest →
    ∃ A : Vector Word 8, (∀ k : Fin 8, A[k] = if h : k.val < operands.length then toWord operands[k] else s.args[k]) ∧
      Sys2Proof.core.run (operands.length + 1) s = exec i { s with pending := rest, args := A, cmd := encode i }

/-- The display collaborator's commit: the host reads that hand FB over answer FB's bytes in FB order and change nothing
(20_memory.md R56). -/
def Obligations.CommitDeliversFb : Prop :=
  ∀ (s : State) (rest : List Input), s.params.wf = true → s.pending = commitScript s.params ++ rest →
    Sys2Proof.core.run s.params.fbBytes s = .next { s with
      pending := rest
      responses := ((List.range s.params.fbBytes).map fun k => Response.byte (s.fb.read k)).reverse ++ s.responses }

/-! ## Reset and the platform -/

/-- The state after reset: every register and every FB byte as 70_reset_and_hazards.md R341 and R342 list them. -/
def Obligations.ResetValues : Prop :=
  (∀ k, State.reset.fb.read k = 0x00) ∧ readReg State.reset .id = 0xFB01 ∧ readReg State.reset .config = 0x0001 ∧
  readReg State.reset .status = 0x0000 ∧ readReg State.reset .cmd = 0x0000 ∧ readReg State.reset .result0 = 0x0000 ∧
  readReg State.reset .result1 = 0x0000 ∧ (∀ i, readReg State.reset (.arg i) = 0x0000) ∧
  readReg State.reset .cursorX = 0x0000 ∧ readReg State.reset .cursorY = 0x0000 ∧
  readReg State.reset .textSize = 0x0001 ∧ readReg State.reset .textColor = 0x0001 ∧
  readReg State.reset .textBg = 0x0000 ∧ readReg State.reset .textWrap = 0x0000

/-- A platform reset, between commands or in the middle of one, leaves every register and FB at its reset value and RES
and FONT as they were; no effect of an abandoned command survives (70_reset_and_hazards.md R340, R341, R342, R343). That
the inputs still waiting are kept is the model's choice (log entry 10). -/
def Obligations.PlatformReset : Prop :=
  ∀ (s : State) (v : Word) (rest : List Input),
    s.pending = .platformReset :: rest ∨ s.pending = .resetDuring v :: rest →
    ∃ t : State, step s = .next t ∧ (∀ r, readReg t r = readReg State.reset r) ∧ (∀ k, t.fb.read k = 0x00) ∧
      t.res = s.res ∧ t.font = s.font ∧ t.params = s.params ∧ t.pending = rest

/-- A command while which an outside agent changes RES ends in UNDEFINED(RES_CHANGED); the change is made, CMD holds the
word, and everything UNDEFINED keeps is kept (20_memory.md R68; 60_exceptions.md R318, R319). That the machine goes on,
with free values, is the model's choice (log entry 3); what counts as a change, log entry 9. -/
def Obligations.ResourceChanged : Prop :=
  ∀ (s : State) (v a : Word) (b : Byte) (i : Instr) (rest : List Input),
    s.pending = .writeCmdRacingRes v a b :: rest → decode v = .ok i → a.toNat < s.params.resSize →
    s.res.read a.toNat ≠ b →
    ∃ t : State, step s = .next t ∧
      UndefinedKeeps .resChanged { s with pending := rest, cmd := v, res := s.res.write a.toNat b } t

/-- RES and FONT are read-only to the block and its host: only the platform's own inputs change them, no step changes the
parameters, and a platform load between commands stores its one byte, of RES at its address, of FONT at column `i` of
glyph `c`, and changes nothing else (10_state.md R40, R41; 20_memory.md R68; 70_reset_and_hazards.md R344, R347). That FONT
may be loaded between any two inputs is the model's choice (log entry 19). -/
def Obligations.ResourcesReadOnly : Prop :=
  ∀ s t : State, step s = .next t → t.params = s.params ∧
    ((∀ a b rest, s.pending ≠ .loadRes a b :: rest) → (∀ v a b rest, s.pending ≠ .writeCmdRacingRes v a b :: rest) →
      t.res = s.res) ∧
    ((∀ c i b rest, s.pending ≠ .loadFont c i b :: rest) → t.font = s.font) ∧
    (∀ a b rest, s.pending = .loadRes a b :: rest → a.toNat < s.params.resSize →
      t = { s with pending := rest, res := t.res } ∧ ∀ n, t.res.read n = if n = a.toNat then b else s.res.read n) ∧
    ∀ c i b rest, s.pending = .loadFont c i b :: rest →
      t = { s with pending := rest, font := t.font } ∧
      ∀ g k, k < 5 → fontRead t.font g k = if g = c.toNat ∧ k = i.val then b else fontRead s.font g k

/-- The state after reset is legal: legal parameters, FB, RES and FONT in canonical form inside their spaces, reserved
register bits 0, TEXT_SIZE in 1..255 (70_reset_and_hazards.md R341; 10_state.md R28, R35 to R38). RES_SIZE and the
contents of RES and FONT at reset are the model's choices (log entries 7 and 8). -/
def Obligations.ResetLegal : Prop := State.reset.Legal

/-- Every step keeps a legal state legal: the parameters in their ranges, FB, RES and FONT in canonical form and listing
no byte outside their spaces, the reserved bits of CONFIG, TEXT_SIZE, TEXT_COLOR, TEXT_BG and TEXT_WRAP 0, TEXT_SIZE in
1..255 (20_memory.md R50; 10_state.md R28, R35 to R38; 00_scope.md R7 to R11). -/
def Obligations.StepKeepsLegal : Prop :=
  ∀ s t : State, s.Legal → step s = .next t → t.Legal
end

