-- ==== Sys2Proof/Laws/Memory.lean ====
section
/-! SUPPORT. What reading, writing and tabulating a byte memory do, and that they keep its canonical form. -/

namespace Sys2Proof.Machine

@[simp] theorem Memory.read_nil (k : Nat) : Memory.read [] k = Memory.unlisted := rfl

theorem Memory.read_cons (a : Nat) (b : Byte) (t : Memory) (k : Nat) :
    Memory.read ((a, b) :: t) k = if a = k then b else Memory.read t k := rfl

/-! ## Erasing -/

theorem Memory.read_erase (m : Memory) (k j : Nat) :
    (m.erase k).read j = if j = k then Memory.unlisted else m.read j := by
  induction m with
  | nil => simp [Memory.erase]
  | cons c t ih =>
    obtain ⟨a, b⟩ := c
    simp only [Memory.erase, List.filter_cons] at ih ⊢
    by_cases hak : a = k
    · subst hak
      by_cases hj : j = a
      · subst hj; simpa using ih
      · have hne : ¬ a = j := fun h => hj h.symm
        simpa [Memory.read_cons, hj, hne] using ih
    · have hb : (a != k) = true := by simpa using hak
      simp only [hb, if_true, Memory.read_cons, ih]
      by_cases hj : j = k
      · subst hj; simp [hak]
      · simp [hj]

theorem Memory.mem_erase (m : Memory) (k : Nat) (c : Host.Cell) (h : c ∈ m.erase k) : c ∈ m ∧ c.1 ≠ k := by
  simpa [Memory.erase] using h

/-! ## Inserting -/

theorem Memory.read_insert (m : Memory) (k : Nat) (v : Byte) (h : ∀ c ∈ m, c.1 ≠ k) (j : Nat) :
    (Memory.insert m k v).read j = if j = k then v else m.read j := by
  induction m with
  | nil => simp [Memory.insert, Memory.read_cons, eq_comm]
  | cons c t ih =>
    obtain ⟨a, b⟩ := c
    have ha : a ≠ k := h (a, b) (by simp)
    have ih := ih fun c hc => h c (by simp [hc])
    unfold Memory.insert
    by_cases hk : k < a
    · simp [hk, Memory.read_cons, eq_comm]
    · simp only [hk, if_false, Memory.read_cons, ih]
      by_cases hj : j = k
      · subst hj; simp [ha]
      · simp [hj]

theorem Memory.mem_insert (m : Memory) (k : Nat) (v : Byte) (c : Host.Cell) :
    c ∈ Memory.insert m k v ↔ c = (k, v) ∨ c ∈ m := by
  induction m with
  | nil => simp [Memory.insert]
  | cons d t ih =>
    obtain ⟨a, b⟩ := d
    unfold Memory.insert
    by_cases hk : k < a
    · simp [hk]
    · simp only [hk, if_false, List.mem_cons, ih]; tauto

/-! ## Writing -/

/-- Reading back: the byte just written, every other address as before. -/
theorem Memory.read_write (m : Memory) (k : Nat) (v : Byte) (j : Nat) :
    (m.write k v).read j = if j = k then v else m.read j := by
  unfold Memory.write
  by_cases hv : v = Memory.unlisted
  · simp [hv, Memory.read_erase]
  · rw [if_neg hv, Memory.read_insert _ _ _ (fun c hc => (Memory.mem_erase m k c hc).2), Memory.read_erase]
    by_cases hj : j = k <;> simp [hj]

theorem Memory.read_write_self (m : Memory) (k : Nat) (v : Byte) : (m.write k v).read k = v := by
  simp [Memory.read_write]

theorem Memory.read_write_other (m : Memory) (k : Nat) (v : Byte) (j : Nat) (h : j ≠ k) :
    (m.write k v).read j = m.read j := by
  simp [Memory.read_write, h]

/-! ## The canonical form -/

theorem Memory.wf_cons (a : Nat) (b : Byte) (t : Memory) :
    Memory.wf ((a, b) :: t) = true ↔ b ≠ Memory.unlisted ∧ (∀ c ∈ t, a < c.1) ∧ Memory.wf t = true := by
  simp [Memory.wf, and_assoc]

theorem Memory.wf_erase (m : Memory) (k : Nat) (h : m.wf = true) : (m.erase k).wf = true := by
  induction m with
  | nil => rfl
  | cons c t ih =>
    obtain ⟨a, b⟩ := c
    obtain ⟨hb, hlt, ht⟩ := (Memory.wf_cons a b t).1 h
    simp only [Memory.erase, List.filter_cons] at ih ⊢
    split
    · exact (Memory.wf_cons _ _ _).2 ⟨hb, fun c hc => hlt c (List.mem_of_mem_filter hc), ih ht⟩
    · exact ih ht

theorem Memory.wf_insert (m : Memory) (k : Nat) (v : Byte) (hv : v ≠ Memory.unlisted) (h : m.wf = true)
    (hk : ∀ c ∈ m, c.1 ≠ k) : (Memory.insert m k v).wf = true := by
  induction m with
  | nil => simpa [Memory.insert, Memory.wf] using hv
  | cons c t ih =>
    obtain ⟨a, b⟩ := c
    obtain ⟨hb, hlt, ht⟩ := (Memory.wf_cons a b t).1 h
    have ha : a ≠ k := hk (a, b) (by simp)
    unfold Memory.insert
    by_cases hka : k < a
    · simp only [hka, if_true]
      refine (Memory.wf_cons _ _ _).2 ⟨hv, ?_, h⟩
      intro c hc
      rcases List.mem_cons.1 hc with rfl | hc
      · exact hka
      · exact lt_trans hka (hlt c hc)
    · simp only [hka, if_false]
      refine (Memory.wf_cons _ _ _).2 ⟨hb, ?_, ih ht fun c hc => hk c (by simp [hc])⟩
      intro c hc
      rcases (Memory.mem_insert t k v c).1 hc with rfl | hc
      · simp only; omega
      · exact hlt c hc

/-- A write keeps the canonical form. -/
theorem Memory.wf_write (m : Memory) (k : Nat) (v : Byte) (h : m.wf = true) : (m.write k v).wf = true := by
  unfold Memory.write
  by_cases hv : v = Memory.unlisted
  · simpa [hv] using Memory.wf_erase m k h
  · simpa [hv] using Memory.wf_insert _ k v hv (Memory.wf_erase m k h) fun c hc => (Memory.mem_erase m k c hc).2

theorem Memory.below_iff (m : Memory) (n : Nat) : m.below n = true ↔ ∀ c ∈ m, c.1 < n := by
  simp [Memory.below]

/-- A write inside a space of `n` bytes lists no byte outside it. -/
theorem Memory.below_write (m : Memory) (k n : Nat) (v : Byte) (h : m.below n = true) (hk : k < n) :
    (m.write k v).below n = true := by
  rw [Memory.below_iff] at h ⊢
  intro c hc
  unfold Memory.write at hc
  split at hc
  · exact h c (Memory.mem_erase m k c hc).1
  · rcases (Memory.mem_insert _ _ _ _).1 hc with rfl | hc
    · exact hk
    · exact h c (Memory.mem_erase m k c hc).1

/-- A byte outside the space that a memory lists reads as an unlisted one. -/
theorem Memory.read_of_below (m : Memory) (n k : Nat) (h : m.below n = true) (hk : n ≤ k) :
    m.read k = Memory.unlisted := by
  rw [Memory.below_iff] at h
  induction m with
  | nil => rfl
  | cons c t ih =>
    obtain ⟨a, b⟩ := c
    have ha : a < n := h (a, b) (by simp)
    rw [Memory.read_cons, if_neg (by omega)]
    exact ih fun c hc => h c (by simp [hc])

/-! ## Tabulating -/

/-- An address that no entry lists reads as an unlisted one. -/
theorem Memory.read_of_all_ne (m : Memory) (k : Nat) (h : ∀ c ∈ m, c.1 ≠ k) : m.read k = Memory.unlisted := by
  induction m with
  | nil => rfl
  | cons c t ih =>
    obtain ⟨a, b⟩ := c
    rw [Memory.read_cons, if_neg (h (a, b) (by simp))]
    exact ih fun c hc => h c (by simp [hc])

/-- The entries of a tabulated stretch of addresses `lo`, `lo + 1`, …. -/
def Memory.tabulateFrom (f : Nat → Byte) (n lo : Nat) : Memory :=
  match n with
  | 0 => []
  | n + 1 =>
    if f lo = Memory.unlisted then Memory.tabulateFrom f n (lo + 1)
    else (lo, f lo) :: Memory.tabulateFrom f n (lo + 1)

theorem Memory.tabulate_eq (n : Nat) (f : Nat → Byte) : Memory.tabulate n f = Memory.tabulateFrom f n 0 := by
  have key : ∀ n lo, (List.range' lo n).filterMap
      (fun k => if f k = Memory.unlisted then none else some (k, f k)) = Memory.tabulateFrom f n lo := by
    intro n
    induction n with
    | zero => intro lo; rfl
    | succ n ih =>
      intro lo
      rw [List.range'_succ, List.filterMap_cons, Memory.tabulateFrom]
      split <;> rename_i h
      · split at h
        · rename_i h0; rw [if_pos h0, ih]
        · cases h
      · split at h
        · cases h
        · rename_i h0; cases h; rw [if_neg h0, ih]
  unfold Memory.tabulate
  rw [List.range_eq_range', key]

theorem Memory.mem_tabulateFrom (f : Nat → Byte) (n lo : Nat) (c : Host.Cell) (h : c ∈ Memory.tabulateFrom f n lo) :
    lo ≤ c.1 ∧ c.1 < lo + n := by
  induction n generalizing lo with
  | zero => cases h
  | succ n ih =>
    unfold Memory.tabulateFrom at h
    split at h
    · have := ih (lo + 1) h; omega
    · rcases List.mem_cons.1 h with rfl | h
      · simp
      · have := ih (lo + 1) h; omega

theorem Memory.wf_tabulateFrom (f : Nat → Byte) (n lo : Nat) : (Memory.tabulateFrom f n lo).wf = true := by
  induction n generalizing lo with
  | zero => rfl
  | succ n ih =>
    unfold Memory.tabulateFrom
    split
    · exact ih _
    · rename_i h
      refine (Memory.wf_cons _ _ _).2 ⟨h, ?_, ih _⟩
      intro c hc
      have := Memory.mem_tabulateFrom f n (lo + 1) c hc
      omega

theorem Memory.read_tabulateFrom (f : Nat → Byte) (n lo k : Nat) :
    (Memory.tabulateFrom f n lo).read k = if lo ≤ k ∧ k < lo + n then f k else Memory.unlisted := by
  induction n generalizing lo with
  | zero =>
    have h : ¬ (lo ≤ k ∧ k < lo + 0) := by omega
    rw [if_neg h]; rfl
  | succ n ih =>
    unfold Memory.tabulateFrom
    by_cases hk : k = lo
    · subst hk
      have h1 : ¬ (k + 1 ≤ k ∧ k < k + 1 + n) := by omega
      split
      · rename_i h; rw [ih, if_neg h1, if_pos (by omega), h]
      · rw [Memory.read_cons, if_pos rfl, if_pos (by omega)]
    · have h1 : (lo + 1 ≤ k ∧ k < lo + 1 + n) ↔ (lo ≤ k ∧ k < lo + (n + 1)) := by omega
      split
      · rw [ih]; simp only [h1]
      · rw [Memory.read_cons, if_neg (fun h => hk h.symm), ih]; simp only [h1]

/-- What a tabulated memory reads as. -/
theorem Memory.read_tabulate (n : Nat) (f : Nat → Byte) (k : Nat) :
    (Memory.tabulate n f).read k = if k < n then f k else Memory.unlisted := by
  rw [Memory.tabulate_eq, Memory.read_tabulateFrom]
  simp

/-- A tabulated memory is in canonical form. -/
theorem Memory.wf_tabulate (n : Nat) (f : Nat → Byte) : (Memory.tabulate n f).wf = true := by
  rw [Memory.tabulate_eq]; exact Memory.wf_tabulateFrom f n 0

/-- A tabulated memory of `n` bytes lists none outside them. -/
theorem Memory.below_tabulate (n : Nat) (f : Nat → Byte) : (Memory.tabulate n f).below n = true := by
  rw [Memory.tabulate_eq, Memory.below_iff]
  intro c hc
  have := Memory.mem_tabulateFrom f n 0 c hc
  omega

/-! ## Equal memories are equal data -/

/-- Two memories in canonical form that read alike at every address are equal. -/
theorem Memory.eq_of_read (m n : Memory) (hm : m.wf = true) (hn : n.wf = true) (h : ∀ k, m.read k = n.read k) :
    m = n := by
  induction m generalizing n with
  | nil =>
    cases n with
    | nil => rfl
    | cons d u =>
      obtain ⟨a, b⟩ := d
      have := h a
      rw [Memory.read_cons, if_pos rfl] at this
      exact absurd this.symm ((Memory.wf_cons a b u).1 hn).1
  | cons c t ih =>
    obtain ⟨a, b⟩ := c
    obtain ⟨hb, hlt, ht⟩ := (Memory.wf_cons a b t).1 hm
    cases n with
    | nil =>
      have := h a
      rw [Memory.read_cons, if_pos rfl] at this
      exact absurd this hb
    | cons d u =>
      obtain ⟨a', b'⟩ := d
      obtain ⟨hb', hlt', hu⟩ := (Memory.wf_cons a' b' u).1 hn
      have haa : a = a' := by
        by_contra hne
        rcases Nat.lt_or_gt_of_ne hne with hl | hl
        · have := h a
          rw [Memory.read_cons, if_pos rfl, Memory.read_of_all_ne] at this
          · exact hb this
          · intro c hc
            rcases List.mem_cons.1 hc with rfl | hc
            · simp only; omega
            · have := hlt' c hc; omega
        · have := h a'
          rw [Memory.read_of_all_ne, Memory.read_cons, if_pos rfl] at this
          · exact hb' this.symm
          · intro c hc
            rcases List.mem_cons.1 hc with rfl | hc
            · simp only; omega
            · have := hlt c hc; omega
      subst haa
      have hbb : b = b' := by simpa [Memory.read_cons] using h a
      subst hbb
      rw [ih u ht hu ?_]
      intro k
      by_cases hk : a = k
      · subst hk
        rw [Memory.read_of_all_ne t a (fun c hc => by have := hlt c hc; omega),
          Memory.read_of_all_ne u a (fun c hc => by have := hlt' c hc; omega)]
      · simpa [Memory.read_cons, hk] using h k

end Sys2Proof.Machine
end

