-- ==== Sys2Proof/Laws/State.lean ====
section
/-! SUPPORT. One lemma per field and per named update of the state, each true by rfl, so that no proof unfolds a record
update. -/

namespace Sys2Proof.Machine

/-! ## finishDone -/

@[simp] theorem finishDone_params (s : State) : (finishDone s).params = s.params := rfl
@[simp] theorem finishDone_fb (s : State) : (finishDone s).fb = s.fb := rfl
@[simp] theorem finishDone_res (s : State) : (finishDone s).res = s.res := rfl
@[simp] theorem finishDone_font (s : State) : (finishDone s).font = s.font := rfl
@[simp] theorem finishDone_args (s : State) : (finishDone s).args = s.args := rfl
@[simp] theorem finishDone_config (s : State) : (finishDone s).config = s.config := rfl
@[simp] theorem finishDone_err (s : State) : (finishDone s).err = 0 := rfl
@[simp] theorem finishDone_busErr (s : State) : (finishDone s).busErr = s.busErr := rfl
@[simp] theorem finishDone_cmd (s : State) : (finishDone s).cmd = s.cmd := rfl
@[simp] theorem finishDone_result0 (s : State) : (finishDone s).result0 = s.result0 := rfl
@[simp] theorem finishDone_result1 (s : State) : (finishDone s).result1 = s.result1 := rfl
@[simp] theorem finishDone_cursorX (s : State) : (finishDone s).cursorX = s.cursorX := rfl
@[simp] theorem finishDone_cursorY (s : State) : (finishDone s).cursorY = s.cursorY := rfl
@[simp] theorem finishDone_textSize (s : State) : (finishDone s).textSize = s.textSize := rfl
@[simp] theorem finishDone_textColor (s : State) : (finishDone s).textColor = s.textColor := rfl
@[simp] theorem finishDone_textBg (s : State) : (finishDone s).textBg = s.textBg := rfl
@[simp] theorem finishDone_textWrap (s : State) : (finishDone s).textWrap = s.textWrap := rfl
@[simp] theorem finishDone_pending (s : State) : (finishDone s).pending = s.pending := rfl
@[simp] theorem finishDone_responses (s : State) : (finishDone s).responses = s.responses := rfl
@[simp] theorem finishDone_lastOutcome (s : State) : (finishDone s).lastOutcome = some .done := rfl
@[simp] theorem finishDone_freeCtr (s : State) : (finishDone s).freeCtr = s.freeCtr := rfl

/-! ## raiseErr -/

@[simp] theorem raiseErr_params (e : ErrCode) (s : State) : (raiseErr e s).params = s.params := rfl
@[simp] theorem raiseErr_fb (e : ErrCode) (s : State) : (raiseErr e s).fb = s.fb := rfl
@[simp] theorem raiseErr_res (e : ErrCode) (s : State) : (raiseErr e s).res = s.res := rfl
@[simp] theorem raiseErr_font (e : ErrCode) (s : State) : (raiseErr e s).font = s.font := rfl
@[simp] theorem raiseErr_args (e : ErrCode) (s : State) : (raiseErr e s).args = s.args := rfl
@[simp] theorem raiseErr_config (e : ErrCode) (s : State) : (raiseErr e s).config = s.config := rfl
@[simp] theorem raiseErr_err (e : ErrCode) (s : State) : (raiseErr e s).err = e.code := rfl
@[simp] theorem raiseErr_busErr (e : ErrCode) (s : State) : (raiseErr e s).busErr = s.busErr := rfl
@[simp] theorem raiseErr_cmd (e : ErrCode) (s : State) : (raiseErr e s).cmd = s.cmd := rfl
@[simp] theorem raiseErr_result0 (e : ErrCode) (s : State) : (raiseErr e s).result0 = s.result0 := rfl
@[simp] theorem raiseErr_result1 (e : ErrCode) (s : State) : (raiseErr e s).result1 = s.result1 := rfl
@[simp] theorem raiseErr_cursorX (e : ErrCode) (s : State) : (raiseErr e s).cursorX = s.cursorX := rfl
@[simp] theorem raiseErr_cursorY (e : ErrCode) (s : State) : (raiseErr e s).cursorY = s.cursorY := rfl
@[simp] theorem raiseErr_textSize (e : ErrCode) (s : State) : (raiseErr e s).textSize = s.textSize := rfl
@[simp] theorem raiseErr_textColor (e : ErrCode) (s : State) : (raiseErr e s).textColor = s.textColor := rfl
@[simp] theorem raiseErr_textBg (e : ErrCode) (s : State) : (raiseErr e s).textBg = s.textBg := rfl
@[simp] theorem raiseErr_textWrap (e : ErrCode) (s : State) : (raiseErr e s).textWrap = s.textWrap := rfl
@[simp] theorem raiseErr_pending (e : ErrCode) (s : State) : (raiseErr e s).pending = s.pending := rfl
@[simp] theorem raiseErr_responses (e : ErrCode) (s : State) : (raiseErr e s).responses = s.responses := rfl
@[simp] theorem raiseErr_lastOutcome (e : ErrCode) (s : State) : (raiseErr e s).lastOutcome = some (.err e) := rfl
@[simp] theorem raiseErr_freeCtr (e : ErrCode) (s : State) : (raiseErr e s).freeCtr = s.freeCtr := rfl

/-! ## raiseUndefined -/

@[simp] theorem raiseUndefined_params (r : Undefined) (s : State) : (raiseUndefined r s).params = s.params := rfl
@[simp] theorem raiseUndefined_fb (r : Undefined) (s : State) : (raiseUndefined r s).fb = Memory.tabulate s.params.fbBytes (Config.freeByte s.freeCtr) := rfl
@[simp] theorem raiseUndefined_res (r : Undefined) (s : State) : (raiseUndefined r s).res = s.res := rfl
@[simp] theorem raiseUndefined_font (r : Undefined) (s : State) : (raiseUndefined r s).font = s.font := rfl
@[simp] theorem raiseUndefined_args (r : Undefined) (s : State) : (raiseUndefined r s).args = s.args := rfl
@[simp] theorem raiseUndefined_config (r : Undefined) (s : State) : (raiseUndefined r s).config = s.config := rfl
@[simp] theorem raiseUndefined_err (r : Undefined) (s : State) : (raiseUndefined r s).err = Config.freeErr s.freeCtr := rfl
@[simp] theorem raiseUndefined_busErr (r : Undefined) (s : State) : (raiseUndefined r s).busErr = s.busErr := rfl
@[simp] theorem raiseUndefined_cmd (r : Undefined) (s : State) : (raiseUndefined r s).cmd = s.cmd := rfl
@[simp] theorem raiseUndefined_result0 (r : Undefined) (s : State) : (raiseUndefined r s).result0 = Config.freeWord s.freeCtr 0 := rfl
@[simp] theorem raiseUndefined_result1 (r : Undefined) (s : State) : (raiseUndefined r s).result1 = Config.freeWord s.freeCtr 1 := rfl
@[simp] theorem raiseUndefined_cursorX (r : Undefined) (s : State) : (raiseUndefined r s).cursorX = Config.freeWord s.freeCtr 2 := rfl
@[simp] theorem raiseUndefined_cursorY (r : Undefined) (s : State) : (raiseUndefined r s).cursorY = Config.freeWord s.freeCtr 3 := rfl
@[simp] theorem raiseUndefined_textSize (r : Undefined) (s : State) : (raiseUndefined r s).textSize = s.textSize := rfl
@[simp] theorem raiseUndefined_textColor (r : Undefined) (s : State) : (raiseUndefined r s).textColor = s.textColor := rfl
@[simp] theorem raiseUndefined_textBg (r : Undefined) (s : State) : (raiseUndefined r s).textBg = s.textBg := rfl
@[simp] theorem raiseUndefined_textWrap (r : Undefined) (s : State) : (raiseUndefined r s).textWrap = s.textWrap := rfl
@[simp] theorem raiseUndefined_pending (r : Undefined) (s : State) : (raiseUndefined r s).pending = s.pending := rfl
@[simp] theorem raiseUndefined_responses (r : Undefined) (s : State) : (raiseUndefined r s).responses = s.responses := rfl
@[simp] theorem raiseUndefined_lastOutcome (r : Undefined) (s : State) : (raiseUndefined r s).lastOutcome = some (.undefined r) := rfl
@[simp] theorem raiseUndefined_freeCtr (r : Undefined) (s : State) : (raiseUndefined r s).freeCtr = s.freeCtr + 1 := rfl

/-! ## newLine -/

@[simp] theorem newLine_params (s : State) : (newLine s).params = s.params := rfl
@[simp] theorem newLine_fb (s : State) : (newLine s).fb = s.fb := rfl
@[simp] theorem newLine_res (s : State) : (newLine s).res = s.res := rfl
@[simp] theorem newLine_font (s : State) : (newLine s).font = s.font := rfl
@[simp] theorem newLine_args (s : State) : (newLine s).args = s.args := rfl
@[simp] theorem newLine_config (s : State) : (newLine s).config = s.config := rfl
@[simp] theorem newLine_err (s : State) : (newLine s).err = s.err := rfl
@[simp] theorem newLine_busErr (s : State) : (newLine s).busErr = s.busErr := rfl
@[simp] theorem newLine_cmd (s : State) : (newLine s).cmd = s.cmd := rfl
@[simp] theorem newLine_result0 (s : State) : (newLine s).result0 = s.result0 := rfl
@[simp] theorem newLine_result1 (s : State) : (newLine s).result1 = s.result1 := rfl
@[simp] theorem newLine_cursorX (s : State) : (newLine s).cursorX = 0x0000 := rfl
@[simp] theorem newLine_cursorY (s : State) : (newLine s).cursorY = toWord (s16 s.cursorY + 8 * u8 s.textSize) := rfl
@[simp] theorem newLine_textSize (s : State) : (newLine s).textSize = s.textSize := rfl
@[simp] theorem newLine_textColor (s : State) : (newLine s).textColor = s.textColor := rfl
@[simp] theorem newLine_textBg (s : State) : (newLine s).textBg = s.textBg := rfl
@[simp] theorem newLine_textWrap (s : State) : (newLine s).textWrap = s.textWrap := rfl
@[simp] theorem newLine_pending (s : State) : (newLine s).pending = s.pending := rfl
@[simp] theorem newLine_responses (s : State) : (newLine s).responses = s.responses := rfl
@[simp] theorem newLine_lastOutcome (s : State) : (newLine s).lastOutcome = s.lastOutcome := rfl
@[simp] theorem newLine_freeCtr (s : State) : (newLine s).freeCtr = s.freeCtr := rfl

/-! ## busError -/

@[simp] theorem busError_params (s : State) : (busError s).params = s.params := rfl
@[simp] theorem busError_fb (s : State) : (busError s).fb = s.fb := rfl
@[simp] theorem busError_res (s : State) : (busError s).res = s.res := rfl
@[simp] theorem busError_font (s : State) : (busError s).font = s.font := rfl
@[simp] theorem busError_args (s : State) : (busError s).args = s.args := rfl
@[simp] theorem busError_config (s : State) : (busError s).config = s.config := rfl
@[simp] theorem busError_err (s : State) : (busError s).err = s.err := rfl
@[simp] theorem busError_busErr (s : State) : (busError s).busErr = true := rfl
@[simp] theorem busError_cmd (s : State) : (busError s).cmd = s.cmd := rfl
@[simp] theorem busError_result0 (s : State) : (busError s).result0 = s.result0 := rfl
@[simp] theorem busError_result1 (s : State) : (busError s).result1 = s.result1 := rfl
@[simp] theorem busError_cursorX (s : State) : (busError s).cursorX = s.cursorX := rfl
@[simp] theorem busError_cursorY (s : State) : (busError s).cursorY = s.cursorY := rfl
@[simp] theorem busError_textSize (s : State) : (busError s).textSize = s.textSize := rfl
@[simp] theorem busError_textColor (s : State) : (busError s).textColor = s.textColor := rfl
@[simp] theorem busError_textBg (s : State) : (busError s).textBg = s.textBg := rfl
@[simp] theorem busError_textWrap (s : State) : (busError s).textWrap = s.textWrap := rfl
@[simp] theorem busError_pending (s : State) : (busError s).pending = s.pending := rfl
@[simp] theorem busError_responses (s : State) : (busError s).responses = s.responses := rfl
@[simp] theorem busError_lastOutcome (s : State) : (busError s).lastOutcome = s.lastOutcome := rfl
@[simp] theorem busError_freeCtr (s : State) : (busError s).freeCtr = s.freeCtr := rfl

/-! ## respond -/

@[simp] theorem respond_params (a : Response) (s : State) : (respond s a).params = s.params := rfl
@[simp] theorem respond_fb (a : Response) (s : State) : (respond s a).fb = s.fb := rfl
@[simp] theorem respond_res (a : Response) (s : State) : (respond s a).res = s.res := rfl
@[simp] theorem respond_font (a : Response) (s : State) : (respond s a).font = s.font := rfl
@[simp] theorem respond_args (a : Response) (s : State) : (respond s a).args = s.args := rfl
@[simp] theorem respond_config (a : Response) (s : State) : (respond s a).config = s.config := rfl
@[simp] theorem respond_err (a : Response) (s : State) : (respond s a).err = s.err := rfl
@[simp] theorem respond_busErr (a : Response) (s : State) : (respond s a).busErr = s.busErr := rfl
@[simp] theorem respond_cmd (a : Response) (s : State) : (respond s a).cmd = s.cmd := rfl
@[simp] theorem respond_result0 (a : Response) (s : State) : (respond s a).result0 = s.result0 := rfl
@[simp] theorem respond_result1 (a : Response) (s : State) : (respond s a).result1 = s.result1 := rfl
@[simp] theorem respond_cursorX (a : Response) (s : State) : (respond s a).cursorX = s.cursorX := rfl
@[simp] theorem respond_cursorY (a : Response) (s : State) : (respond s a).cursorY = s.cursorY := rfl
@[simp] theorem respond_textSize (a : Response) (s : State) : (respond s a).textSize = s.textSize := rfl
@[simp] theorem respond_textColor (a : Response) (s : State) : (respond s a).textColor = s.textColor := rfl
@[simp] theorem respond_textBg (a : Response) (s : State) : (respond s a).textBg = s.textBg := rfl
@[simp] theorem respond_textWrap (a : Response) (s : State) : (respond s a).textWrap = s.textWrap := rfl
@[simp] theorem respond_pending (a : Response) (s : State) : (respond s a).pending = s.pending := rfl
@[simp] theorem respond_responses (a : Response) (s : State) : (respond s a).responses = a :: s.responses := rfl
@[simp] theorem respond_lastOutcome (a : Response) (s : State) : (respond s a).lastOutcome = s.lastOutcome := rfl
@[simp] theorem respond_freeCtr (a : Response) (s : State) : (respond s a).freeCtr = s.freeCtr := rfl

/-! ## resetState -/

@[simp] theorem resetState_params (s : State) : (resetState s).params = s.params := rfl
@[simp] theorem resetState_fb (s : State) : (resetState s).fb = [] := rfl
@[simp] theorem resetState_res (s : State) : (resetState s).res = s.res := rfl
@[simp] theorem resetState_font (s : State) : (resetState s).font = s.font := rfl
@[simp] theorem resetState_args (s : State) : (resetState s).args = #v[0, 0, 0, 0, 0, 0, 0, 0] := rfl
@[simp] theorem resetState_config (s : State) : (resetState s).config = 0x0001 := rfl
@[simp] theorem resetState_err (s : State) : (resetState s).err = 0 := rfl
@[simp] theorem resetState_busErr (s : State) : (resetState s).busErr = false := rfl
@[simp] theorem resetState_cmd (s : State) : (resetState s).cmd = 0x0000 := rfl
@[simp] theorem resetState_result0 (s : State) : (resetState s).result0 = 0x0000 := rfl
@[simp] theorem resetState_result1 (s : State) : (resetState s).result1 = 0x0000 := rfl
@[simp] theorem resetState_cursorX (s : State) : (resetState s).cursorX = 0x0000 := rfl
@[simp] theorem resetState_cursorY (s : State) : (resetState s).cursorY = 0x0000 := rfl
@[simp] theorem resetState_textSize (s : State) : (resetState s).textSize = 0x0001 := rfl
@[simp] theorem resetState_textColor (s : State) : (resetState s).textColor = 0x0001 := rfl
@[simp] theorem resetState_textBg (s : State) : (resetState s).textBg = 0x0000 := rfl
@[simp] theorem resetState_textWrap (s : State) : (resetState s).textWrap = 0x0000 := rfl
@[simp] theorem resetState_pending (s : State) : (resetState s).pending = s.pending := rfl
@[simp] theorem resetState_responses (s : State) : (resetState s).responses = s.responses := rfl
@[simp] theorem resetState_lastOutcome (s : State) : (resetState s).lastOutcome = none := rfl
@[simp] theorem resetState_freeCtr (s : State) : (resetState s).freeCtr = s.freeCtr := rfl

/-! ## loadFont -/

@[simp] theorem loadFont_params (c : Byte) (i : Fin 5) (b : Byte) (s : State) : (loadFont c i b s).params = s.params := rfl
@[simp] theorem loadFont_fb (c : Byte) (i : Fin 5) (b : Byte) (s : State) : (loadFont c i b s).fb = s.fb := rfl
@[simp] theorem loadFont_res (c : Byte) (i : Fin 5) (b : Byte) (s : State) : (loadFont c i b s).res = s.res := rfl
@[simp] theorem loadFont_font (c : Byte) (i : Fin 5) (b : Byte) (s : State) : (loadFont c i b s).font = s.font.write (5 * c.toNat + i.val) b := rfl
@[simp] theorem loadFont_args (c : Byte) (i : Fin 5) (b : Byte) (s : State) : (loadFont c i b s).args = s.args := rfl
@[simp] theorem loadFont_config (c : Byte) (i : Fin 5) (b : Byte) (s : State) : (loadFont c i b s).config = s.config := rfl
@[simp] theorem loadFont_err (c : Byte) (i : Fin 5) (b : Byte) (s : State) : (loadFont c i b s).err = s.err := rfl
@[simp] theorem loadFont_busErr (c : Byte) (i : Fin 5) (b : Byte) (s : State) : (loadFont c i b s).busErr = s.busErr := rfl
@[simp] theorem loadFont_cmd (c : Byte) (i : Fin 5) (b : Byte) (s : State) : (loadFont c i b s).cmd = s.cmd := rfl
@[simp] theorem loadFont_result0 (c : Byte) (i : Fin 5) (b : Byte) (s : State) : (loadFont c i b s).result0 = s.result0 := rfl
@[simp] theorem loadFont_result1 (c : Byte) (i : Fin 5) (b : Byte) (s : State) : (loadFont c i b s).result1 = s.result1 := rfl
@[simp] theorem loadFont_cursorX (c : Byte) (i : Fin 5) (b : Byte) (s : State) : (loadFont c i b s).cursorX = s.cursorX := rfl
@[simp] theorem loadFont_cursorY (c : Byte) (i : Fin 5) (b : Byte) (s : State) : (loadFont c i b s).cursorY = s.cursorY := rfl
@[simp] theorem loadFont_textSize (c : Byte) (i : Fin 5) (b : Byte) (s : State) : (loadFont c i b s).textSize = s.textSize := rfl
@[simp] theorem loadFont_textColor (c : Byte) (i : Fin 5) (b : Byte) (s : State) : (loadFont c i b s).textColor = s.textColor := rfl
@[simp] theorem loadFont_textBg (c : Byte) (i : Fin 5) (b : Byte) (s : State) : (loadFont c i b s).textBg = s.textBg := rfl
@[simp] theorem loadFont_textWrap (c : Byte) (i : Fin 5) (b : Byte) (s : State) : (loadFont c i b s).textWrap = s.textWrap := rfl
@[simp] theorem loadFont_pending (c : Byte) (i : Fin 5) (b : Byte) (s : State) : (loadFont c i b s).pending = s.pending := rfl
@[simp] theorem loadFont_responses (c : Byte) (i : Fin 5) (b : Byte) (s : State) : (loadFont c i b s).responses = s.responses := rfl
@[simp] theorem loadFont_lastOutcome (c : Byte) (i : Fin 5) (b : Byte) (s : State) : (loadFont c i b s).lastOutcome = s.lastOutcome := rfl
@[simp] theorem loadFont_freeCtr (c : Byte) (i : Fin 5) (b : Byte) (s : State) : (loadFont c i b s).freeCtr = s.freeCtr := rfl

/-! ## writeCmd -/

@[simp] theorem writeCmd_params (v : Word) (s : State) : (writeReg s .cmd v).params = s.params := rfl
@[simp] theorem writeCmd_fb (v : Word) (s : State) : (writeReg s .cmd v).fb = s.fb := rfl
@[simp] theorem writeCmd_res (v : Word) (s : State) : (writeReg s .cmd v).res = s.res := rfl
@[simp] theorem writeCmd_font (v : Word) (s : State) : (writeReg s .cmd v).font = s.font := rfl
@[simp] theorem writeCmd_args (v : Word) (s : State) : (writeReg s .cmd v).args = s.args := rfl
@[simp] theorem writeCmd_config (v : Word) (s : State) : (writeReg s .cmd v).config = s.config := rfl
@[simp] theorem writeCmd_err (v : Word) (s : State) : (writeReg s .cmd v).err = s.err := rfl
@[simp] theorem writeCmd_busErr (v : Word) (s : State) : (writeReg s .cmd v).busErr = s.busErr := rfl
@[simp] theorem writeCmd_cmd (v : Word) (s : State) : (writeReg s .cmd v).cmd = v := rfl
@[simp] theorem writeCmd_result0 (v : Word) (s : State) : (writeReg s .cmd v).result0 = s.result0 := rfl
@[simp] theorem writeCmd_result1 (v : Word) (s : State) : (writeReg s .cmd v).result1 = s.result1 := rfl
@[simp] theorem writeCmd_cursorX (v : Word) (s : State) : (writeReg s .cmd v).cursorX = s.cursorX := rfl
@[simp] theorem writeCmd_cursorY (v : Word) (s : State) : (writeReg s .cmd v).cursorY = s.cursorY := rfl
@[simp] theorem writeCmd_textSize (v : Word) (s : State) : (writeReg s .cmd v).textSize = s.textSize := rfl
@[simp] theorem writeCmd_textColor (v : Word) (s : State) : (writeReg s .cmd v).textColor = s.textColor := rfl
@[simp] theorem writeCmd_textBg (v : Word) (s : State) : (writeReg s .cmd v).textBg = s.textBg := rfl
@[simp] theorem writeCmd_textWrap (v : Word) (s : State) : (writeReg s .cmd v).textWrap = s.textWrap := rfl
@[simp] theorem writeCmd_pending (v : Word) (s : State) : (writeReg s .cmd v).pending = s.pending := rfl
@[simp] theorem writeCmd_responses (v : Word) (s : State) : (writeReg s .cmd v).responses = s.responses := rfl
@[simp] theorem writeCmd_lastOutcome (v : Word) (s : State) : (writeReg s .cmd v).lastOutcome = s.lastOutcome := rfl
@[simp] theorem writeCmd_freeCtr (v : Word) (s : State) : (writeReg s .cmd v).freeCtr = s.freeCtr := rfl

/-! ## Updates that choose -/

@[simp] theorem advance_params (s : State) : (advance s).params = s.params := by unfold advance; dsimp only; split <;> rfl
@[simp] theorem advance_fb (s : State) : (advance s).fb = s.fb := by unfold advance; dsimp only; split <;> rfl
@[simp] theorem advance_res (s : State) : (advance s).res = s.res := by unfold advance; dsimp only; split <;> rfl
@[simp] theorem advance_font (s : State) : (advance s).font = s.font := by unfold advance; dsimp only; split <;> rfl
@[simp] theorem advance_args (s : State) : (advance s).args = s.args := by unfold advance; dsimp only; split <;> rfl
@[simp] theorem advance_config (s : State) : (advance s).config = s.config := by unfold advance; dsimp only; split <;> rfl
@[simp] theorem advance_err (s : State) : (advance s).err = s.err := by unfold advance; dsimp only; split <;> rfl
@[simp] theorem advance_busErr (s : State) : (advance s).busErr = s.busErr := by unfold advance; dsimp only; split <;> rfl
@[simp] theorem advance_cmd (s : State) : (advance s).cmd = s.cmd := by unfold advance; dsimp only; split <;> rfl
@[simp] theorem advance_result0 (s : State) : (advance s).result0 = s.result0 := by unfold advance; dsimp only; split <;> rfl
@[simp] theorem advance_result1 (s : State) : (advance s).result1 = s.result1 := by unfold advance; dsimp only; split <;> rfl
@[simp] theorem advance_textSize (s : State) : (advance s).textSize = s.textSize := by unfold advance; dsimp only; split <;> rfl
@[simp] theorem advance_textColor (s : State) : (advance s).textColor = s.textColor := by unfold advance; dsimp only; split <;> rfl
@[simp] theorem advance_textBg (s : State) : (advance s).textBg = s.textBg := by unfold advance; dsimp only; split <;> rfl
@[simp] theorem advance_textWrap (s : State) : (advance s).textWrap = s.textWrap := by unfold advance; dsimp only; split <;> rfl
@[simp] theorem advance_pending (s : State) : (advance s).pending = s.pending := by unfold advance; dsimp only; split <;> rfl
@[simp] theorem advance_responses (s : State) : (advance s).responses = s.responses := by unfold advance; dsimp only; split <;> rfl
@[simp] theorem advance_lastOutcome (s : State) : (advance s).lastOutcome = s.lastOutcome := by unfold advance; dsimp only; split <;> rfl
@[simp] theorem advance_freeCtr (s : State) : (advance s).freeCtr = s.freeCtr := by unfold advance; dsimp only; split <;> rfl

@[simp] theorem loadRes_params (a : Word) (b : Byte) (s : State) : (loadRes a b s).params = s.params := by unfold loadRes; split <;> rfl
@[simp] theorem loadRes_fb (a : Word) (b : Byte) (s : State) : (loadRes a b s).fb = s.fb := by unfold loadRes; split <;> rfl
@[simp] theorem loadRes_font (a : Word) (b : Byte) (s : State) : (loadRes a b s).font = s.font := by unfold loadRes; split <;> rfl
@[simp] theorem loadRes_args (a : Word) (b : Byte) (s : State) : (loadRes a b s).args = s.args := by unfold loadRes; split <;> rfl
@[simp] theorem loadRes_config (a : Word) (b : Byte) (s : State) : (loadRes a b s).config = s.config := by unfold loadRes; split <;> rfl
@[simp] theorem loadRes_err (a : Word) (b : Byte) (s : State) : (loadRes a b s).err = s.err := by unfold loadRes; split <;> rfl
@[simp] theorem loadRes_busErr (a : Word) (b : Byte) (s : State) : (loadRes a b s).busErr = s.busErr := by unfold loadRes; split <;> rfl
@[simp] theorem loadRes_cmd (a : Word) (b : Byte) (s : State) : (loadRes a b s).cmd = s.cmd := by unfold loadRes; split <;> rfl
@[simp] theorem loadRes_result0 (a : Word) (b : Byte) (s : State) : (loadRes a b s).result0 = s.result0 := by unfold loadRes; split <;> rfl
@[simp] theorem loadRes_result1 (a : Word) (b : Byte) (s : State) : (loadRes a b s).result1 = s.result1 := by unfold loadRes; split <;> rfl
@[simp] theorem loadRes_cursorX (a : Word) (b : Byte) (s : State) : (loadRes a b s).cursorX = s.cursorX := by unfold loadRes; split <;> rfl
@[simp] theorem loadRes_cursorY (a : Word) (b : Byte) (s : State) : (loadRes a b s).cursorY = s.cursorY := by unfold loadRes; split <;> rfl
@[simp] theorem loadRes_textSize (a : Word) (b : Byte) (s : State) : (loadRes a b s).textSize = s.textSize := by unfold loadRes; split <;> rfl
@[simp] theorem loadRes_textColor (a : Word) (b : Byte) (s : State) : (loadRes a b s).textColor = s.textColor := by unfold loadRes; split <;> rfl
@[simp] theorem loadRes_textBg (a : Word) (b : Byte) (s : State) : (loadRes a b s).textBg = s.textBg := by unfold loadRes; split <;> rfl
@[simp] theorem loadRes_textWrap (a : Word) (b : Byte) (s : State) : (loadRes a b s).textWrap = s.textWrap := by unfold loadRes; split <;> rfl
@[simp] theorem loadRes_pending (a : Word) (b : Byte) (s : State) : (loadRes a b s).pending = s.pending := by unfold loadRes; split <;> rfl
@[simp] theorem loadRes_responses (a : Word) (b : Byte) (s : State) : (loadRes a b s).responses = s.responses := by unfold loadRes; split <;> rfl
@[simp] theorem loadRes_lastOutcome (a : Word) (b : Byte) (s : State) : (loadRes a b s).lastOutcome = s.lastOutcome := by unfold loadRes; split <;> rfl
@[simp] theorem loadRes_freeCtr (a : Word) (b : Byte) (s : State) : (loadRes a b s).freeCtr = s.freeCtr := by unfold loadRes; split <;> rfl

end Sys2Proof.Machine
end

