-- ==== Sys2Proof/Laws/Pixels.lean ====
section
/-! SUPPORT. What the pixel primitives, the spans and `paint` do. -/

namespace Sys2Proof.Machine

theorem mem_intRange (lo hi i : Int) : i ∈ intRange lo hi ↔ lo ≤ i ∧ i < hi := by
  simp only [intRange, List.mem_map, List.mem_range]
  constructor
  · rintro ⟨n, hn, rfl⟩; omega
  · intro h; exact ⟨(i - lo).toNat, by omega, by omega⟩

theorem inBuffer_iff (p : Params) (x y : Int) :
    inBuffer p x y = true ↔ 0 ≤ x ∧ x < p.width ∧ 0 ≤ y ∧ y < p.height := by
  simp [inBuffer, and_assoc]

/-- The points of a horizontal span (40_framebuffer.md R106). -/
theorem mem_hspan (p : Params) (x y w a b : Int) :
    (a, b) ∈ hspan p x y w ↔ b = y ∧ x ≤ a ∧ a < x + w ∧ inBuffer p a b = true := by
  rw [inBuffer_iff]
  unfold hspan
  split
  · simp only [List.not_mem_nil, false_iff]; omega
  · simp only [List.mem_map, mem_intRange, Prod.mk.injEq]
    constructor
    · rintro ⟨i, hi, rfl, rfl⟩; omega
    · rintro ⟨rfl, h⟩; exact ⟨a, by omega, rfl, rfl⟩

/-- The points of a vertical span (40_framebuffer.md R108). -/
theorem mem_vspan (p : Params) (x y h a b : Int) :
    (a, b) ∈ vspan p x y h ↔ a = x ∧ y ≤ b ∧ b < y + h ∧ inBuffer p a b = true := by
  rw [inBuffer_iff]
  unfold vspan
  split
  · simp only [List.not_mem_nil, false_iff]; omega
  · simp only [List.mem_map, mem_intRange, Prod.mk.injEq]
    constructor
    · rintro ⟨i, hi, rfl, rfl⟩; omega
    · rintro ⟨rfl, h⟩; exact ⟨b, by omega, rfl, rfl⟩

/-- Setting one bit of a byte (40_framebuffer.md R100). -/
theorem getLsbD_setBit (b : Byte) (j : Nat) (on : Bool) (i : Nat) (hj : j < 8) (hi : i < 8) :
    (setBit b j on).getLsbD i = if i = j then on else b.getLsbD i := by
  unfold setBit
  cases on
  · simp only [Bool.false_eq_true, if_false, BitVec.getLsbD_and, BitVec.getLsbD_xor]
    interval_cases i <;> interval_cases j <;> simp
  · simp only [if_true, BitVec.getLsbD_or]
    interval_cases i <;> interval_cases j <;> simp

theorem pixelBit_lt (y : Int) : pixelBit y < 8 := by unfold pixelBit; omega

/-- Two pixels of the buffer with the same byte and bit are the same pixel (10_state.md R21). -/
theorem pixel_unique (p : Params) (x y x' y' : Int) (h : inBuffer p x y = true) (h' : inBuffer p x' y' = true)
    (hb : pixelByte p x y = pixelByte p x' y') (hj : pixelBit y = pixelBit y') : x = x' ∧ y = y' := by
  rw [inBuffer_iff] at h h'
  obtain ⟨hx0, hx1, hy0, hy1⟩ := h
  obtain ⟨hx0', hx1', hy0', hy1'⟩ := h'
  unfold pixelByte at hb
  unfold pixelBit at hj
  have hq : 0 ≤ y / 8 := by omega
  have hq' : 0 ≤ y' / 8 := by omega
  have hn : 0 ≤ y / 8 * (p.width : Int) := by positivity
  have hn' : 0 ≤ y' / 8 * (p.width : Int) := by positivity
  have he : y / 8 * (p.width : Int) + x = y' / 8 * p.width + x' := by omega
  have hqq : y / 8 = y' / 8 := by
    rcases lt_trichotomy (y / 8) (y' / 8) with hl | hl | hl
    · have : (y / 8 + 1) * (p.width : Int) ≤ y' / 8 * p.width :=
        mul_le_mul_of_nonneg_right (by omega) (by omega)
      rw [add_mul, one_mul] at this; omega
    · exact hl
    · have : (y' / 8 + 1) * (p.width : Int) ≤ y / 8 * p.width :=
        mul_le_mul_of_nonneg_right (by omega) (by omega)
      rw [add_mul, one_mul] at this; omega
  rw [hqq] at he
  omega

/-- A pixel of the buffer lies in an FB byte (20_memory.md R50, 10_state.md R21). -/
theorem pixelByte_lt (p : Params) (x y : Int) (hh : p.height % 8 = 0) (h : inBuffer p x y = true) :
    pixelByte p x y < p.fbBytes := by
  rw [inBuffer_iff] at h
  obtain ⟨hx0, hx1, hy0, hy1⟩ := h
  have hq : 0 ≤ y / 8 := by omega
  have hpg : y / 8 + 1 ≤ (p.pages : Int) := by unfold Params.pages; omega
  have h1 : (y / 8 + 1) * (p.width : Int) ≤ p.pages * p.width := mul_le_mul_of_nonneg_right hpg (by omega)
  have h2 : ((p.fbBytes : Nat) : Int) = p.pages * p.width := by unfold Params.fbBytes; push_cast; ring
  have h3 : 0 ≤ y / 8 * (p.width : Int) := by positivity
  unfold pixelByte
  rw [add_mul, one_mul] at h1
  omega

/-- What a pixel write in the buffer does to every bit (40_framebuffer.md R100). -/
theorem pixelWrite_inBuffer (p : Params) (safe : Bool) (fb : Memory) (d : Dot) (h : inBuffer p d.x d.y = true) :
    ∃ fb', pixelWrite p safe fb d = .ok fb' ∧
      ∀ k j, j < 8 → (fb'.read k).getLsbD j = if IsPixel p k j d.x d.y then d.on else (fb.read k).getLsbD j := by
  refine ⟨_, by rw [pixelWrite, if_pos h], ?_⟩
  intro k j hj
  rw [Memory.read_write]
  by_cases hk : k = pixelByte p d.x d.y
  · subst hk
    rw [if_pos rfl, getLsbD_setBit _ _ _ _ (pixelBit_lt _) hj]
    by_cases hjj : j = pixelBit d.y
    · subst hjj; simp [IsPixel, h]
    · have : ¬ pixelBit d.y = j := fun e => hjj e.symm
      simp [IsPixel, hjj, this]
  · rw [if_neg hk, if_neg]
    rintro ⟨_, h2, _⟩
    exact hk h2.symm

theorem pixelWrite_clipped (p : Params) (fb : Memory) (d : Dot) (h : inBuffer p d.x d.y = false) :
    pixelWrite p true fb d = .ok fb := by simp [pixelWrite, h]

theorem pixelWrite_unchecked (p : Params) (fb : Memory) (d : Dot) (h : inBuffer p d.x d.y = false) :
    pixelWrite p false fb d = .error .pixelRange := by simp [pixelWrite, h]

@[simp] theorem paint_nil (p : Params) (safe : Bool) (fb : Memory) : paint p safe [] fb = .ok fb := rfl

theorem paint_cons (p : Params) (safe : Bool) (d : Dot) (ds : List Dot) (fb : Memory) :
    paint p safe (d :: ds) fb = (match pixelWrite p safe fb d with
      | .ok fb' => paint p safe ds fb'
      | .error r => .error r) := by
  unfold paint
  rw [List.foldlM_cons]
  cases pixelWrite p safe fb d <;> rfl

/-- The bits `paint` leaves: a bit on which every write that reaches it agrees holds that colour, a bit that no write
reaches is unchanged. -/
theorem paint_bits (p : Params) (safe : Bool) (ds : List Dot) (fb : Memory)
    (h : safe = true ∨ ∀ d ∈ ds, inBuffer p d.x d.y = true) :
    ∃ fb', paint p safe ds fb = .ok fb' ∧ ∀ k j, j < 8 →
      (∀ v, (∀ d ∈ ds, IsPixel p k j d.x d.y → d.on = v) → (∃ d ∈ ds, IsPixel p k j d.x d.y) →
        (fb'.read k).getLsbD j = v) ∧
      ((∀ d ∈ ds, ¬ IsPixel p k j d.x d.y) → (fb'.read k).getLsbD j = (fb.read k).getLsbD j) := by
  induction ds generalizing fb with
  | nil => exact ⟨fb, rfl, fun k j _ => ⟨by simp, by simp⟩⟩
  | cons d ds ih =>
    have hstep : ∃ fb1, pixelWrite p safe fb d = .ok fb1 ∧
        ∀ k j, j < 8 → (fb1.read k).getLsbD j = if IsPixel p k j d.x d.y then d.on else (fb.read k).getLsbD j := by
      by_cases hb : inBuffer p d.x d.y = true
      · exact pixelWrite_inBuffer p safe fb d hb
      · rcases h with h | h
        · subst h
          refine ⟨fb, pixelWrite_clipped p fb d (by simpa using hb), fun k j _ => ?_⟩
          rw [if_neg]; rintro ⟨h1, _⟩; exact hb h1
        · exact absurd (h d (by simp)) hb
    obtain ⟨fb1, hw, hbits⟩ := hstep
    obtain ⟨fb', hp, hrest⟩ := ih fb1 (h.imp id fun h e he => h e (by simp [he]))
    refine ⟨fb', by rw [paint_cons, hw]; exact hp, fun k j hj => ?_⟩
    obtain ⟨h1, h2⟩ := hrest k j hj
    refine ⟨fun v hv hex => ?_, fun hno => ?_⟩
    · by_cases hd : ∃ e ∈ ds, IsPixel p k j e.x e.y
      · exact h1 v (fun e he => hv e (by simp [he])) hd
      · push Not at hd
        rw [h2 hd, hbits k j hj]
        obtain ⟨e, he, hpix⟩ := hex
        rcases List.mem_cons.1 he with rfl | he
        · rw [if_pos hpix]; exact hv e (by simp) hpix
        · exact absurd hpix (hd e he)
    · rw [h2 fun e he => hno e (by simp [he]), hbits k j hj, if_neg (hno d (by simp))]

/-- In unchecked mode `paint` ends in UNDEFINED(PIXEL_RANGE) exactly when some write lies outside the buffer. -/
theorem paint_unchecked (p : Params) (ds : List Dot) (fb : Memory) (h : ∃ d ∈ ds, inBuffer p d.x d.y = false) :
    paint p false ds fb = .error .pixelRange := by
  induction ds generalizing fb with
  | nil => simp at h
  | cons d ds ih =>
    rw [paint_cons]
    cases hb : inBuffer p d.x d.y with
    | false => rw [pixelWrite_unchecked p fb d hb]
    | true =>
      obtain ⟨fb1, hw, _⟩ := pixelWrite_inBuffer p false fb d hb
      rw [hw]
      obtain ⟨e, he, hne⟩ := h
      rcases List.mem_cons.1 he with rfl | he
      · simp [hb] at hne
      · exact ih fb1 ⟨e, he, hne⟩

/-- The bits a one-colour `paint` leaves. -/
theorem paint_inked (p : Params) (safe : Bool) (ink : Bool) (pts : List Point) (fb : Memory)
    (h : safe = true ∨ ∀ q ∈ pts, inBuffer p q.1 q.2 = true) :
    ∃ fb', paint p safe (inked ink pts) fb = .ok fb' ∧ ∀ k j, j < 8 →
      ((∃ x y, (x, y) ∈ pts ∧ IsPixel p k j x y) → (fb'.read k).getLsbD j = ink) ∧
      ((¬ ∃ x y, (x, y) ∈ pts ∧ IsPixel p k j x y) → (fb'.read k).getLsbD j = (fb.read k).getLsbD j) := by
  have hmem : ∀ d, d ∈ inked ink pts ↔ (d.x, d.y) ∈ pts ∧ d.on = ink := by
    intro d
    simp only [inked, List.mem_map]
    constructor
    · rintro ⟨q, hq, rfl⟩; exact ⟨hq, rfl⟩
    · rintro ⟨hq, rfl⟩; exact ⟨(d.x, d.y), hq, rfl⟩
  obtain ⟨fb', hp, hbits⟩ := paint_bits p safe (inked ink pts) fb
    (h.imp id fun h d hd => h (d.x, d.y) ((hmem d).1 hd).1)
  refine ⟨fb', hp, fun k j hj => ⟨?_, ?_⟩⟩
  · rintro ⟨x, y, hq, hpix⟩
    exact (hbits k j hj).1 ink (fun d hd _ => ((hmem d).1 hd).2) ⟨⟨x, y, ink⟩, (hmem _).2 ⟨hq, rfl⟩, hpix⟩
  · intro hno
    exact (hbits k j hj).2 fun d hd hpix => hno ⟨d.x, d.y, ((hmem d).1 hd).1, hpix⟩

end Sys2Proof.Machine
end

