-- ==== Sys2Proof/Laws/Ops.lean ====
section
/-! SUPPORT. Once for each shared operation, everything it can do: how commands end, resource reads, operand views. -/

namespace Sys2Proof.Machine

/-! ## How a command ends -/

/-- A one-colour command either paints in the ink of its colour, or is refused for INVERT. -/
theorem withInk_cases (c : Colour) (s : State) (body : Bool → StepResult) :
    (∃ ink, inkOf c = some ink ∧ withInk c s body = body ink) ∨
    (c = .invert ∧ withInk c s body = .next (raiseErr .reservedField s)) := by
  cases c
  · exact .inl ⟨false, rfl, rfl⟩
  · exact .inl ⟨true, rfl, rfl⟩
  · exact .inr ⟨rfl, rfl⟩

theorem withInk_of_ink (c : Colour) (s : State) (body : Bool → StepResult) (ink : Bool) (h : inkOf c = some ink) :
    withInk c s body = body ink := by simp [withInk, h]

/-- A drawing command ends in DONE with the frame buffer computed, or in UNDEFINED. -/
theorem concludeFb_cases (s t : State) (result : Except Undefined Memory) (h : concludeFb s result = .next t) :
    (∃ fb, result = .ok fb ∧ t = finishDone { s with fb := fb }) ∨
    (∃ r, result = .error r ∧ t = raiseUndefined r s) := by
  cases result with
  | ok fb => exact .inl ⟨fb, rfl, by simpa [concludeFb, eq_comm] using h⟩
  | error r => exact .inr ⟨r, rfl, by simpa [concludeFb, eq_comm] using h⟩

theorem concludeFb_ok (s : State) (fb : Memory) : concludeFb s (.ok fb) = .next (finishDone { s with fb := fb }) := rfl

theorem concludeFb_error (s : State) (r : Undefined) : concludeFb s (.error r) = .next (raiseUndefined r s) := rfl

/-- UNDEFINED keeps what 60_exceptions.md R319 says it keeps. -/
theorem raiseUndefined_keeps (r : Undefined) (s : State) : UndefinedKeeps r s (raiseUndefined r s) := rfl

/-- A shape whose pixels may all be written is painted exactly. -/
theorem drawPoints_paints (s : State) (ink : Bool) (pts : List Point)
    (h : s.pixelSafe = true ∨ ∀ q ∈ pts, inBuffer s.params q.1 q.2 = true) :
    ∃ t, drawPoints s ink pts = .next t ∧ PaintsExactly s t ink (fun x y => (x, y) ∈ pts) := by
  obtain ⟨fb', hp, hbits⟩ := paint_inked s.params s.pixelSafe ink pts s.fb h
  exact ⟨finishDone { s with fb := fb' }, by rw [drawPoints, hp, concludeFb_ok], rfl, fun k j hj => hbits k j hj⟩

/-- In unchecked mode a shape with a pixel outside the buffer ends in UNDEFINED(PIXEL_RANGE). -/
theorem drawPoints_unchecked (s : State) (ink : Bool) (pts : List Point) (hs : s.pixelSafe = false)
    (h : ∃ q ∈ pts, inBuffer s.params q.1 q.2 = false) :
    drawPoints s ink pts = .next (raiseUndefined .pixelRange s) := by
  obtain ⟨q, hq, hno⟩ := h
  have hd : ∃ d ∈ inked ink pts, inBuffer s.params d.x d.y = false :=
    ⟨⟨q.1, q.2, ink⟩, List.mem_map.2 ⟨q, hq, rfl⟩, hno⟩
  rw [drawPoints, hs, paint_unchecked _ _ _ hd, concludeFb_error]

/-- `PaintsExactly` depends on the shape only through its points. -/
theorem PaintsExactly.congr {s t : State} {ink : Bool} {P Q : Int → Int → Prop} (h : PaintsExactly s t ink P)
    (hPQ : ∀ x y, inBuffer s.params x y = true → (P x y ↔ Q x y)) : PaintsExactly s t ink Q := by
  refine ⟨h.1, fun k j hj => ?_⟩
  have hex : (∃ x y, P x y ∧ IsPixel s.params k j x y) ↔ ∃ x y, Q x y ∧ IsPixel s.params k j x y :=
    exists_congr fun x => exists_congr fun y =>
      ⟨fun ⟨hp, hpix⟩ => ⟨(hPQ x y hpix.1).1 hp, hpix⟩, fun ⟨hq, hpix⟩ => ⟨(hPQ x y hpix.1).2 hq, hpix⟩⟩
  rw [← hex]
  exact h.2 k j hj

/-! ## Operand views -/

theorem u8_lt (w : Word) : u8 w < 256 := (w.extractLsb' 0 8).isLt

theorem addr_lt (w : Word) : addr w < 65536 := w.isLt

theorem bits_lt (n : Nat) (w : Word) : bits n w < 2 ^ n := (w.extractLsb' 0 n).isLt

theorem s16_range (w : Word) : -32768 ≤ s16 w ∧ s16 w ≤ 32767 := by
  unfold s16
  have h1 := BitVec.le_toInt w
  have h2 := BitVec.toInt_lt (x := w)
  norm_num at h1 h2
  omega

theorem s16_toWord (v : Int) (h : -32768 ≤ v ∧ v ≤ 32767) : s16 (toWord v) = v := by
  unfold s16 toWord
  rw [BitVec.toInt_ofInt, Int.bmod_def]
  omega

/-! ## Resource reads -/

/-- A resource read answers the byte, or ends in UNDEFINED(RES_RANGE) past RES_SIZE (20_memory.md R57). -/
theorem resRead_cases (p : Params) (res : Memory) (a : Int) :
    (resAddr a < p.resSize ∧ resRead p res a = .ok (res.read (resAddr a))) ∨
    (p.resSize ≤ resAddr a ∧ resRead p res a = .error .resRange) := by
  unfold resRead
  by_cases h : resAddr a < p.resSize
  · exact .inl ⟨h, by rw [if_pos h]⟩
  · exact .inr ⟨by omega, by rw [if_neg h]⟩

theorem resRead_ok (p : Params) (res : Memory) (a : Int) (h : resAddr a < p.resSize) :
    resRead p res a = .ok (res.read (resAddr a)) := by rw [resRead, if_pos h]

theorem resAddr_lt (a : Int) : resAddr a < 65536 := by unfold resAddr; omega

end Sys2Proof.Machine
end

