-- ==== Sys2Proof/Laws/Writes.lean ====
section
/-! SUPPORT. Every drawing command changes FB only by writes inside it, so FB keeps its canonical form and lists no byte
outside its space. -/

namespace Sys2Proof.Machine

/-- `m'` comes from `m` by writes at addresses below `n`. -/
inductive WritesBelow (n : Nat) (m : Memory) : Memory → Prop where
  | refl : WritesBelow n m m
  | write {m' : Memory} (h : WritesBelow n m m') (k : Nat) (v : Byte) (hk : k < n) : WritesBelow n m (m'.write k v)

theorem WritesBelow.trans {n : Nat} {a b c : Memory} (h : WritesBelow n a b) (h' : WritesBelow n b c) :
    WritesBelow n a c := by
  induction h' with
  | refl => exact h
  | write _ k v hk ih => exact ih.write k v hk

theorem WritesBelow.keeps_wf {n : Nat} {m m' : Memory} (h : WritesBelow n m m') (hm : m.wf = true) : m'.wf = true := by
  induction h with
  | refl => exact hm
  | write _ k v _ ih => exact Memory.wf_write _ k v ih

theorem WritesBelow.keeps_below {n : Nat} {m m' : Memory} (h : WritesBelow n m m') (hm : m.below n = true) :
    m'.below n = true := by
  induction h with
  | refl => exact hm
  | write _ k v hk ih => exact Memory.below_write _ k n v ih hk

/-- Bytes outside the space are never changed. -/
theorem WritesBelow.read_outside {n : Nat} {m m' : Memory} (h : WritesBelow n m m') (k : Nat) (hk : n ≤ k) :
    m'.read k = m.read k := by
  induction h with
  | refl => rfl
  | write _ j v hj ih => rw [Memory.read_write_other _ _ _ _ (by omega), ih]

/-- A fold of steps that only write inside the space only writes inside the space. -/
theorem foldlM_writes {α : Type} (n : Nat) (f : Memory → α → Except Undefined Memory) (l : List α)
    (hf : ∀ a ∈ l, ∀ m m', f m a = .ok m' → WritesBelow n m m') (m m' : Memory) (h : l.foldlM f m = .ok m') :
    WritesBelow n m m' := by
  induction l generalizing m with
  | nil => cases h; exact .refl
  | cons a l ih =>
    rw [List.foldlM_cons] at h
    cases h1 : f m a with
    | error r => rw [h1] at h; cases h
    | ok m1 =>
      rw [h1] at h
      exact (hf a (by simp) m m1 h1).trans (ih (fun b hb => hf b (by simp [hb])) m1 h)

theorem pixelWrite_writes (p : Params) (hh : p.height % 8 = 0) (safe : Bool) (d : Dot) (m m' : Memory)
    (h : pixelWrite p safe m d = .ok m') : WritesBelow p.fbBytes m m' := by
  unfold pixelWrite at h
  split at h
  · rename_i hb
    cases h
    exact WritesBelow.refl.write _ _ (pixelByte_lt p _ _ hh hb)
  · split at h
    · cases h; exact .refl
    · cases h

theorem paint_writes (p : Params) (hh : p.height % 8 = 0) (safe : Bool) (ds : List Dot) (m m' : Memory)
    (h : paint p safe ds m = .ok m') : WritesBelow p.fbBytes m m' :=
  foldlM_writes _ _ ds (fun d _ m m' => pixelWrite_writes p hh safe d m m') m m' h

/-! ## Blits -/

/-- What BlitGeometry answers (44_sprite_aligned.md R180). -/
theorem blitGeometry_cases (p : Params) (x y : Int) (w h : Nat) (g : BlitGeom) (hg : blitGeometry p x y w h = some g) :
    0 < x + w ∧ x < p.width ∧ 0 < y + h ∧ y < p.height ∧
    g.rows = (h + 7) / 8 ∧ g.sRow = y / 8 ∧ g.yo = (y % 8).toNat ∧ g.ilo = max 0 (-x) ∧
    g.ihi = min (w : Int) (p.width - x) - 1 := by
  unfold blitGeometry at hg
  split at hg
  · cases hg
  · rename_i h1
    cases hg
    push Not at h1
    exact ⟨h1.1, h1.2.1, h1.2.2.1, h1.2.2.2, rfl, rfl, rfl, rfl, rfl⟩

theorem onPage_iff (p : Params) (pg : Int) : onPage p pg = true ↔ 0 ≤ pg ∧ pg < p.pages := by
  simp [onPage]

theorem fbIndex_lt (p : Params) (pg x : Int) (hpg : onPage p pg = true) (h0 : 0 ≤ x) (h1 : x < p.width) :
    fbIndex p pg x < p.fbBytes := by
  rw [onPage_iff] at hpg
  have h2 : (pg + 1) * (p.width : Int) ≤ p.pages * p.width := mul_le_mul_of_nonneg_right (by omega) (by omega)
  have h3 : ((p.fbBytes : Nat) : Int) = p.pages * p.width := by unfold Params.fbBytes; push_cast; ring
  have h4 : 0 ≤ pg * (p.width : Int) := mul_nonneg hpg.1 (by omega)
  unfold fbIndex
  rw [add_mul, one_mul] at h2
  omega

theorem blitCell_writes (p : Params) (g : BlitGeom) (x : Int) (f : Combine) (a i : Int) (src msk : Byte) (m : Memory)
    (h0 : 0 ≤ x + i) (h1 : x + i < p.width) : WritesBelow p.fbBytes m (blitCell p g x f a i src msk m) := by
  unfold blitCell
  dsimp only
  have hlo : ∀ m', WritesBelow p.fbBytes m m' → WritesBelow p.fbBytes m (if g.loOk p a = true then
      combineAt m' (fbIndex p (g.sRow + a) (x + i)) f ((shifted src g.yo).extractLsb' 0 8)
        ((shifted msk g.yo).extractLsb' 0 8) else m') := by
    intro m' hm
    split
    · rename_i hok
      exact hm.write _ _ (fbIndex_lt p _ _ hok h0 h1)
    · exact hm
  split
  · rename_i hok
    refine (hlo m .refl).write _ _ (fbIndex_lt p _ _ ?_ h0 h1)
    simp only [BlitGeom.hiOk, Bool.and_eq_true] at hok
    exact hok.2
  · exact hlo m .refl

/-- The columns of the visible cells land on screen columns. -/
theorem visibleCells_column (p : Params) (x y : Int) (w h : Nat) (g : BlitGeom) (hg : blitGeometry p x y w h = some g)
    (c : Int × Int) (hc : c ∈ visibleCells p g) : 0 ≤ x + c.2 ∧ x + c.2 < p.width := by
  obtain ⟨_, _, _, _, _, _, _, hlo, hhi⟩ := blitGeometry_cases p x y w h g hg
  simp only [visibleCells, List.mem_flatMap] at hc
  obtain ⟨a, _, hc⟩ := hc
  split at hc
  · simp only [List.mem_map, mem_intRange] at hc
    obtain ⟨i, hi, rfl⟩ := hc
    dsimp only
    omega
  · cases hc

theorem blitCells_writes (p : Params) (x y : Int) (w h : Nat) (fetch : Fetch) (f : Combine) (m m' : Memory)
    (hm : blitCells p x y w h fetch f m = .ok m') : WritesBelow p.fbBytes m m' := by
  unfold blitCells at hm
  split at hm
  · cases hm; exact .refl
  · rename_i g hg
    refine foldlM_writes _ _ _ ?_ m m' hm
    intro c hc m1 m2 h12
    obtain ⟨h0, h1⟩ := visibleCells_column p x y w h g hg c hc
    unfold blitStep at h12
    split at h12
    · cases h12; exact blitCell_writes p g x f c.1 c.2 _ _ m1 h0 h1
    · cases h12

theorem drawSprite_writes (s : State) (md : DrawMode) (b f mask mf : Nat) (m' : Memory)
    (h : drawSprite s md b f mask mf = .ok m') : WritesBelow s.params.fbBytes s.fb m' := by
  unfold drawSprite at h
  split at h
  · cases h
  · split at h
    · cases h
    · split at h
      · cases h; exact .refl
      · exact blitCells_writes _ _ _ _ _ _ _ _ _ h

/-! ## The decoder -/

theorem emitCell_writes (p : Params) (x y : Int) (w h : Nat) (g : BlitGeom) (hg : blitGeometry p x y w h = some g)
    (col : Bool) (cell : Int × Int) (v : Byte) (m : Memory) :
    WritesBelow p.fbBytes m (emitCell p g x col cell v m) := by
  obtain ⟨_, _, _, _, _, _, _, hlo, hhi⟩ := blitGeometry_cases p x y w h g hg
  unfold emitCell
  split
  · rename_i hc
    exact blitCell_writes p g x _ _ _ _ _ m (by omega) (by omega)
  · exact .refl

theorem pushPixels_writes (n total : Nat) (emit : Nat → Byte → Memory → Memory) (color : Bool)
    (he : ∀ k v m, WritesBelow n m (emit k v m)) (len : Nat) (c c' : Cursor)
    (h : pushPixels total emit color len c = .ok c') : WritesBelow n c.fb c'.fb := by
  induction len generalizing c with
  | zero => cases h; exact .refl
  | succ len ih =>
    unfold pushPixels at h
    split at h
    · cases h
    · split at h
      · exact (he _ _ _).trans (ih _ h)
      · have := ih _ h
        exact this

theorem decodeSpans_writes (p : Params) (res : Memory) (n total : Nat) (emit : Nat → Byte → Memory → Memory)
    (he : ∀ k v m, WritesBelow n m (emit k v m)) (fuel : Nat) (color : Bool) (r : BitReader) (c : Cursor) (m' : Memory)
    (h : decodeSpans p res total emit fuel color r c = .ok m') : WritesBelow n c.fb m' := by
  induction fuel generalizing color r c with
  | zero => cases h
  | succ fuel ih =>
    unfold decodeSpans at h
    split at h
    · split at h
      · cases h
      · split at h
        · cases h
        · rename_i hp
          exact (pushPixels_writes n total emit color he _ _ _ hp).trans (ih _ _ _ h)
    · cases h; exact .refl

theorem drawCompressed_writes (s : State) (col : Bool) (x y : Int) (st : Nat) (m' : Memory)
    (h : drawCompressed s col x y st = .ok m') : WritesBelow s.params.fbBytes s.fb m' := by
  unfold drawCompressed at h
  split at h
  · cases h
  · split at h
    · cases h
    · split at h
      · cases h; exact .refl
      · rename_i g hg
        unfold decodeBody at h
        split at h
        · cases h
        · exact decodeSpans_writes _ _ _ _ _ (fun k v m => emitCell_writes _ _ _ _ _ _ hg _ _ _ _) _ _ _ _ _ h

/-! ## The rotation and the glyphs -/

theorem visitPixel_writes (p : Params) (hh : p.height % 8 = 0) (res : Memory) (src : Int) (w : Nat) (selfMask : Bool)
    (v : Visit) (m m' : Memory) (h : visitPixel p res src w selfMask m v = .ok m') : WritesBelow p.fbBytes m m' := by
  unfold visitPixel at h
  split at h
  · cases h
  · split at h
    · cases h; exact .refl
    · exact pixelWrite_writes p hh true _ m m' h

theorem drawRotated_writes (s : State) (hh : s.params.height % 8 = 0) (selfMask : Bool) (b f : Nat) (m' : Memory)
    (h : drawRotated s selfMask b f = .ok m') : WritesBelow s.params.fbBytes s.fb m' := by
  unfold drawRotated at h
  split at h
  · cases h
  · split at h
    · cases h
    · split at h
      · cases h; exact .refl
      · exact foldlM_writes _ _ _ (fun v _ m m' => visitPixel_writes _ hh _ _ _ _ v m m') _ _ h

end Sys2Proof.Machine
end

