-- ==== Sys2Proof/Laws/Blit.lean ====
section
/-! SUPPORT. What the page-split blit does to every pixel, for every combine that acts bit by bit. -/

namespace Sys2Proof.Machine

/-- A combine acts bit by bit as `op`, and `op` leaves a bit alone where neither the image nor the mask has a 1. -/
structure ActsAs (f : Combine) (op : Bool → Bool → Bool → Bool) : Prop where
  bit : ∀ d sb mb j, j < 8 → (f d sb mb).getLsbD j = op (d.getLsbD j) (sb.getLsbD j) (mb.getLsbD j)
  idle : ∀ d, op d false false = d

theorem combineOr_acts : ActsAs combineOr (fun d s _ => d || s) :=
  ⟨fun d sb mb j _ => by simp [combineOr], by simp⟩

theorem combineXor_acts : ActsAs combineXor (fun d s _ => d != s) :=
  ⟨fun d sb mb j _ => by simp [combineXor], by simp⟩

theorem getLsbD_not8 (b : Byte) (j : Nat) (hj : j < 8) : (0xFF ^^^ b).getLsbD j = !b.getLsbD j := by
  rw [BitVec.getLsbD_xor]
  have : (0xFF : Byte).getLsbD j = true := by interval_cases j <;> rfl
  rw [this, Bool.true_xor]

theorem combineClear_acts : ActsAs combineClear (fun d s _ => d && !s) :=
  ⟨fun d sb mb j hj => by simp only [combineClear, BitVec.getLsbD_and, getLsbD_not8 _ _ hj], by simp⟩

theorem combineMasked_acts : ActsAs combineMasked (fun d s m => (d && !m) || s) :=
  ⟨fun d sb mb j hj => by
    simp only [combineMasked, BitVec.getLsbD_or, BitVec.getLsbD_and, getLsbD_not8 _ _ hj], by simp⟩

/-- The bits of the 16-bit intermediate (44_sprite_aligned.md R181). -/
theorem getLsbD_shifted (v : Byte) (yo b : Nat) (hb : b < 16) :
    (shifted v yo).getLsbD b = (decide (yo ≤ b) && v.getLsbD (b - yo)) := by
  unfold shifted
  rw [BitVec.getLsbD_shiftLeft, BitVec.getLsbD_setWidth]
  by_cases h : b < yo
  · simp [h]
  · simp [h, hb, show b - yo < 16 by omega, show yo ≤ b by omega]

theorem pixelRead_write (p : Params) (fb : Memory) (k : Nat) (v : Byte) (X Y : Int) :
    pixelRead p (fb.write k v) X Y =
      if pixelByte p X Y = k then v.getLsbD (pixelBit Y) else pixelRead p fb X Y := by
  unfold pixelRead
  rw [Memory.read_write]
  split <;> rfl

/-- The byte of an on-screen page and column is the byte of a pixel exactly when page and column are the pixel's. -/
theorem pixelByte_eq_fbIndex (p : Params) (X Y pg c : Int) (h : inBuffer p X Y = true) (hpg : onPage p pg = true)
    (h0 : 0 ≤ c) (h1 : c < p.width) : pixelByte p X Y = fbIndex p pg c ↔ Y / 8 = pg ∧ X = c := by
  rw [inBuffer_iff] at h
  rw [onPage_iff] at hpg
  obtain ⟨hx0, hx1, hy0, hy1⟩ := h
  unfold pixelByte fbIndex
  have hq : 0 ≤ Y / 8 := by omega
  have hn : 0 ≤ Y / 8 * (p.width : Int) := by positivity
  have hn' : 0 ≤ pg * (p.width : Int) := mul_nonneg hpg.1 (by omega)
  constructor
  · intro he
    have he : Y / 8 * (p.width : Int) + X = pg * p.width + c := by omega
    have hqq : Y / 8 = pg := by
      rcases lt_trichotomy (Y / 8) pg with hl | hl | hl
      · have : (Y / 8 + 1) * (p.width : Int) ≤ pg * p.width := mul_le_mul_of_nonneg_right (by omega) (by omega)
        rw [add_mul, one_mul] at this; omega
      · exact hl
      · have : (pg + 1) * (p.width : Int) ≤ Y / 8 * p.width := mul_le_mul_of_nonneg_right (by omega) (by omega)
        rw [add_mul, one_mul] at this; omega
    rw [hqq] at he
    omega
  · rintro ⟨rfl, rfl⟩; rfl

/-- The pixel is drawn by cell (a, i) of a bitmap at (x, y). -/
abbrev InCell (x y X Y a i : Int) : Prop := X = x + i ∧ (Y - y) / 8 = a

/-- What one cell does to every pixel: the pixels of its 8 rows get the combine of their source bit, every other pixel
is unchanged. -/
theorem blitCell_pixel (p : Params) (hh : p.height % 8 = 0) (x y : Int) (w h : Nat) (g : BlitGeom)
    (hg : blitGeometry p x y w h = some g) (f : Combine) (op : Bool → Bool → Bool → Bool) (hf : ActsAs f op)
    (a i : Int) (src msk : Byte) (fb : Memory) (h0 : 0 ≤ x + i) (h1 : x + i < p.width) (X Y : Int)
    (hXY : inBuffer p X Y = true) :
    pixelRead p (blitCell p g x f a i src msk fb) X Y =
      if InCell x y X Y a i then
        op (pixelRead p fb X Y) (src.getLsbD ((Y - y) % 8).toNat) (msk.getLsbD ((Y - y) % 8).toNat)
      else pixelRead p fb X Y := by
  obtain ⟨_, _, _, _, _, hrow, hyo, _, _⟩ := blitGeometry_cases p x y w h g hg
  have hb := (inBuffer_iff p X Y).1 hXY
  have hpg : onPage p (Y / 8) = true := by rw [onPage_iff]; unfold Params.pages; omega
  have hq : pixelBit Y = (Y % 8).toNat := rfl
  have hyo8 : g.yo < 8 := by omega
  have hy : y = 8 * g.sRow + g.yo := by omega
  -- the effect of one of the two writes
  have hone : ∀ (m : Memory) (pg : Int) (off : Nat), off = 0 ∨ off = 8 → onPage p pg = true →
      pixelRead p (combineAt m (fbIndex p pg (x + i)) f ((shifted src g.yo).extractLsb' off 8)
        ((shifted msk g.yo).extractLsb' off 8)) X Y =
      if Y / 8 = pg ∧ X = x + i then
        op (pixelRead p m X Y) (decide (g.yo ≤ off + pixelBit Y) && src.getLsbD (off + pixelBit Y - g.yo))
          (decide (g.yo ≤ off + pixelBit Y) && msk.getLsbD (off + pixelBit Y - g.yo))
      else pixelRead p m X Y := by
    intro m pg off hoff hpg'
    unfold combineAt
    rw [pixelRead_write]
    have hj := pixelBit_lt Y
    by_cases hc : Y / 8 = pg ∧ X = x + i
    · have hk := (pixelByte_eq_fbIndex p X Y pg (x + i) hXY hpg' h0 h1).2 hc
      rw [if_pos hk, if_pos hc, hf.bit _ _ _ _ hj, BitVec.getLsbD_extractLsb', BitVec.getLsbD_extractLsb',
        getLsbD_shifted _ _ _ (by omega), getLsbD_shifted _ _ _ (by omega), ← hk]
      simp [hj, pixelRead]
    · have hk : ¬ pixelByte p X Y = fbIndex p pg (x + i) := fun e =>
        hc ((pixelByte_eq_fbIndex p X Y pg (x + i) hXY hpg' h0 h1).1 e)
      rw [if_neg hk, if_neg hc]
  have hlo : pixelRead p (if g.loOk p a = true then combineAt fb (fbIndex p (g.sRow + a) (x + i)) f
        ((shifted src g.yo).extractLsb' 0 8) ((shifted msk g.yo).extractLsb' 0 8) else fb) X Y =
      if Y / 8 = g.sRow + a ∧ X = x + i then
        op (pixelRead p fb X Y) (decide (g.yo ≤ 0 + pixelBit Y) && src.getLsbD (0 + pixelBit Y - g.yo))
          (decide (g.yo ≤ 0 + pixelBit Y) && msk.getLsbD (0 + pixelBit Y - g.yo))
      else pixelRead p fb X Y := by
    by_cases hok : g.loOk p a = true
    · rw [if_pos hok, hone fb _ 0 (.inl rfl) hok]
    · rw [if_neg hok, if_neg]
      rintro ⟨e, _⟩
      exact hok (by unfold BlitGeom.loOk; rw [← e]; exact hpg)
  unfold blitCell
  dsimp only
  by_cases hhi : g.hiOk p a = true
  · have hok : onPage p (g.sRow + a + 1) = true := by
      simp only [BlitGeom.hiOk, Bool.and_eq_true] at hhi; exact hhi.2
    rw [if_pos hhi, hone _ _ 8 (.inr rfl) hok, hlo]
    by_cases hc : InCell x y X Y a i
    · obtain ⟨hX, ha⟩ := hc
      rw [if_pos (show InCell x y X Y a i from ⟨hX, ha⟩)]
      by_cases hl : Y / 8 = g.sRow + a
      · have hr : ((Y - y) % 8).toNat = pixelBit Y - g.yo := by omega
        rw [if_neg (by omega), if_pos ⟨hl, hX⟩, hr]
        have hle : g.yo ≤ pixelBit Y := by omega
        simp [hle]
      · have hr : ((Y - y) % 8).toNat = 8 + pixelBit Y - g.yo := by omega
        have hle : g.yo ≤ 8 + pixelBit Y := by omega
        rw [if_pos ⟨by omega, hX⟩, if_neg (fun e => hl e.1), hr]
        simp [hle]
    · rw [if_neg hc]
      by_cases hl : Y / 8 = g.sRow + a ∧ X = x + i
      · have hlt : ¬ g.yo ≤ pixelBit Y := by
          intro hle; exact hc ⟨hl.2, by omega⟩
        rw [if_neg (by omega), if_pos hl]
        simp [hlt, hf.idle]
      · rw [if_neg hl]
        by_cases hu : Y / 8 = g.sRow + a + 1 ∧ X = x + i
        · rw [if_pos hu]
          have hge : 8 ≤ 8 + pixelBit Y - g.yo := by
            by_contra hlt; exact hc ⟨hu.2, by omega⟩
          rw [BitVec.getLsbD_of_ge _ _ hge, BitVec.getLsbD_of_ge _ _ hge]
          simp [hf.idle]
        · rw [if_neg hu]
  · rw [if_neg hhi, hlo]
    have hhi' : g.yo = 0 ∨ onPage p (g.sRow + a + 1) = false := by
      simp only [BlitGeom.hiOk, Bool.and_eq_true, bne_iff_ne, not_and, Bool.not_eq_true] at hhi
      by_cases e : g.yo = 0
      · exact .inl e
      · exact .inr (hhi e)
    have hno : g.yo = 0 ∨ Y / 8 ≠ g.sRow + a + 1 := hhi'.imp id fun e e' => by rw [← e', hpg] at e; cases e
    by_cases hc : InCell x y X Y a i
    · obtain ⟨hX, ha⟩ := hc
      rw [if_pos (show InCell x y X Y a i from ⟨hX, ha⟩)]
      have hl : Y / 8 = g.sRow + a := by omega
      have hr : ((Y - y) % 8).toNat = pixelBit Y - g.yo := by omega
      have hle : g.yo ≤ pixelBit Y := by omega
      rw [if_pos ⟨hl, hX⟩, hr]
      simp [hle]
    · rw [if_neg hc]
      by_cases hl : Y / 8 = g.sRow + a ∧ X = x + i
      · have hlt : ¬ g.yo ≤ pixelBit Y := by
          intro hle; exact hc ⟨hl.2, by omega⟩
        rw [if_pos hl]
        simp [hlt, hf.idle]
      · rw [if_neg hl]

/-- The pixels of a blit's cells in any order, each cell once: what a list of cell writes does to every pixel. -/
theorem cellFold_pixel (p : Params) (hh : p.height % 8 = 0) (x y : Int) (w h : Nat) (g : BlitGeom)
    (hg : blitGeometry p x y w h = some g) (f : Combine) (op : Bool → Bool → Bool → Bool) (hf : ActsAs f op)
    (src msk : Int × Int → Byte) (cells : List (Int × Int)) (hnd : cells.Nodup)
    (hcol : ∀ c ∈ cells, 0 ≤ x + c.2 ∧ x + c.2 < p.width) (fb : Memory) (X Y : Int) (hXY : inBuffer p X Y = true) :
    pixelRead p (cells.foldl (fun m c => blitCell p g x f c.1 c.2 (src c) (msk c) m) fb) X Y =
      if ((Y - y) / 8, X - x) ∈ cells then
        op (pixelRead p fb X Y) ((src ((Y - y) / 8, X - x)).getLsbD ((Y - y) % 8).toNat)
          ((msk ((Y - y) / 8, X - x)).getLsbD ((Y - y) % 8).toNat)
      else pixelRead p fb X Y := by
  induction cells generalizing fb with
  | nil => simp
  | cons c cells ih =>
    rw [List.foldl_cons, ih (List.nodup_cons.1 hnd).2 (fun d hd => hcol d (by simp [hd]))]
    have hc := hcol c (by simp)
    rw [blitCell_pixel p hh x y w h g hg f op hf c.1 c.2 _ _ fb hc.1 hc.2 X Y hXY]
    by_cases hin : InCell x y X Y c.1 c.2
    · have he : ((Y - y) / 8, X - x) = c := by
        obtain ⟨hX, ha⟩ := hin
        exact Prod.ext ha (by rw [hX]; ring)
      have hnot : c ∉ cells := (List.nodup_cons.1 hnd).1
      rw [he, if_pos hin, if_neg hnot, if_pos (by simp)]
    · rw [if_neg hin]
      have hne : ((Y - y) / 8, X - x) ≠ c := by
        rintro rfl; exact hin ⟨by ring, rfl⟩
      by_cases hm : ((Y - y) / 8, X - x) ∈ cells
      · rw [if_pos hm, if_pos (by simp [hm])]
      · rw [if_neg hm, if_neg]
        intro hmem
        rcases List.mem_cons.1 hmem with e | e
        · exact hne e
        · exact hm e

theorem nodup_intRange (lo hi : Int) : (intRange lo hi).Nodup := by
  unfold intRange
  exact List.nodup_range.map fun a b h => by simpa using h

theorem mem_visibleCells (p : Params) (g : BlitGeom) (c : Int × Int) :
    c ∈ visibleCells p g ↔ 0 ≤ c.1 ∧ c.1 < g.rows ∧ g.rowVisible p c.1 = true ∧ g.ilo ≤ c.2 ∧ c.2 ≤ g.ihi := by
  simp only [visibleCells, List.mem_flatMap, mem_intRange]
  constructor
  · rintro ⟨a, ha, hc⟩
    split at hc
    · rename_i hv
      simp only [List.mem_map, mem_intRange] at hc
      obtain ⟨i, hi, rfl⟩ := hc
      exact ⟨ha.1, ha.2, hv, hi.1, by omega⟩
    · cases hc
  · rintro ⟨h0, h1, hv, hlo, hhi⟩
    refine ⟨c.1, ⟨h0, h1⟩, ?_⟩
    rw [if_pos hv]
    simp only [List.mem_map, mem_intRange]
    exact ⟨c.2, ⟨hlo, by omega⟩, rfl⟩

theorem nodup_visibleCells (p : Params) (g : BlitGeom) : (visibleCells p g).Nodup := by
  unfold visibleCells
  rw [List.nodup_flatMap]
  refine ⟨fun a _ => ?_, ?_⟩
  · split
    · exact (nodup_intRange _ _).map fun a b h => by simpa using h
    · exact List.nodup_nil
  · refine (nodup_intRange _ _).imp fun {a b} hab => ?_
    intro c hc hc'
    dsimp only at hc hc'
    split at hc
    · split at hc'
      · simp only [List.mem_map] at hc hc'
        obtain ⟨_, _, rfl⟩ := hc
        obtain ⟨_, _, h⟩ := hc'
        exact hab (congrArg Prod.fst h).symm
      · cases hc'
    · cases hc

/-- A pixel of the buffer under a source pixel lies in a visible cell. -/
theorem visible_of_pixel (p : Params) (hh : p.height % 8 = 0) (x y : Int) (w h : Nat) (g : BlitGeom)
    (hg : blitGeometry p x y w h = some g) (X Y : Int) (hXY : inBuffer p X Y = true) :
    ((Y - y) / 8, X - x) ∈ visibleCells p g ↔
      x ≤ X ∧ X < x + w ∧ y ≤ Y ∧ Y < y + 8 * ((h + 7) / 8 : Nat) := by
  obtain ⟨_, _, _, _, hrows, hrow, hyo, hlo, hhi⟩ := blitGeometry_cases p x y w h g hg
  have hb := (inBuffer_iff p X Y).1 hXY
  rw [mem_visibleCells]
  dsimp only
  constructor
  · rintro ⟨h0, h1, _, h2, h3⟩
    refine ⟨by omega, by omega, by omega, by omega⟩
  · rintro ⟨h1, h2, h3, h4⟩
    refine ⟨by omega, by omega, ?_, by omega, by omega⟩
    unfold BlitGeom.rowVisible BlitGeom.loOk BlitGeom.hiOk
    by_cases hl : Y / 8 = g.sRow + (Y - y) / 8
    · have : onPage p (g.sRow + (Y - y) / 8) = true := by
        rw [onPage_iff]; unfold Params.pages; omega
      simp [this]
    · have h5 : onPage p (g.sRow + (Y - y) / 8 + 1) = true := by
        rw [onPage_iff]; unfold Params.pages; omega
      have h6 : g.yo ≠ 0 := by omega
      simp [h5, h6]

/-- The visible cells are the cells of the bitmap that have a pixel on the screen. -/
theorem mem_visibleCells_iff (p : Params) (hh : p.height % 8 = 0) (h8 : 8 ≤ p.height) (x y : Int) (w h : Nat) (g : BlitGeom)
    (hg : blitGeometry p x y w h = some g) (c : Int × Int) :
    c ∈ visibleCells p g ↔ 0 ≤ c.1 ∧ c.1 < ((h + 7) / 8 : Nat) ∧ 0 ≤ c.2 ∧ c.2 < w ∧
      cellVisible p x y c.1.toNat c.2.toNat := by
  obtain ⟨_, _, h3, h4, hrows, hrow, hyo, hlo, hhi⟩ := blitGeometry_cases p x y w h g hg
  rw [mem_visibleCells]
  unfold cellVisible BlitGeom.rowVisible BlitGeom.loOk BlitGeom.hiOk
  simp only [Bool.or_eq_true, Bool.and_eq_true, bne_iff_ne, onPage_iff, Params.pages]
  constructor
  · rintro ⟨h0, h1, hv, h2, h5⟩
    refine ⟨h0, by omega, by omega, by omega, by omega, by omega, ?_, ?_⟩ <;> rcases hv with hv | hv <;> omega
  · rintro ⟨h0, h1, h2, h5, h6, h7, h8, h9⟩
    refine ⟨h0, by omega, ?_, by omega, by omega⟩
    by_cases hneg : g.sRow + c.1 < 0
    · right; omega
    · left; omega

/-- A fold of steps that succeed or end in `e` ends in `e` where one of them does. -/
theorem foldlM_error {α β : Type} (f : β → α → Except Undefined β) (e : Undefined) (l : List α)
    (hf : ∀ a ∈ l, ∀ m, f m a = .error e ∨ ∃ m', f m a = .ok m') (h : ∃ a ∈ l, ∀ m, f m a = .error e) (m : β) :
    l.foldlM f m = .error e := by
  induction l generalizing m with
  | nil => obtain ⟨a, ha, _⟩ := h; cases ha
  | cons b l ih =>
    rw [List.foldlM_cons]
    rcases hf b (by simp) m with hb | ⟨m', hb⟩
    · rw [hb]; rfl
    · rw [hb]
      obtain ⟨a, ha, he⟩ := h
      rcases List.mem_cons.1 ha with rfl | ha
      · rw [he] at hb; cases hb
      · exact ih (fun a ha => hf a (by simp [ha])) ⟨a, ha, he⟩ m'

/-- A blit one of whose visible cells cannot be fetched ends in UNDEFINED (44_sprite_aligned.md R181). -/
theorem blitCells_unreadable (p : Params) (hh : p.height % 8 = 0) (h8 : 8 ≤ p.height) (x y : Int) (w h : Nat)
    (hs : onScreen p x y w h) (fetch : Fetch) (e : Undefined) (hf : ∀ a i, fetch a i = .error e ∨ ∃ v, fetch a i = .ok v)
    (he : ∃ a i : Nat, a < (h + 7) / 8 ∧ i < w ∧ cellVisible p x y a i ∧ fetch a i = .error e) (f : Combine)
    (fb : Memory) : blitCells p x y w h fetch f fb = .error e := by
  obtain ⟨hs1, hs2, hs3, hs4⟩ := hs
  obtain ⟨g, hg⟩ : ∃ g, blitGeometry p x y w h = some g := by
    unfold blitGeometry; rw [if_neg (by omega)]; exact ⟨_, rfl⟩
  obtain ⟨a, i, ha, hi, hv, he⟩ := he
  unfold blitCells
  rw [hg]
  refine foldlM_error _ e _ (fun c _ m => ?_) ⟨((a : Int), (i : Int)), ?_, fun m => ?_⟩ fb
  · unfold blitStep
    rcases hf c.1 c.2 with h | ⟨v, h⟩
    · left; rw [h]
    · right; rw [h]; exact ⟨_, rfl⟩
  · rw [mem_visibleCells_iff p hh h8 x y w h g hg]
    exact ⟨by simp, Int.ofNat_lt.2 ha, by simp, Int.ofNat_lt.2 hi, hv⟩
  · unfold blitStep; rw [he]

/-- BlitCells pixel by pixel (44_sprite_aligned.md R181, R184): where every visible cell can be fetched, every pixel of the
buffer under a source pixel becomes the combine of it, its image bit and its mask bit; nothing else changes. -/
theorem blitCells_pixels (p : Params) (hh : p.height % 8 = 0) (h8 : 8 ≤ p.height) (x y : Int) (w h : Nat)
    (hs : onScreen p x y w h) (fetch : Fetch) (src msk : Int × Int → Byte)
    (hfetch : ∀ c : Int × Int, 0 ≤ c.1 → c.1 < ((h + 7) / 8 : Nat) → 0 ≤ c.2 → c.2 < w →
      cellVisible p x y c.1.toNat c.2.toNat → fetch c.1 c.2 = .ok (src c, msk c))
    (f : Combine) (op : Bool → Bool → Bool → Bool) (hf : ActsAs f op) (fb : Memory) :
    ∃ fb', blitCells p x y w h fetch f fb = .ok fb' ∧
      (∀ X Y, inBuffer p X Y = true → pixelRead p fb' X Y =
        if x ≤ X ∧ X < x + w ∧ y ≤ Y ∧ Y < y + 8 * ((h + 7) / 8 : Nat) then
          op (pixelRead p fb X Y) ((src ((Y - y) / 8, X - x)).getLsbD ((Y - y) % 8).toNat)
            ((msk ((Y - y) / 8, X - x)).getLsbD ((Y - y) % 8).toNat)
        else pixelRead p fb X Y) ∧
      ∀ k, p.fbBytes ≤ k → fb'.read k = fb.read k := by
  obtain ⟨hs1, hs2, hs3, hs4⟩ := hs
  obtain ⟨g, hg⟩ : ∃ g, blitGeometry p x y w h = some g := by
    unfold blitGeometry; rw [if_neg (by omega)]; exact ⟨_, rfl⟩
  obtain ⟨_, _, _, _, hrows, _, _, hlo, hhi⟩ := blitGeometry_cases p x y w h g hg
  have hfold : ∀ (cells : List (Int × Int)) (m : Memory), (∀ c ∈ cells, c ∈ visibleCells p g) →
      cells.foldlM (blitStep p g x fetch f) m =
        .ok (cells.foldl (fun m c => blitCell p g x f c.1 c.2 (src c) (msk c) m) m) := by
    intro cells
    induction cells with
    | nil => intro m _; rfl
    | cons c cells ih =>
      intro m hc
      have hm := (mem_visibleCells_iff p hh h8 x y w h g hg c).1 (hc c (by simp))
      rw [List.foldlM_cons, List.foldl_cons]
      have : blitStep p g x fetch f m c = .ok (blitCell p g x f c.1 c.2 (src c) (msk c) m) := by
        unfold blitStep; rw [hfetch c hm.1 hm.2.1 hm.2.2.1 hm.2.2.2.1 hm.2.2.2.2]
      rw [this]
      exact ih _ (fun d hd => hc d (by simp [hd]))
  have heq : blitCells p x y w h fetch f fb = .ok ((visibleCells p g).foldl
      (fun m c => blitCell p g x f c.1 c.2 (src c) (msk c) m) fb) := by
    unfold blitCells; rw [hg]; exact hfold _ fb (fun _ h => h)
  refine ⟨_, heq, fun X Y hXY => ?_, fun k hk => ?_⟩
  · rw [cellFold_pixel p hh x y w h g hg f op hf src msk _ (nodup_visibleCells p g)
      (fun c hc => visibleCells_column p x y w h g hg c hc) fb X Y hXY]
    simp only [visible_of_pixel p hh x y w h g hg X Y hXY]
  · exact (blitCells_writes p x y w h fetch f fb _ heq).read_outside k hk

/-! ## Fetches -/

theorem wf_height (p : Params) (h : p.wf = true) : p.height % 8 = 0 := by
  simp only [Params.wf, Bool.and_eq_true, decide_eq_true_eq] at h; tauto

theorem wf_height_pos (p : Params) (h : p.wf = true) : 8 ≤ p.height := by
  simp only [Params.wf, Bool.and_eq_true, decide_eq_true_eq] at h; tauto

/-- A read inside a readable run answers the byte there. -/
theorem resRead_readable (p : Params) (res : Memory) (a n k : Nat) (h : resReadable p a n) (hk : k < n) (z : Int)
    (hz : z = ((a + k : Nat) : Int)) : resRead p res z = .ok (res.read ((a + k) % 65536)) := by
  have : resAddr z = (a + k) % 65536 := by unfold resAddr; omega
  rw [resRead_ok, this]; rw [this]; exact h k hk

theorem cellIndex_lt (w rows a i : Nat) (ha : a < rows) (hi : i < w) : a * w + i < w * rows := by
  have : (a + 1) * w ≤ rows * w := Nat.mul_le_mul_right _ ha
  rw [Nat.add_mul, Nat.one_mul] at this
  rw [Nat.mul_comm w rows]; omega

/-- A read at an address: the byte there, or UNDEFINED(RES_RANGE) (20_memory.md R57). -/
theorem resRead_nat (p : Params) (res : Memory) (n : Nat) :
    resRead p res n = if n % 65536 < p.resSize then .ok (res.read (n % 65536)) else .error .resRange := by
  have : resAddr (n : Int) = n % 65536 := by unfold resAddr; omega
  unfold resRead; rw [this]

/-- The one-byte fetch of a cell. -/
theorem fetchPlain_nat (p : Params) (res : Memory) (img w : Nat) (m : Byte) (a i : Nat) :
    fetchPlain p res img w m a i = if (img + (a * w + i)) % 65536 < p.resSize then
      .ok (res.read ((img + (a * w + i)) % 65536), m) else .error .resRange := by
  unfold fetchPlain
  rw [show ((img : Int) + ((a : Int) * w + i)) = ((img + (a * w + i) : Nat) : Int) by push_cast; ring, resRead_nat]
  by_cases h : (img + (a * w + i)) % 65536 < p.resSize
  · rw [if_pos h, if_pos h]
  · rw [if_neg h, if_neg h]

/-- The one-byte fetch fails only for want of the byte. -/
theorem fetchPlain_cases (p : Params) (res : Memory) (img : Int) (w : Nat) (m : Byte) (a i : Int) :
    fetchPlain p res img w m a i = .error .resRange ∨ ∃ v, fetchPlain p res img w m a i = .ok v := by
  unfold fetchPlain resRead
  split
  · exact .inr ⟨_, rfl⟩
  · rename_i h
    split at h <;> cases h
    exact .inl rfl

/-- The two-byte fetch of a cell: both bytes, or UNDEFINED(RES_RANGE) where one cannot be read. -/
theorem fetchPair_nat (p : Params) (res : Memory) (fs fm : Nat → Nat) (srcAt mskAt : Int → Int → Int) (w : Nat)
    (es : ∀ a i : Nat, srcAt a i = fs (a * w + i)) (em : ∀ a i : Nat, mskAt a i = fm (a * w + i)) (a i : Nat) :
    fetchPair p res srcAt mskAt a i =
      if fs (a * w + i) % 65536 < p.resSize ∧ fm (a * w + i) % 65536 < p.resSize then
        .ok (res.read (fs (a * w + i) % 65536), res.read (fm (a * w + i) % 65536))
      else .error .resRange := by
  unfold fetchPair
  rw [es, em, resRead_nat, resRead_nat]
  by_cases h1 : fs (a * w + i) % 65536 < p.resSize <;> by_cases h2 : fm (a * w + i) % 65536 < p.resSize <;>
    simp [h1, h2]

/-- The two-byte fetch fails only for want of a byte. -/
theorem fetchPair_cases (p : Params) (res : Memory) (srcAt mskAt : Int → Int → Int) (a i : Int) :
    fetchPair p res srcAt mskAt a i = .error .resRange ∨ ∃ v, fetchPair p res srcAt mskAt a i = .ok v := by
  unfold fetchPair resRead
  by_cases h1 : resAddr (srcAt a i) < p.resSize <;> by_cases h2 : resAddr (mskAt a i) < p.resSize <;> simp [h1, h2]

/-! ## Folds that touch a pixel at most once -/

theorem fold_untouched {α : Type} (p : Params) (l : List α) (put : Memory → α → Memory) (X Y : Int) (fb : Memory)
    (h : ∀ i ∈ l, ∀ m, pixelRead p (put m i) X Y = pixelRead p m X Y) :
    pixelRead p (l.foldl put fb) X Y = pixelRead p fb X Y := by
  induction l generalizing fb with
  | nil => rfl
  | cons i l ih => rw [List.foldl_cons, ih _ (fun j hj => h j (by simp [hj])), h i (by simp)]

theorem fold_once {α : Type} (p : Params) (l : List α) (put : Memory → α → Memory) (X Y : Int) (fb : Memory)
    (hnd : l.Nodup) (i0 : α) (hi0 : i0 ∈ l) (v : Bool → Bool)
    (h0 : ∀ m, pixelRead p (put m i0) X Y = v (pixelRead p m X Y))
    (h : ∀ i ∈ l, i ≠ i0 → ∀ m, pixelRead p (put m i) X Y = pixelRead p m X Y) :
    pixelRead p (l.foldl put fb) X Y = v (pixelRead p fb X Y) := by
  induction l generalizing fb with
  | nil => cases hi0
  | cons i l ih =>
    rw [List.foldl_cons]
    obtain ⟨hni, hnd⟩ := List.nodup_cons.1 hnd
    by_cases e : i = i0
    · subst e
      rw [fold_untouched p l put X Y _ (fun j hj => h j (by simp [hj]) (fun e => hni (e ▸ hj))), h0]
    · rw [ih _ hnd (by rcases List.mem_cons.1 hi0 with e' | e'; exact absurd e'.symm e; exact e')
        (fun j hj => h j (by simp [hj])), h i (by simp) e]

end Sys2Proof.Machine
end

