-- ==== Sys2Proof/Laws/Affine.lean ====
section
/-! SUPPORT. The walk of DRAWROT in closed form, and what its visits do to a pixel. -/

namespace Sys2Proof.Machine

theorem toWord_add (a b : Int) : toWord a + toWord b = toWord (a + b) := (BitVec.ofInt_add a b).symm

theorem toWord_sub (a b : Int) : toWord a - toWord b = toWord (a - b) := by
  have h : toWord (a - b) + toWord b = toWord a := by rw [toWord_add, sub_add_cancel]
  rw [← h, BitVec.add_sub_cancel]

/-- The integer part of an 8.8 accumulator (47_affine.md R270). -/
theorem intPart_toWord (z : Int) : intPart (toWord z) = z % 65536 / 256 := by
  unfold intPart toWord
  rw [BitVec.extractLsb'_toNat, BitVec.toNat_ofInt, Nat.shiftRight_eq_div_pow]
  have : (z % ((2 ^ 16 : Nat) : Int)).toNat / 2 ^ 8 % 2 ^ 8 = (z % 65536 / 256).toNat := by
    norm_num; omega
  rw [this]
  omega

/-- One column's visits (47_affine.md R268). -/
theorem walkRows_eq (C S : Int) (i n j : Nat) (zx zy : Int) :
    walkRows (toWord C) (toWord S) i n j (toWord zx) (toWord zy) =
      (List.range n).map fun k => ⟨i, j + k, toWord (zx - k * S), toWord (zy + k * C)⟩ := by
  induction n generalizing j zx zy with
  | zero => rfl
  | succ n ih =>
    rw [List.range_succ_eq_map, List.map_cons, List.map_map]
    unfold walkRows
    rw [toWord_sub, toWord_add, ih]
    refine List.cons_eq_cons.2 ⟨by simp, List.map_congr_left fun k _ => ?_⟩
    simp only [Function.comp_apply, Visit.mk.injEq, true_and]
    refine ⟨by omega, ?_, ?_⟩ <;> congr 1 <;> push_cast <;> ring

/-- All visits (47_affine.md R268): source pixel (i, j) at (x + i C - j S, y + i S + j C). -/
theorem walkColumns_eq (C S : Int) (h n i : Nat) (zx zy : Int) :
    walkColumns (toWord C) (toWord S) h n i (toWord zx) (toWord zy) =
      (List.range n).flatMap fun m => (List.range h).map fun k =>
        ⟨i + m, k, toWord (zx + m * C - k * S), toWord (zy + m * S + k * C)⟩ := by
  induction n generalizing i zx zy with
  | zero => rfl
  | succ n ih =>
    rw [List.range_succ_eq_map, List.flatMap_cons, List.flatMap_map]
    unfold walkColumns
    rw [toWord_add, toWord_add, ih, walkRows_eq]
    congr 1
    · simp
    · refine List.flatMap_congr fun m _ => List.map_congr_left fun k _ => ?_
      simp only [Visit.mk.injEq, true_and]
      refine ⟨by omega, ?_, ?_⟩ <;> congr 1 <;> push_cast <;> ring

/-- The sine below 360 degrees, quadrant by quadrant (47_affine.md R260). -/
theorem sinQ_eq (p : Params) (d : Nat) (hd : d < 360) : sinQ p d = sineOf p d := by
  unfold sinQ sinHalf sineOf
  by_cases h1 : d < 90
  · simp [h1, show ¬ 180 ≤ d by omega]
  · by_cases h2 : d = 90
    · subst h2; rfl
    · by_cases h3 : d < 180
      · simp [h1, h2, h3, show ¬ 180 ≤ d by omega]
      · by_cases h4 : d < 270
        · simp [h1, h2, h3, h4, show 180 ≤ d by omega, show d - 180 < 90 by omega]
        · by_cases h5 : d = 270
          · subst h5; rfl
          · simp [h1, h2, h3, h4, h5, show 180 ≤ d by omega, show ¬ d - 180 < 90 by omega,
              show d - 180 ≠ 90 by omega, show 180 - (d - 180) = 360 - d by omega]

theorem rotSin_eq (p : Params) (A : Int) : rotSin p A = sineOf p (A % 360).toNat := by
  unfold rotSin normAngle; exact sinQ_eq p _ (by omega)

theorem rotCos_eq (p : Params) (A : Int) : rotCos p A = sineOf p ((A + 90) % 360).toNat := by
  unfold rotCos normAngle
  rw [sinQ_eq p _ (by omega)]
  congr 1
  omega

theorem scaledInc_sin (p : Params) (A : Int) (percent : Nat) : scaledInc (rotSin p A) percent = sineStep p A percent := by
  rw [rotSin_eq]; rfl

theorem scaledInc_cos (p : Params) (A : Int) (percent : Nat) :
    scaledInc (rotCos p A) percent = sineStep p (A + 90) percent := by
  rw [rotCos_eq]; rfl

/-- The visits of a rotation, in order: columns outer, rows inner, each where `landsX` and `landsY` say
(47_affine.md R267, R268, R270). -/
theorem rotVisits_eq (p : Params) (x y : Int) (w h : Nat) (A : Int) (percent : Nat) :
    ∃ px py : Nat → Nat → Word,
      rotVisits p x y w h A percent =
        ((List.range w).flatMap fun i => (List.range h).map fun j => ⟨i, j, px i j, py i j⟩) ∧
      (∀ i j, intPart (px i j) = landsX p x w h A percent i j) ∧
      (∀ i j, intPart (py i j) = landsY p y w h A percent i j) := by
  refine ⟨fun i j => toWord ((x + (w / 2 : Nat)) * 256 - ((w / 2 : Nat) * sineStep p (A + 90) percent -
      (h / 2 : Nat) * sineStep p A percent) + i * sineStep p (A + 90) percent - j * sineStep p A percent),
    fun i j => toWord ((y + (h / 2 : Nat)) * 256 - ((w / 2 : Nat) * sineStep p A percent +
      (h / 2 : Nat) * sineStep p (A + 90) percent) + i * sineStep p A percent + j * sineStep p (A + 90) percent),
    ?_, fun i j => intPart_toWord _, fun i j => intPart_toWord _⟩
  unfold rotVisits
  dsimp only
  rw [scaledInc_sin, scaledInc_cos]
  unfold anchorX anchorY
  rw [walkColumns_eq]
  simp only [Nat.zero_add]

/-- The visits come in strictly rising order of column, then row. -/
theorem visits_ordered (w h : Nat) (px py : Nat → Nat → Word) :
    ((List.range w).flatMap fun i => (List.range h).map fun j => (⟨i, j, px i j, py i j⟩ : Visit)).Pairwise
      (fun u v => u.i < v.i ∨ (u.i = v.i ∧ u.j < v.j)) := by
  rw [List.pairwise_flatMap]
  refine ⟨fun i _ => ?_, ?_⟩
  · rw [List.pairwise_map]
    exact List.pairwise_lt_range.imp fun h => .inr ⟨rfl, h⟩
  · refine List.pairwise_lt_range.imp fun {a b} hab u hu v hv => ?_
    simp only [List.mem_map] at hu hv
    obtain ⟨_, _, rfl⟩ := hu
    obtain ⟨_, _, rfl⟩ := hv
    exact .inl hab

theorem mem_visits (w h : Nat) (px py : Nat → Nat → Word) (v : Visit) :
    v ∈ ((List.range w).flatMap fun i => (List.range h).map fun j => (⟨i, j, px i j, py i j⟩ : Visit)) ↔
      v.i < w ∧ v.j < h ∧ v.px = px v.i v.j ∧ v.py = py v.i v.j := by
  simp only [List.mem_flatMap, List.mem_map, List.mem_range]
  constructor
  · rintro ⟨i, hi, j, hj, rfl⟩; exact ⟨hi, hj, rfl, rfl⟩
  · rintro ⟨hi, hj, e1, e2⟩
    exact ⟨v.i, hi, v.j, hj, by rw [← e1, ← e2]⟩

/-- What one visit does to a pixel, where its source pixel can be read (47_affine.md R270). -/
theorem visitPixel_pixel (p : Params) (res : Memory) (src : Int) (w : Nat) (selfMask : Bool) (fb : Memory) (v : Visit)
    (on : Bool) (h : sourcePixel p res src w v.i v.j = .ok on) :
    ∃ fb', visitPixel p res src w selfMask fb v = .ok fb' ∧ ∀ X Y, inBuffer p X Y = true →
      pixelRead p fb' X Y =
        if intPart v.px = X ∧ intPart v.py = Y ∧ (selfMask = false ∨ on = true) then on else pixelRead p fb X Y := by
  unfold visitPixel
  rw [h]
  dsimp only
  by_cases hs : (selfMask && !on) = true
  · rw [if_pos hs]
    refine ⟨fb, rfl, fun X Y _ => ?_⟩
    rw [if_neg]
    rintro ⟨_, _, h3⟩
    cases selfMask <;> cases on <;> simp_all
  · rw [if_neg hs]
    have hs' : selfMask = false ∨ on = true := by cases selfMask <;> cases on <;> simp_all
    by_cases hb : inBuffer p (intPart v.px) (intPart v.py) = true
    · obtain ⟨fb', hw, hbits⟩ := pixelWrite_inBuffer p true fb ⟨intPart v.px, intPart v.py, on⟩ hb
      refine ⟨fb', hw, fun X Y hXY => ?_⟩
      unfold pixelRead
      rw [hbits _ _ (pixelBit_lt Y)]
      by_cases he : intPart v.px = X ∧ intPart v.py = Y
      · obtain ⟨rfl, rfl⟩ := he
        rw [if_pos ⟨hb, rfl, rfl⟩, if_pos ⟨rfl, rfl, hs'⟩]
      · rw [if_neg, if_neg (fun e => he ⟨e.1, e.2.1⟩)]
        rintro ⟨_, e1, e2⟩
        exact he (pixel_unique p _ _ X Y hb hXY e1 e2)
    · refine ⟨fb, pixelWrite_clipped p fb _ (by simpa using hb), fun X Y hXY => ?_⟩
      rw [if_neg]
      rintro ⟨rfl, rfl, _⟩
      exact hb hXY

/-- A run of visits, where every source pixel can be read: a pixel that no visit writes is unchanged, and a pixel holds
the value of the last visit that writes it (47_affine.md R270, R272). -/
theorem visits_pixel (p : Params) (res : Memory) (src : Int) (w : Nat) (selfMask : Bool) (on : Visit → Bool)
    (l : List Visit) (h : ∀ v ∈ l, sourcePixel p res src w v.i v.j = .ok (on v)) (fb : Memory) :
    ∃ fb', l.foldlM (visitPixel p res src w selfMask) fb = .ok fb' ∧ ∀ X Y, inBuffer p X Y = true →
      ((∀ v ∈ l, ¬ (intPart v.px = X ∧ intPart v.py = Y ∧ (selfMask = false ∨ on v = true))) →
        pixelRead p fb' X Y = pixelRead p fb X Y) ∧
      ∀ l1 v l2, l = l1 ++ v :: l2 → (intPart v.px = X ∧ intPart v.py = Y ∧ (selfMask = false ∨ on v = true)) →
        (∀ u ∈ l2, ¬ (intPart u.px = X ∧ intPart u.py = Y ∧ (selfMask = false ∨ on u = true))) →
        pixelRead p fb' X Y = on v := by
  induction l generalizing fb with
  | nil => exact ⟨fb, rfl, fun X Y _ => ⟨fun _ => rfl, fun l1 v l2 e => by simp at e⟩⟩
  | cons a l ih =>
    obtain ⟨fb1, h1, h2⟩ := visitPixel_pixel p res src w selfMask fb a (on a) (h a (by simp))
    obtain ⟨fb', h3, h4⟩ := ih (fun v hv => h v (by simp [hv])) fb1
    refine ⟨fb', by rw [List.foldlM_cons, h1]; exact h3, fun X Y hXY => ⟨fun hno => ?_, fun l1 v l2 e hv hl2 => ?_⟩⟩
    · rw [(h4 X Y hXY).1 (fun v hv => hno v (by simp [hv])), h2 X Y hXY, if_neg (hno a (by simp))]
    · cases l1 with
      | nil =>
        simp only [List.nil_append, List.cons.injEq] at e
        obtain ⟨rfl, rfl⟩ := e
        rw [(h4 X Y hXY).1 hl2, h2 X Y hXY, if_pos hv]
      | cons b l1 =>
        simp only [List.cons_append, List.cons.injEq] at e
        exact (h4 X Y hXY).2 l1 v l2 e.2 hv hl2

/-- A source pixel of a readable frame (47_affine.md R269). -/
theorem sourcePixel_readable (p : Params) (res : Memory) (src w h i j : Nat)
    (hr : resReadable p src (cellCount w h)) (hi : i < w) (hj : j < h) :
    sourcePixel p res src w i j = .ok (resBit res (src + cellIndex w i j) j) := by
  unfold sourcePixel
  rw [resRead_readable p res src _ (j / 8 * w + i) hr (cellIndex_lt _ _ _ _ (by omega) hi) _ (by push_cast; ring)]
  rfl

end Sys2Proof.Machine
end

