-- ==== Sys2Proof/Laws/HostPort.lean ====
section
/-! SUPPORT. The host port's decoding of an offset, said once: which accesses are admitted, which offsets are registers,
which are bytes of the window. -/

namespace Sys2Proof.Machine

/-- A step performs the oldest input. -/
theorem step_perform (s : State) (e : Input) (rest : List Input) (h : s.pending = e :: rest) :
    step s = perform e { s with pending := rest } := by
  unfold step; rw [h]

/-- A register's offset is even, below the window, and its own. -/
theorem Reg.offset_facts (r : Reg) :
    admits16 r.offset = true ∧ r.offset.toNat < 0x400 ∧ regAt r.offset.toNat = some r := by
  cases r with
  | arg i => revert i; decide
  | _ => decide

/-- Reserved and unmapped offsets hold no register. -/
theorem regAt_none (n : Nat) (h : n = 0xC ∨ n = 0xE ∨ 0x2C ≤ n) : regAt n = none := by
  unfold regAt
  split <;> first | omega | rfl

/-- Offset 0x400 + k of the window is FB byte k. -/
theorem windowIndex_window (p : Params) (off k : Nat) (h : off = 0x400 + k) (hk : k < p.fbBytes) :
    windowIndex p off = some k := by
  unfold windowIndex windowBase
  rw [if_pos (by omega), h, Nat.add_sub_cancel_left]

/-- No offset outside the window is an FB byte. -/
theorem windowIndex_outside (p : Params) (off : Nat) (h : off < 0x400 ∨ 0x400 + p.fbBytes ≤ off) :
    windowIndex p off = none := by
  unfold windowIndex windowBase
  rw [if_neg (by omega)]

/-- An FB byte of the window is one of FB's. -/
theorem windowIndex_lt (p : Params) (off k : Nat) (h : windowIndex p off = some k) :
    off = 0x400 + k ∧ k < p.fbBytes := by
  unfold windowIndex windowBase at h
  split at h
  · have := Option.some.inj h; omega
  · cases h

/-- An 8-bit access is admitted from the window on. -/
theorem admits8_iff (off : Word) : admits8 off = true ↔ 0x400 ≤ off.toNat := by
  unfold admits8 windowBase; exact decide_eq_true_iff

/-- A 16-bit access is admitted at an even offset. -/
theorem admits16_iff (off : Word) : admits16 off = true ↔ off.toNat % 2 = 0 := by
  unfold admits16; exact beq_iff_eq

/-- STATUS as a number. -/
theorem toNat_statusWord (err : BitVec 4) (busErr : Bool) :
    (statusWord err busErr).toNat = err.toNat + 16 * busErr.toNat := by
  cases busErr <;> revert err <;> decide

/-- A 16-bit window write changes its two bytes, the second only inside FB. -/
theorem windowWrite16_read (s : State) (k : Nat) (v : Word) (n : Nat) :
    (windowWrite16 s k v).fb.read n =
      if n = k + 1 ∧ k + 1 < s.params.fbBytes then v.extractLsb' 8 8
      else if n = k then v.extractLsb' 0 8 else s.fb.read n := by
  unfold windowWrite16
  dsimp only
  split
  · rename_i h
    rw [Memory.read_write, Memory.read_write]
    simp [h]
  · rename_i h
    rw [Memory.read_write]
    simp [h]

end Sys2Proof.Machine
end

