-- ==== Sys2Proof/Laws/PerInstr.lean ====
section
/-! SUPPORT. Statements made per instruction: one lemma per constructor of `Instr`. -/

namespace Sys2Proof.Laws.EncodeFields

/-- The fields of a command's word are its opcode, its colour code and its mode code, and the reserved field is 0
(30_encoding.md R80). -/
def Statement (i : Instr) : Prop :=
  opcField (encode i) = i.opcode ∧ colorField (encode i) = i.colorCode ∧ modeField (encode i) = i.modeCode ∧
    rsvField (encode i) = 0

theorem nop : Statement .nop := by unfold Statement; decide

theorem fill (c : Colour) : Statement (.fill c) := by unfold Statement; cases c <;> decide

theorem setpix (c : Colour) : Statement (.setpix c) := by unfold Statement; cases c <;> decide

theorem getpix : Statement .getpix := by unfold Statement; decide

theorem hline (c : Colour) : Statement (.hline c) := by unfold Statement; cases c <;> decide

theorem vline (c : Colour) : Statement (.vline c) := by unfold Statement; cases c <;> decide

theorem line (c : Colour) : Statement (.line c) := by unfold Statement; cases c <;> decide

theorem circle (c : Colour) : Statement (.circle c) := by unfold Statement; cases c <;> decide

theorem circleq (c : Colour) : Statement (.circleq c) := by unfold Statement; cases c <;> decide

theorem fcircle (c : Colour) : Statement (.fcircle c) := by unfold Statement; cases c <;> decide

theorem fcircleq (c : Colour) : Statement (.fcircleq c) := by unfold Statement; cases c <;> decide

theorem rect (c : Colour) : Statement (.rect c) := by unfold Statement; cases c <;> decide

theorem frect (c : Colour) : Statement (.frect c) := by unfold Statement; cases c <;> decide

theorem rrect (c : Colour) : Statement (.rrect c) := by unfold Statement; cases c <;> decide

theorem frrect (c : Colour) : Statement (.frrect c) := by unfold Statement; cases c <;> decide

theorem tri (c : Colour) : Statement (.tri c) := by unfold Statement; cases c <;> decide

theorem ftri (c : Colour) : Statement (.ftri c) := by unfold Statement; cases c <;> decide

theorem bitmap (c : Colour) : Statement (.bitmap c) := by unfold Statement; cases c <;> decide

theorem sprite (m : DrawMode) : Statement (.sprite m) := by unfold Statement; cases m <;> decide

theorem drawcomp (c : Colour) : Statement (.drawcomp c) := by unfold Statement; cases c <;> decide

theorem rotvec : Statement .rotvec := by unfold Statement; decide

theorem drawrot (m : DrawMode) : Statement (.drawrot m) := by unfold Statement; cases m <;> decide

theorem drawchar (c : Colour) : Statement (.drawchar c) := by unfold Statement; cases c <;> decide

theorem writechar : Statement .writechar := by unfold Statement; decide

end Sys2Proof.Laws.EncodeFields
end

