-- ==== Sys2Proof/Laws/Rle.lean ====
section
/-! SUPPORT. What the bit reader, the span reader, the pixel cursor and the cell scan of DRAWCOMP do. -/

namespace Sys2Proof.Machine

/-! ## The bit reader -/

/-- The reader has consumed `n` bits of the stream at `st`. -/
def ReaderAt (res : Memory) (st n : Nat) (r : BitReader) : Prop :=
  if n % 8 = 0 then r.bitmask = 0 ∧ r.pos = (st + n / 8 : Nat)
  else r.bitmask = (0x01 : Byte) <<< (n % 8) ∧ r.pos = (st + n / 8 + 1 : Nat) ∧ r.cache = res.read ((st + n / 8) % 65536)

theorem readerAt_start (res : Memory) (st : Nat) : ReaderAt res st 0 (BitReader.start st) := by
  simp [ReaderAt, BitReader.start]

/-- RES holds `code` from bit `n` of the stream at `st` on, and every byte of it can be read. -/
def HoldsFrom (p : Params) (res : Memory) (st n : Nat) (code : List Bool) : Prop :=
  ∀ k < code.length, (st + (n + k) / 8) % 65536 < p.resSize ∧ resBit res (st + (n + k) / 8) (n + k) = code.getD k false

theorem holdsFrom_of_stream (p : Params) (res : Memory) (st : Nat) (code : List Bool)
    (h : streamHolds p res st code) : HoldsFrom p res st 0 code := by
  intro k hk
  have := h k hk
  simpa using this

theorem HoldsFrom.left {p : Params} {res : Memory} {st n : Nat} {c d : List Bool}
    (h : HoldsFrom p res st n (c ++ d)) : HoldsFrom p res st n c := by
  intro k hk
  have := h k (by rw [List.length_append]; omega)
  rwa [List.getD_append _ _ _ _ hk] at this

theorem HoldsFrom.right {p : Params} {res : Memory} {st n : Nat} {c d : List Bool}
    (h : HoldsFrom p res st n (c ++ d)) : HoldsFrom p res st (n + c.length) d := by
  intro k hk
  have := h (c.length + k) (by rw [List.length_append]; omega)
  rw [List.getD_append_right _ _ _ _ (by omega), Nat.add_sub_cancel_left, ← Nat.add_assoc] at this
  exact this

/-- A bit is read where its byte can be. -/
theorem readBit_at (p : Params) (res : Memory) (st n : Nat) (r : BitReader) (h : ReaderAt res st n r)
    (hr : (st + n / 8) % 65536 < p.resSize) :
    ∃ r', readBit p res r = .ok (resBit res (st + n / 8) n, r') ∧ ReaderAt res st (n + 1) r' := by
  have hmask : ∀ (b : Byte) (j : Nat), j < 8 → (b &&& ((0x01 : Byte) <<< j) != 0) = b.getLsbD j := by
    intro b j hj
    interval_cases j <;> revert b <;> decide
  have hadv : ∀ c : Byte, ReaderAt res st (n + 1) ⟨(st + n / 8 + 1 : Nat), ((0x01 : Byte) <<< (n % 8)) <<< 1, c⟩ ↔
      (n % 8 = 7 ∨ c = res.read ((st + n / 8) % 65536)) := by
    intro c
    unfold ReaderAt
    have hn : n % 8 < 8 := Nat.mod_lt _ (by omega)
    by_cases h7 : n % 8 = 7
    · rw [if_pos (by omega), h7]
      refine ⟨fun _ => .inl rfl, fun _ => ⟨?_, ?_⟩⟩
      · dsimp only; decide
      · dsimp only; congr 1; omega
    · rw [if_neg (by omega), show (n + 1) % 8 = n % 8 + 1 by omega, show (n + 1) / 8 = n / 8 by omega]
      refine ⟨fun e => .inr e.2.2, fun e => ⟨?_, rfl, e.resolve_left h7⟩⟩
      dsimp only
      interval_cases n % 8 <;> rfl
  have hn : n % 8 < 8 := Nat.mod_lt _ (by omega)
  unfold readBit BitReader.refill
  unfold ReaderAt at h
  by_cases h0 : n % 8 = 0
  · rw [if_pos h0] at h
    have ha : resAddr r.pos = (st + n / 8) % 65536 := by rw [h.2]; unfold resAddr; omega
    rw [if_pos h.1, resRead_ok _ _ _ (by rw [ha]; exact hr), ha]
    dsimp only
    have hm := hmask (res.read ((st + n / 8) % 65536)) 0 (by omega)
    refine ⟨_, by unfold resBit; rw [h0, ← hm]; rfl, ?_⟩
    have := (hadv (res.read ((st + n / 8) % 65536))).2 (.inr rfl)
    rw [h0] at this
    rw [h.2]
    exact this
  · rw [if_neg h0] at h
    have hne : r.bitmask ≠ 0 := by
      rw [h.1]; interval_cases n % 8 <;> first | omega | decide
    rw [if_neg hne]
    dsimp only
    refine ⟨_, by unfold resBit; rw [h.1, h.2.2, hmask _ _ hn], ?_⟩
    have := (hadv _).2 (.inr rfl)
    rw [h.2.1]
    exact this

/-- A held bit is read. -/
theorem readBit_held (p : Params) (res : Memory) (st n : Nat) (r : BitReader) (b : Bool) (rest : List Bool)
    (h : ReaderAt res st n r) (hc : HoldsFrom p res st n (b :: rest)) :
    ∃ r', readBit p res r = .ok (b, r') ∧ ReaderAt res st (n + 1) r' ∧ HoldsFrom p res st (n + 1) rest := by
  have h0 := hc 0 (by simp)
  obtain ⟨r', h1, h2⟩ := readBit_at p res st n r h (by simpa using h0.1)
  refine ⟨r', ?_, h2, HoldsFrom.right (c := [b]) (by simpa using hc)⟩
  rw [h1]
  have := h0.2
  simp only [Nat.add_zero, List.getD_cons_zero] at this
  rw [this]

theorem bitsLE_succ (n v : Nat) : bitsLE (n + 1) v = (v % 2 == 1) :: bitsLE n (v / 2) := by
  unfold bitsLE
  rw [List.range_succ_eq_map, List.map_cons, List.map_map]
  congr 1
  · rw [Nat.testBit_zero]; by_cases h : v % 2 = 1 <;> simp [h]
  · refine List.map_congr_left fun k _ => ?_
    simp [Nat.testBit_succ]

theorem length_bitsLE (n v : Nat) : (bitsLE n v).length = n := by simp [bitsLE]

/-- A held field is read (46_rle_decoder.md R232). -/
theorem readBits_held (p : Params) (res : Memory) (st m : Nat) (v n : Nat) (hv : v < 2 ^ m) (r : BitReader)
    (rest : List Bool) (h : ReaderAt res st n r) (hc : HoldsFrom p res st n (bitsLE m v ++ rest)) :
    ∃ r', readBits p res m r = .ok (v, r') ∧ ReaderAt res st (n + m) r' ∧ HoldsFrom p res st (n + m) rest := by
  induction m generalizing v n r with
  | zero =>
    refine ⟨r, ?_, h, hc⟩
    have : v = 0 := by simpa using hv
    subst this; rfl
  | succ m ih =>
    rw [bitsLE_succ, List.cons_append] at hc
    obtain ⟨r1, h1, h2, h3⟩ := readBit_held p res st n r _ _ h hc
    obtain ⟨r2, h4, h5, h6⟩ := ih (v / 2) (n + 1) (by rw [pow_succ] at hv; omega) r1 h2 h3
    refine ⟨r2, ?_, by rwa [show n + (m + 1) = n + 1 + m by ring], by rwa [show n + (m + 1) = n + 1 + m by ring]⟩
    unfold readBits
    rw [h1]
    dsimp only
    rw [h4]
    dsimp only
    have hb : (v % 2 == 1).toNat + 2 * (v / 2) = v := by
      have : v % 2 < 2 := Nat.mod_lt _ (by omega)
      by_cases hb : v % 2 = 1
      · rw [hb]; simp; omega
      · rw [show v % 2 = 0 by omega]; simp; omega
    rw [hb]

/-- A held run-length class is read (46_rle_decoder.md R234). -/
theorem readUnary_held (p : Params) (res : Memory) (st z : Nat) (m z0 n : Nat) (hz : z < m) (r : BitReader)
    (rest : List Bool) (h : ReaderAt res st n r)
    (hc : HoldsFrom p res st n (List.replicate z false ++ true :: rest)) :
    ∃ r', readUnary p res m z0 r = .ok (z0 + z, r') ∧ ReaderAt res st (n + z + 1) r' ∧
      HoldsFrom p res st (n + z + 1) rest := by
  induction z generalizing m z0 n r with
  | zero =>
    obtain ⟨m, rfl⟩ : ∃ k, m = k + 1 := ⟨m - 1, by omega⟩
    obtain ⟨r1, h1, h2, h3⟩ := readBit_held p res st n r _ _ h hc
    exact ⟨r1, by unfold readUnary; rw [h1]; rfl, h2, h3⟩
  | succ z ih =>
    obtain ⟨m, rfl⟩ : ∃ k, m = k + 1 := ⟨m - 1, by omega⟩
    rw [List.replicate_succ, List.cons_append] at hc
    obtain ⟨r1, h1, h2, h3⟩ := readBit_held p res st n r _ _ h hc
    obtain ⟨r2, h4, h5, h6⟩ := ih m (z0 + 1) (n + 1) (by omega) r1 h2 h3
    refine ⟨r2, ?_, by rwa [show n + (z + 1) + 1 = n + 1 + z + 1 by ring],
      by rwa [show n + (z + 1) + 1 = n + 1 + z + 1 by ring]⟩
    unfold readUnary
    rw [h1]
    dsimp only
    rw [h4, show z0 + (z + 1) = z0 + 1 + z by ring]

/-- Sixteen zeros end the command (46_rle_decoder.md R234). -/
theorem readUnary_overrun (p : Params) (res : Memory) (st : Nat) (m z0 n : Nat) (r : BitReader)
    (h : ReaderAt res st n r) (hc : HoldsFrom p res st n (List.replicate m false)) :
    readUnary p res m z0 r = .error .rleOverrun := by
  induction m generalizing z0 n r with
  | zero => rfl
  | succ m ih =>
    rw [List.replicate_succ] at hc
    obtain ⟨r1, h1, h2, h3⟩ := readBit_held p res st n r _ _ h hc
    unfold readUnary
    rw [h1]
    exact ih (z0 + 1) (n + 1) r1 h2 h3

theorem length_spanCode (z len : Nat) : (spanCode z len).length = z + 1 + (1 + 2 * z) := by
  simp [spanCode, length_bitsLE]; omega

/-- A held span is read (46_rle_decoder.md R234, R235). -/
theorem readSpan_held (p : Params) (res : Memory) (st z len n : Nat) (hq : spanFits (z, len)) (r : BitReader)
    (rest : List Bool) (h : ReaderAt res st n r) (hc : HoldsFrom p res st n (spanCode z len ++ rest)) :
    ∃ r', readSpan p res r = .ok (len, r') ∧ ReaderAt res st (n + (spanCode z len).length) r' ∧
      HoldsFrom p res st (n + (spanCode z len).length) rest := by
  obtain ⟨h16, hlen1, hlen2⟩ := hq
  dsimp only at h16 hlen1 hlen2
  unfold spanCode at hc
  rw [List.append_assoc, List.cons_append] at hc
  obtain ⟨r1, h1, h2, h3⟩ := readUnary_held p res st z 16 0 n h16 r _ h hc
  obtain ⟨r2, h4, h5, h6⟩ := readBits_held p res st (1 + 2 * z) (len - 1) _ (by omega) r1 rest h2 h3
  rw [length_spanCode]
  refine ⟨r2, ?_, by rwa [show n + (z + 1 + (1 + 2 * z)) = n + z + 1 + (1 + 2 * z) by ring],
    by rwa [show n + (z + 1 + (1 + 2 * z)) = n + z + 1 + (1 + 2 * z) by ring]⟩
  unfold readSpan
  rw [h1]
  dsimp only
  rw [Nat.zero_add, h4]
  dsimp only
  congr 2
  omega

/-! ## The pixel cursor -/

/-- Byte `k` of a pixel sequence, bit 0 its first pixel (46_rle_decoder.md R237). -/
def byteOf (pixels : List Bool) (k : Nat) : Byte :=
  (List.range 8).foldl (fun b j => b ||| ((BitVec.ofBool (pixels.getD (8 * k + j) false)).setWidth 8 <<< j)) 0

theorem getLsbD_byteOf (pixels : List Bool) (k j : Nat) (hj : j < 8) :
    (byteOf pixels k).getLsbD j = pixels.getD (8 * k + j) false := by
  unfold byteOf
  simp only [show List.range 8 = [0, 1, 2, 3, 4, 5, 6, 7] from rfl, List.foldl_cons, List.foldl_nil]
  interval_cases j <;> simp

/-- The cursor has taken a pixel sequence: its whole bytes are emitted in order, the rest is in flight. -/
structure CursorAt (emit : Nat → Byte → Memory → Memory) (fb : Memory) (pixels : List Bool) (c : Cursor) : Prop where
  k : c.k = pixels.length / 8
  nb : c.nb = pixels.length % 8
  acc : ∀ j < 8, c.acc.getLsbD j = (decide (j < c.nb) && pixels.getD (8 * c.k + j) false)
  fb : c.fb = (List.range c.k).foldl (fun m k => emit k (byteOf pixels k) m) fb

theorem cursorAt_start (emit : Nat → Byte → Memory → Memory) (fb : Memory) : CursorAt emit fb [] ⟨fb, 0, 0, 0⟩ :=
  ⟨rfl, rfl, fun j _ => by simp, rfl⟩

theorem byteOf_append (pixels more : List Bool) (k : Nat) (h : 8 * k + 8 ≤ pixels.length) :
    byteOf (pixels ++ more) k = byteOf pixels k := by
  refine BitVec.eq_of_getLsbD_eq fun j hj => ?_
  rw [getLsbD_byteOf _ _ _ hj, getLsbD_byteOf _ _ _ hj, List.getD_append _ _ _ _ (by omega)]

theorem foldl_emit_congr (emit : Nat → Byte → Memory → Memory) (f g : Nat → Byte) (n : Nat) (fb : Memory)
    (h : ∀ k < n, f k = g k) :
    (List.range n).foldl (fun m k => emit k (f k) m) fb = (List.range n).foldl (fun m k => emit k (g k) m) fb := by
  induction n with
  | zero => rfl
  | succ n ih =>
    rw [List.range_succ, List.foldl_append, List.foldl_append, ih (fun k hk => h k (by omega))]
    simp [h n (by omega)]

/-- One span's pixels are taken (46_rle_decoder.md R237, R240). -/
theorem pushPixels_at (total : Nat) (emit : Nat → Byte → Memory → Memory) (fb : Memory) (color : Bool) (len : Nat)
    (pixels : List Bool) (c : Cursor) (h : CursorAt emit fb pixels c) (hl : pixels.length + len ≤ 8 * total) :
    ∃ c', pushPixels total emit color len c = .ok c' ∧ CursorAt emit fb (pixels ++ List.replicate len color) c' := by
  induction len generalizing pixels c with
  | zero => exact ⟨c, rfl, by simpa using h⟩
  | succ len ih =>
    have hk := h.k
    have hnb := h.nb
    have hput : ∀ j < 8, (c.acc ||| ((BitVec.ofBool color).setWidth 8 <<< c.nb)).getLsbD j =
        (decide (j < c.nb + 1) && (pixels ++ [color]).getD (8 * c.k + j) false) := by
      intro j hj
      rw [BitVec.getLsbD_or, h.acc j hj, BitVec.getLsbD_shiftLeft]
      have hlen : pixels.length = 8 * c.k + c.nb := by omega
      rcases Nat.lt_trichotomy j c.nb with hlt | heq | hgt
      · rw [List.getD_append _ _ _ _ (by omega)]
        simp [hlt, show j < c.nb + 1 by omega]
      · rw [List.getD_append_right _ _ _ _ (by omega)]
        subst heq
        simp [hlen, hj]
      · rw [List.getD_append_right _ _ _ _ (by omega)]
        simp [show ¬ j < c.nb by omega, show ¬ j < c.nb + 1 by omega, show j - c.nb ≠ 0 by omega]
    have happ : pixels ++ List.replicate (len + 1) color = (pixels ++ [color]) ++ List.replicate len color := by
      rw [List.replicate_succ]; simp
    rw [happ]
    unfold pushPixels
    rw [if_neg (by omega)]
    by_cases h8 : c.nb + 1 = 8
    · rw [if_pos h8]
      have hbyte : c.acc ||| ((BitVec.ofBool color).setWidth 8 <<< c.nb) = byteOf (pixels ++ [color]) c.k := by
        refine BitVec.eq_of_getLsbD_eq fun j hj => ?_
        rw [hput j hj, getLsbD_byteOf _ _ _ hj]
        simp [show j < c.nb + 1 by omega]
      refine ih (pixels ++ [color]) _ ⟨?_, ?_, ?_, ?_⟩ (by rw [List.length_append]; simp; omega)
      · dsimp only; rw [List.length_append]; simp; omega
      · dsimp only; rw [List.length_append]; simp; omega
      · intro j _; simp
      · dsimp only
        rw [List.range_succ, List.foldl_append]
        simp only [List.foldl_cons, List.foldl_nil]
        rw [hbyte, h.fb]
        congr 1
        exact foldl_emit_congr emit _ _ _ _ fun k hk' => (byteOf_append _ _ _ (by omega)).symm
    · rw [if_neg h8]
      refine ih (pixels ++ [color]) _ ⟨?_, ?_, hput, ?_⟩ (by rw [List.length_append]; simp; omega)
      · dsimp only; rw [List.length_append]; simp; omega
      · dsimp only; rw [List.length_append]; simp; omega
      · dsimp only
        rw [h.fb]
        exact foldl_emit_congr emit _ _ _ _ fun k hk' => (byteOf_append _ _ _ (by omega)).symm

/-- A span that goes past the last cell ends the command (46_rle_decoder.md R239). -/
theorem pushPixels_overrun (total : Nat) (emit : Nat → Byte → Memory → Memory) (fb : Memory) (color : Bool) (len : Nat)
    (pixels : List Bool) (c : Cursor) (h : CursorAt emit fb pixels c) (hp : pixels.length ≤ 8 * total)
    (hl : 8 * total < pixels.length + len) : pushPixels total emit color len c = .error .rleOverrun := by
  induction len generalizing pixels c with
  | zero => omega
  | succ len ih =>
    by_cases hfull : pixels.length = 8 * total
    · unfold pushPixels; rw [if_pos (by rw [h.k]; omega)]
    · obtain ⟨c', h1, h2⟩ := pushPixels_at total emit fb color 1 pixels c h (by omega)
      have := ih (pixels ++ List.replicate 1 color) c' h2 (by simp; omega) (by simp; omega)
      have hk := h.k
      unfold pushPixels at h1 ⊢
      rw [if_neg (by omega)] at h1 ⊢
      by_cases h8 : c.nb + 1 = 8
      · rw [if_pos h8] at h1 ⊢
        unfold pushPixels at h1
        cases h1
        exact this
      · rw [if_neg h8] at h1 ⊢
        unfold pushPixels at h1
        cases h1
        exact this

/-- The span loop on held spans that fill the bitmap: every cell is emitted, in order, with its eight pixels
(46_rle_decoder.md R240). -/
theorem decodeSpans_held (p : Params) (res : Memory) (st total : Nat) (emit : Nat → Byte → Memory → Memory) (fb : Memory)
    (spans : List (Nat × Nat)) (fuel n : Nat) (color : Bool) (r : BitReader) (pixels : List Bool) (c : Cursor)
    (hfuel : spans.length < fuel) (hq : ∀ q ∈ spans, spanFits q)
    (hsum : pixels.length + (spans.map fun q => q.2).sum = 8 * total) (h : ReaderAt res st n r)
    (hc : HoldsFrom p res st n (spans.flatMap fun q => spanCode q.1 q.2)) (hcur : CursorAt emit fb pixels c) :
    decodeSpans p res total emit fuel color r c =
      .ok ((List.range total).foldl (fun m k => emit k (byteOf (pixels ++ spanPixels color spans) k) m) fb) := by
  induction spans generalizing fuel n color r pixels c with
  | nil =>
    obtain ⟨fuel, rfl⟩ : ∃ k, fuel = k + 1 := ⟨fuel - 1, by simp at hfuel; omega⟩
    have hk : c.k = total := by rw [hcur.k]; simp at hsum; omega
    unfold decodeSpans
    rw [if_neg (by omega), hcur.fb, hk]
    simp [spanPixels]
  | cons q spans ih =>
    obtain ⟨fuel, rfl⟩ : ∃ k, fuel = k + 1 := ⟨fuel - 1, by simp at hfuel; omega⟩
    have hfit := hq q (by simp)
    rw [List.flatMap_cons] at hc
    obtain ⟨r1, h1, h2, h3⟩ := readSpan_held p res st q.1 q.2 n hfit r _ h hc
    simp only [List.map_cons, List.sum_cons] at hsum
    obtain ⟨c1, h4, h5⟩ := pushPixels_at total emit fb color q.2 pixels c hcur (by omega)
    have := ih fuel _ (!color) r1 (pixels ++ List.replicate q.2 color) c1 (by simp at hfuel; omega)
      (fun q' hq' => hq q' (by simp [hq'])) (by simp; omega) h2 h3 h5
    unfold decodeSpans
    have h1le := hfit.2.1
    rw [if_pos (by rw [hcur.k]; omega), h1]
    dsimp only
    rw [h4]
    dsimp only
    rw [this, List.append_assoc]
    rfl

/-- The span loop on held spans that do not fill the bitmap: it comes to the next span, with the pixels so far
(46_rle_decoder.md R240). -/
theorem decodeSpans_through (p : Params) (res : Memory) (st total : Nat) (emit : Nat → Byte → Memory → Memory)
    (fb : Memory) (spans : List (Nat × Nat)) (fuel n : Nat) (color : Bool) (r : BitReader) (pixels : List Bool)
    (c : Cursor) (rest : List Bool) (hfuel : spans.length < fuel) (hq : ∀ q ∈ spans, spanFits q)
    (hsum : pixels.length + (spans.map fun q => q.2).sum < 8 * total) (h : ReaderAt res st n r)
    (hc : HoldsFrom p res st n ((spans.flatMap fun q => spanCode q.1 q.2) ++ rest)) (hcur : CursorAt emit fb pixels c) :
    ∃ fuel' color' r' c', decodeSpans p res total emit fuel color r c = decodeSpans p res total emit (fuel' + 1) color' r' c' ∧
      ReaderAt res st (n + (spans.flatMap fun q => spanCode q.1 q.2).length) r' ∧
      HoldsFrom p res st (n + (spans.flatMap fun q => spanCode q.1 q.2).length) rest ∧
      CursorAt emit fb (pixels ++ spanPixels color spans) c' ∧ c'.k < total := by
  induction spans generalizing fuel n color r pixels c with
  | nil =>
    obtain ⟨fuel, rfl⟩ : ∃ k, fuel = k + 1 := ⟨fuel - 1, by simp at hfuel; omega⟩
    refine ⟨fuel, color, r, c, rfl, h, hc, by simpa [spanPixels] using hcur, ?_⟩
    rw [hcur.k]; simp at hsum; omega
  | cons q spans ih =>
    obtain ⟨fuel, rfl⟩ : ∃ k, fuel = k + 1 := ⟨fuel - 1, by simp at hfuel; omega⟩
    rw [List.flatMap_cons, List.append_assoc] at hc
    obtain ⟨r1, h1, h2, h3⟩ := readSpan_held p res st q.1 q.2 n (hq q (by simp)) r _ h hc
    simp only [List.map_cons, List.sum_cons] at hsum
    obtain ⟨c1, h4, h5⟩ := pushPixels_at total emit fb color q.2 pixels c hcur (by omega)
    obtain ⟨fuel', color', r', c', h6, h7, h8, h9, h10⟩ := ih fuel _ (!color) r1
      (pixels ++ List.replicate q.2 color) c1 (by simp at hfuel; omega) (fun q' hq' => hq q' (by simp [hq']))
      (by simp; omega) h2 h3 h5
    refine ⟨fuel', color', r', c', ?_, ?_, ?_, ?_, h10⟩
    · conv_lhs => unfold decodeSpans
      rw [if_pos (by rw [hcur.k]; omega), h1]
      dsimp only
      rw [h4]
      exact h6
    · rwa [List.flatMap_cons, List.length_append, ← Nat.add_assoc]
    · rwa [List.flatMap_cons, List.length_append, ← Nat.add_assoc]
    · rwa [List.append_assoc] at h9

/-- A span whose code begins with sixteen zeros ends the span loop (46_rle_decoder.md R234). -/
theorem decodeSpans_unary_overrun (p : Params) (res : Memory) (st n total : Nat) (emit : Nat → Byte → Memory → Memory)
    (fuel : Nat) (color : Bool) (r : BitReader) (c : Cursor) (hk : c.k < total) (h : ReaderAt res st n r)
    (hc : HoldsFrom p res st n (List.replicate 16 false)) :
    decodeSpans p res total emit (fuel + 1) color r c = .error .rleOverrun := by
  unfold decodeSpans readSpan
  rw [if_pos hk, readUnary_overrun p res st 16 0 n r h hc]

/-- A span past the last pixel ends the span loop (46_rle_decoder.md R239). -/
theorem decodeSpans_span_overrun (p : Params) (res : Memory) (st n total : Nat) (emit : Nat → Byte → Memory → Memory)
    (fb : Memory) (pixels : List Bool) (fuel : Nat) (color : Bool) (r : BitReader) (c : Cursor) (z len : Nat)
    (hk : c.k < total) (h : ReaderAt res st n r) (hq : spanFits (z, len)) (hc : HoldsFrom p res st n (spanCode z len))
    (hcur : CursorAt emit fb pixels c) (hp : pixels.length ≤ 8 * total) (hl : 8 * total < pixels.length + len) :
    decodeSpans p res total emit (fuel + 1) color r c = .error .rleOverrun := by
  obtain ⟨r1, h1, _, _⟩ := readSpan_held p res st z len n hq r [] h (by simpa using hc)
  unfold decodeSpans
  rw [if_pos hk, h1]
  dsimp only
  rw [pushPixels_overrun total emit fb color len pixels c hcur hp hl]

theorem length_spanPixels (start : Bool) (spans : List (Nat × Nat)) :
    (spanPixels start spans).length = (spans.map fun q => q.2).sum := by
  induction spans generalizing start with
  | nil => rfl
  | cons q spans ih => simp [spanPixels, ih]

/-! ## Streams that run into unreadable bytes -/

/-- The reader's next bit is the first of a byte that cannot be read (20_memory.md R57). -/
def UnreadableAt (p : Params) (st n : Nat) : Prop := n % 8 = 0 ∧ p.resSize ≤ (st + n / 8) % 65536

theorem readBit_unreadable (p : Params) (res : Memory) (st n : Nat) (r : BitReader) (h : ReaderAt res st n r)
    (hu : UnreadableAt p st n) : readBit p res r = .error .resRange := by
  obtain ⟨h8, hlt⟩ := hu
  unfold ReaderAt at h
  rw [if_pos h8] at h
  have ha : resAddr r.pos = (st + n / 8) % 65536 := by unfold resAddr; rw [h.2]; omega
  unfold readBit BitReader.refill resRead
  rw [if_pos h.1, ha, if_neg (by omega)]

theorem readBits_unreadable (p : Params) (res : Memory) (st m n : Nat) (code : List Bool) (hlen : code.length < m)
    (r : BitReader) (h : ReaderAt res st n r) (hc : HoldsFrom p res st n code)
    (hu : UnreadableAt p st (n + code.length)) : readBits p res m r = .error .resRange := by
  induction code generalizing m n r with
  | nil =>
    obtain ⟨m, rfl⟩ : ∃ k, m = k + 1 := ⟨m - 1, by simp at hlen; omega⟩
    unfold readBits
    rw [readBit_unreadable p res st n r h hu]
  | cons b code ih =>
    obtain ⟨m, rfl⟩ : ∃ k, m = k + 1 := ⟨m - 1, by simp at hlen; omega⟩
    obtain ⟨r1, h1, h2, h3⟩ := readBit_held p res st n r _ _ h hc
    unfold readBits
    rw [h1]
    dsimp only
    rw [ih m (n + 1) (by simpa using hlen) r1 h2 h3 (by rw [List.length_cons] at hu; rwa [Nat.add_right_comm, Nat.add_assoc])]

theorem readUnary_unreadable (p : Params) (res : Memory) (st z m z0 n : Nat) (hz : z < m) (r : BitReader)
    (h : ReaderAt res st n r) (hc : HoldsFrom p res st n (List.replicate z false)) (hu : UnreadableAt p st (n + z)) :
    readUnary p res m z0 r = .error .resRange := by
  induction z generalizing m z0 n r with
  | zero =>
    obtain ⟨m, rfl⟩ : ∃ k, m = k + 1 := ⟨m - 1, by omega⟩
    unfold readUnary
    rw [readBit_unreadable p res st n r h hu]
  | succ z ih =>
    obtain ⟨m, rfl⟩ : ∃ k, m = k + 1 := ⟨m - 1, by omega⟩
    rw [List.replicate_succ] at hc
    obtain ⟨r1, h1, h2, h3⟩ := readBit_held p res st n r _ _ h hc
    unfold readUnary
    rw [h1]
    exact ih m (z0 + 1) (n + 1) (by omega) r1 h2 h3 (by rwa [Nat.add_right_comm, Nat.add_assoc])

/-- A span whose code runs into a byte that cannot be read. -/
theorem readSpan_unreadable (p : Params) (res : Memory) (st z len n : Nat) (hq : spanFits (z, len))
    (tail more : List Bool) (hcode : tail ++ more = spanCode z len) (hmore : more ≠ []) (r : BitReader)
    (h : ReaderAt res st n r) (hc : HoldsFrom p res st n tail) (hu : UnreadableAt p st (n + tail.length)) :
    readSpan p res r = .error .resRange := by
  have h16 : z < 16 := hq.1
  have hlen := congrArg List.length hcode
  rw [List.length_append, length_spanCode] at hlen
  have hpos := List.length_pos_iff.2 hmore
  unfold readSpan
  unfold spanCode at hcode
  rcases Nat.lt_or_ge z tail.length with hlt | hge
  · obtain ⟨t, rfl⟩ : ∃ t, tail = List.replicate z false ++ true :: t := by
      obtain ⟨a', ha, hb⟩ | ⟨c', ha, hb⟩ := List.append_eq_append_iff.1 hcode
      · have := congrArg List.length ha
        rw [List.length_append, List.length_replicate] at this
        omega
      · cases c' with
        | nil => rw [ha, List.append_nil, List.length_replicate] at hlt; omega
        | cons d t =>
          rw [List.cons_append] at hb
          obtain ⟨rfl, _⟩ := List.cons.inj hb
          exact ⟨t, ha⟩
    obtain ⟨r1, h1, h2, h3⟩ := readUnary_held p res st z 16 0 n h16 r _ h hc
    rw [h1]
    dsimp only
    rw [List.length_append, List.length_replicate, List.length_cons] at hlen hu
    rw [Nat.zero_add, readBits_unreadable p res st (1 + 2 * z) _ t (by omega) r1 h2 h3
      (by rwa [show n + z + 1 + t.length = n + (z + (t.length + 1)) by ring])]
  · have ht : tail = List.replicate tail.length false := by
      have := congrArg (List.take tail.length) hcode
      rw [List.take_left, List.take_append_of_le_length (by simpa using hge), List.take_replicate,
        Nat.min_eq_left hge] at this
      exact this
    rw [ht] at hc
    rw [readUnary_unreadable p res st tail.length 16 0 n (by omega) r h hc hu]

/-! ## The scan order and the stream's header -/

/-- An emitted cell changes the pixels under it, by its combine, and no other. -/
theorem emitCell_pixel (p : Params) (hh : p.height % 8 = 0) (x y : Int) (w h : Nat) (g : BlitGeom)
    (hg : blitGeometry p x y w h = some g) (col : Bool) (op : Bool → Bool → Bool → Bool)
    (hf : ActsAs (compCombine col) op) (cell : Int × Int) (v : Byte) (fb : Memory) (h0 : 0 ≤ cell.2) (h1 : cell.2 < w)
    (X Y : Int) (hXY : inBuffer p X Y = true) :
    pixelRead p (emitCell p g x col cell v fb) X Y =
      if InCell x y X Y cell.1 cell.2 then
        op (pixelRead p fb X Y) (v.getLsbD ((Y - y) % 8).toNat) ((0 : Byte).getLsbD ((Y - y) % 8).toNat)
      else pixelRead p fb X Y := by
  obtain ⟨_, _, _, _, _, _, _, hlo, hhi⟩ := blitGeometry_cases p x y w h g hg
  have hb := (inBuffer_iff p X Y).1 hXY
  unfold emitCell
  by_cases hc : g.ilo ≤ cell.2 ∧ cell.2 ≤ g.ihi
  · rw [if_pos hc]
    exact blitCell_pixel p hh x y w h g hg _ op hf _ _ _ _ fb (by omega) (by omega) X Y hXY
  · rw [if_neg hc, if_neg]
    rintro ⟨hX, _⟩
    omega

/-- The scan number of a cell is a cell number, and names that cell. -/
theorem cellOf_scanNumber (order : ScanOrder) (w h a i : Nat) (ha : a < (h + 7) / 8) (hi : i < w) :
    scanNumber order w h a i < w * ((h + 7) / 8) ∧
      cellOf order w ((h + 7) / 8) (scanNumber order w h a i) = ((a : Int), (i : Int)) := by
  cases order
  · unfold scanNumber cellOf
    refine ⟨?_, ?_⟩
    · dsimp only
      have := Nat.mul_le_mul_right ((h + 7) / 8) (show i + 1 ≤ w by omega)
      rw [Nat.add_mul] at this
      omega
    · dsimp only
      rw [Nat.mul_comm, Nat.mul_add_mod, Nat.mod_eq_of_lt ha, Nat.mul_add_div (by omega), Nat.div_eq_of_lt ha]
      rfl
  · unfold scanNumber cellOf
    refine ⟨cellIndex_lt w _ a i ha hi, ?_⟩
    dsimp only
    rw [Nat.mul_comm, Nat.mul_add_mod, Nat.mod_eq_of_lt hi, Nat.mul_add_div (by omega), Nat.div_eq_of_lt hi]
    rfl

/-- Every cell number is some cell's scan number. -/
theorem exists_scanNumber (order : ScanOrder) (w h k : Nat) (hk : k < w * ((h + 7) / 8)) :
    ∃ a i : Nat, a < (h + 7) / 8 ∧ i < w ∧ scanNumber order w h a i = k := by
  cases order
  · refine ⟨k % ((h + 7) / 8), k / ((h + 7) / 8), Nat.mod_lt _ ?_, ?_, ?_⟩
    · by_contra hx
      have : (h + 7) / 8 = 0 := by omega
      rw [this] at hk; omega
    · exact Nat.div_lt_of_lt_mul (by rwa [Nat.mul_comm])
    · unfold scanNumber; dsimp only; rw [Nat.mul_comm]; exact Nat.div_add_mod _ _
  · refine ⟨k / w, k % w, Nat.div_lt_of_lt_mul hk, Nat.mod_lt _ ?_, ?_⟩
    · by_contra hx
      have : w = 0 := by omega
      rw [this] at hk; omega
    · unfold scanNumber; dsimp only; rw [Nat.mul_comm]; exact Nat.div_add_mod _ _

/-- Each span holds a pixel. -/
theorem length_le_sum_spans (spans : List (Nat × Nat)) (hq : ∀ q ∈ spans, spanFits q) :
    spans.length ≤ (spans.map fun q => q.2).sum := by
  induction spans with
  | nil => simp
  | cons q spans ih =>
    have := ih (fun q' h => hq q' (by simp [h]))
    have := (hq q (by simp)).2.1
    simp; omega

/-- The header and the starting colour of a stream, read: what is left is the span loop at bit 17. -/
theorem drawCompressed_header (s : State) (col : Bool) (x y : Int) (st w h : Nat) (start : Bool) (rest : List Bool)
    (hw1 : 1 ≤ w) (hw : w ≤ 256) (hh1 : 1 ≤ h) (hh : h ≤ 256) (hs : onScreen s.params x y w h)
    (hst : streamHolds s.params s.res st (bitsLE 8 (w - 1) ++ bitsLE 8 (h - 1) ++ start :: rest)) :
    ∃ g r, blitGeometry s.params x y w h = some g ∧ ReaderAt s.res st 17 r ∧ HoldsFrom s.params s.res st 17 rest ∧
      drawCompressed s col x y st = decodeSpans s.params s.res (w * g.rows)
        (fun k v fb => emitCell s.params g x col (cellOf s.params.scanOrder w g.rows k) v fb)
        (8 * (w * g.rows) + 1) start r ⟨s.fb, 0, 0, 0⟩ := by
  have hc := holdsFrom_of_stream _ _ _ _ hst
  rw [List.append_assoc] at hc
  obtain ⟨r1, e1, a1, c1⟩ := readBits_held s.params s.res st 8 (w - 1) 0 (by omega) _ _ (readerAt_start _ _) hc
  obtain ⟨r2, e2, a2, c2⟩ := readBits_held s.params s.res st 8 (h - 1) _ (by omega) _ _ a1 c1
  obtain ⟨r3, e3, a3, c3⟩ := readBit_held _ _ _ _ _ _ _ a2 c2
  obtain ⟨h1, h2, h3, h4⟩ := hs
  obtain ⟨g, hg⟩ : ∃ g, blitGeometry s.params x y w h = some g := by
    unfold blitGeometry; rw [if_neg (by omega)]; exact ⟨_, rfl⟩
  refine ⟨g, r3, hg, a3, c3, ?_⟩
  unfold drawCompressed
  rw [e1]; dsimp only
  rw [e2]; dsimp only
  rw [show w - 1 + 1 = w by omega, show h - 1 + 1 = h by omega, hg]
  unfold decodeBody
  dsimp only
  rw [e3]

end Sys2Proof.Machine
end

