-- ==== Sys2Proof/Laws/Shapes.lean ====
section
/-! SUPPORT. What each shape of the rasterizers draws, said once: membership in its list of points, for a pixel of the
buffer where the list is clipped. -/

namespace Sys2Proof.Machine

/-! ## Spans and boxes -/

/-- A clipped row lies in the buffer. -/
theorem hspan_inBuffer (p : Params) (x y w : Int) (q : Point) (hq : q ∈ hspan p x y w) : inBuffer p q.1 q.2 = true :=
  ((mem_hspan p x y w q.1 q.2).1 hq).2.2.2

/-- A clipped column lies in the buffer. -/
theorem vspan_inBuffer (p : Params) (x y h : Int) (q : Point) (hq : q ∈ vspan p x y h) : inBuffer p q.1 q.2 = true :=
  ((mem_vspan p x y h q.1 q.2).1 hq).2.2.2

/-- The points of RECT in the buffer are those of its four edges. -/
theorem mem_rectPoints (p : Params) (x y w h a b : Int) (hb : inBuffer p a b = true) :
    (a, b) ∈ rectPoints p x y w h ↔ onRect x y w h a b := by
  unfold rectPoints onRect
  simp only [List.mem_append, mem_hspan, mem_vspan, hb, and_true]
  constructor <;> intro h <;> omega

/-- RECT's points lie in the buffer. -/
theorem rectPoints_inBuffer (p : Params) (x y w h : Int) (q : Point) (hq : q ∈ rectPoints p x y w h) :
    inBuffer p q.1 q.2 = true := by
  unfold rectPoints at hq
  simp only [List.mem_append] at hq
  rcases hq with ((h | h) | h) | h
  · exact hspan_inBuffer _ _ _ _ q h
  · exact hspan_inBuffer _ _ _ _ q h
  · exact vspan_inBuffer _ _ _ _ q h
  · exact vspan_inBuffer _ _ _ _ q h

/-- The points of FillRect in the buffer are those of its box. -/
theorem mem_fillRectPoints (p : Params) (x y w h a b : Int) (hb : inBuffer p a b = true) :
    (a, b) ∈ fillRectPoints p x y w h ↔ inBox x y w h a b := by
  unfold fillRectPoints inBox
  simp only [List.mem_flatMap, mem_intRange, mem_vspan, hb, and_true]
  constructor
  · rintro ⟨i, hi, rfl, h⟩; omega
  · intro h; exact ⟨a, by omega, rfl, by omega, by omega⟩

/-- FillRect's points lie in the buffer. -/
theorem fillRectPoints_inBuffer (p : Params) (x y w h : Int) (q : Point) (hq : q ∈ fillRectPoints p x y w h) :
    inBuffer p q.1 q.2 = true := by
  unfold fillRectPoints at hq
  simp only [List.mem_flatMap] at hq
  obtain ⟨i, _, h⟩ := hq
  exact vspan_inBuffer _ _ _ _ q h

/-! ## The midpoint steps -/

/-- The steps of the walk stay right of its start, in the octant up to one pixel past the diagonal. -/
theorem midpointWalk_bounds (k : Nat) : ∀ (f ddFx ddFy x y : Int) (q : Point), 0 ≤ x →
    q ∈ midpointWalk k f ddFx ddFy x y → x + 1 ≤ q.1 ∧ q.1 ≤ y ∧ 0 ≤ q.2 ∧ q.2 ≤ y ∧ q.1 ≤ q.2 + 1 := by
  induction k with
  | zero => intro f ddFx ddFy x y q _ hq; cases hq
  | succ k ih =>
    intro f ddFx ddFy x y q hx hq
    unfold midpointWalk at hq
    split at hq
    · split at hq <;> rcases List.mem_cons.1 hq with rfl | hq
      · dsimp only; omega
      · have := ih _ _ _ _ _ q (by omega) hq; omega
      · dsimp only; omega
      · have := ih _ _ _ _ _ q (by omega) hq; omega
    · cases hq

/-- Where the midpoint steps of a radius lie. -/
theorem midpointSteps_bounds (r : Nat) (q : Point) (hq : q ∈ midpointSteps r) :
    1 ≤ q.1 ∧ q.1 ≤ r ∧ 0 ≤ q.2 ∧ q.2 ≤ r ∧ q.1 ≤ q.2 + 1 := by
  have := midpointWalk_bounds r _ _ _ _ _ q le_rfl hq
  omega

/-- The first midpoint step of a radius reaches the radius in one coordinate. -/
theorem midpointSteps_reach (r : Nat) (hr : 1 ≤ r) : ∃ q ∈ midpointSteps r, q.1 = r ∨ q.2 = r := by
  obtain ⟨r, rfl⟩ : ∃ k, r = k + 1 := ⟨r - 1, by omega⟩
  unfold midpointSteps midpointWalk
  rw [if_pos (by push_cast; omega)]
  split
  · rename_i h
    refine ⟨_, List.mem_cons_self, ?_⟩
    push_cast at *; omega
  · refine ⟨_, List.mem_cons_self, ?_⟩
    right; rfl

/-! ## Circles -/

/-- The points of CIRCLE are those of its circle. -/
theorem mem_circlePoints (x0 y0 : Int) (r : Nat) (a b : Int) :
    (a, b) ∈ circlePoints x0 y0 r ↔ onCircle x0 y0 r a b := by
  unfold circlePoints onCircle
  simp only [List.mem_append, List.mem_flatMap, List.mem_cons, List.not_mem_nil, or_false, Prod.mk.injEq]
  constructor
  · rintro (h | ⟨q, hq, h⟩)
    · refine ⟨((0 : Int), (r : Int)), .inl rfl, ?_⟩
      dsimp only
      rcases h with h | h | h | h <;> obtain ⟨rfl, rfl⟩ := h <;> simp
    · have hb := midpointSteps_bounds r q hq
      refine ⟨q, .inr hq, ?_⟩
      rcases h with h | h | h | h | h | h | h | h <;> obtain ⟨rfl, rfl⟩ := h <;>
        simp [abs_of_nonneg (show 0 ≤ q.1 by omega), abs_of_nonneg hb.2.2.1]
  · rintro ⟨q, hq, h⟩
    have habs : ∀ u v : Int, |u| = v → u = v ∨ u = -v := fun u v h => by
      rw [← h]; rcases abs_choice u with h | h <;> omega
    rcases hq with rfl | hq
    · left
      rcases h with ⟨h1, h2⟩ | ⟨h1, h2⟩ <;> rcases habs _ _ h1 with h1 | h1 <;> rcases habs _ _ h2 with h2 | h2 <;>
        dsimp only at h1 h2 <;> omega
    · right
      refine ⟨q, hq, ?_⟩
      rcases h with ⟨h1, h2⟩ | ⟨h1, h2⟩ <;> rcases habs _ _ h1 with h1 | h1 <;> rcases habs _ _ h2 with h2 | h2 <;>
        omega

/-- The points of ArcQuadrants are those of the chosen arcs. -/
theorem mem_arcPoints (x0 y0 : Int) (r m : Nat) (a b : Int) : (a, b) ∈ arcPoints x0 y0 r m ↔ onArcs x0 y0 r m a b := by
  unfold arcPoints onArcs
  simp only [List.mem_append, List.mem_flatMap]
  have hpair : ∀ (c : Prop) [Decidable c] (p q : Point),
      (a, b) ∈ (if c then [p, q] else []) ↔ c ∧ ((a, b) = p ∨ (a, b) = q) := by
    intro c _ p q; split <;> simp [*]
  simp only [hpair, Prod.mk.injEq]
  constructor
  · rintro ⟨q, hq, ((⟨h, e⟩ | ⟨h, e⟩) | ⟨h, e⟩) | ⟨h, e⟩⟩
    · exact ⟨2, by omega, h, q, hq, by simp only [cornerX, cornerY]; simp; tauto⟩
    · exact ⟨1, by omega, h, q, hq, by simp only [cornerX, cornerY]; simp; rcases e with e | e <;> omega⟩
    · exact ⟨3, by omega, h, q, hq, by simp only [cornerX, cornerY]; simp; rcases e with e | e <;> omega⟩
    · exact ⟨0, by omega, h, q, hq, by simp only [cornerX, cornerY]; simp; rcases e with e | e <;> omega⟩
  · rintro ⟨n, hn, h, q, hq, e⟩
    refine ⟨q, hq, ?_⟩
    interval_cases n <;> simp only [cornerX, cornerY] at e <;> simp at e
    · right; exact ⟨h, by rcases e with e | e <;> omega⟩
    · left; left; right; exact ⟨h, by rcases e with e | e <;> omega⟩
    · left; left; left; exact ⟨h, by tauto⟩
    · left; right; exact ⟨h, by rcases e with e | e <;> omega⟩

/-- The points of FillHalves in the buffer are those of the chosen halves. -/
theorem mem_halfPoints (p : Params) (x0 y0 : Int) (r m : Nat) (d a b : Int) (hb : inBuffer p a b = true) :
    (a, b) ∈ halfPoints p x0 y0 r m d ↔ onHalves x0 y0 r m d a b := by
  unfold halfPoints onHalves
  simp only [List.mem_append, List.mem_flatMap]
  have hpair : ∀ (c : Prop) [Decidable c] (p q : List Point),
      (a, b) ∈ (if c then p ++ q else []) ↔ c ∧ ((a, b) ∈ p ∨ (a, b) ∈ q) := by
    intro c _ p q; split <;> simp [*]
  simp only [hpair, mem_vspan, hb, and_true]
  constructor
  · rintro ⟨q, hq, ⟨h, e⟩ | ⟨h, e⟩⟩
    · refine ⟨0, by omega, h, q, hq, ?_⟩
      rw [if_pos rfl]
      omega
    · refine ⟨1, by omega, h, q, hq, ?_⟩
      rw [if_neg (by omega)]
      omega
  · rintro ⟨n, hn, h, q, hq, e⟩
    refine ⟨q, hq, ?_⟩
    interval_cases n
    · rw [if_pos rfl] at e; left; exact ⟨h, by omega⟩
    · rw [if_neg (by omega)] at e; right; exact ⟨h, by omega⟩

/-- FillHalves' points lie in the buffer. -/
theorem halfPoints_inBuffer (p : Params) (x0 y0 : Int) (r m : Nat) (d : Int) (q : Point)
    (hq : q ∈ halfPoints p x0 y0 r m d) : inBuffer p q.1 q.2 = true := by
  unfold halfPoints at hq
  simp only [List.mem_append, List.mem_flatMap] at hq
  obtain ⟨_, _, h | h⟩ := hq
  all_goals
    split at h
    · simp only [List.mem_append] at h
      rcases h with h | h <;> exact vspan_inBuffer _ _ _ _ q h
    · cases h

/-- The points of FCIRCLE in the buffer are those of its disc. -/
theorem mem_discPoints (p : Params) (x0 y0 : Int) (r : Nat) (a b : Int) (hb : inBuffer p a b = true) :
    (a, b) ∈ discPoints p x0 y0 r ↔ onDisc x0 y0 r a b := by
  unfold discPoints
  rw [List.mem_append, mem_halfPoints _ _ _ _ _ _ _ _ hb, mem_vspan]
  unfold onHalves onDisc
  simp only [hb, and_true]
  constructor
  · rintro (h | ⟨n, hn, _, q, hq, h⟩)
    · refine ⟨((0 : Int), (r : Int)), .inl rfl, .inl ?_⟩
      dsimp only; rw [abs_le, h.1]; simp; omega
    · refine ⟨q, .inr hq, ?_⟩
      have := midpointSteps_bounds _ q hq
      have habs : ∀ u v : Int, 0 ≤ v → (u = v ∨ u = -v) → |u| = v := by
        rintro u v hv (rfl | rfl)
        · exact abs_of_nonneg hv
        · rw [abs_neg, abs_of_nonneg hv]
      rcases h with h | h
      · left
        exact ⟨habs _ _ (by omega) (by split at h <;> omega), by rw [abs_le]; omega⟩
      · right
        exact ⟨habs _ _ (by omega) (by split at h <;> omega), by rw [abs_le]; omega⟩
  · rintro ⟨q, hq, h⟩
    have hboth : ∀ q ∈ midpointSteps r, ((|a - x0| = q.1 ∧ |b - y0| ≤ q.2) ∨ (|a - x0| = q.2 ∧ |b - y0| ≤ q.1)) →
        (∃ n < 2, Nat.testBit 3 n = true ∧ ∃ q ∈ midpointSteps r,
          (a = x0 + (if n = 0 then 1 else -1) * q.1 ∧ y0 - q.2 ≤ b ∧ b ≤ y0 + q.2 + 0) ∨
          (a = x0 + (if n = 0 then 1 else -1) * q.2 ∧ y0 - q.1 ≤ b ∧ b ≤ y0 + q.1 + 0)) := by
      intro q hq h
      have hb1 := abs_le.1 (le_refl |b - y0|)
      have hb2 : ∀ v : Int, |b - y0| ≤ v → y0 - v ≤ b ∧ b ≤ y0 + v + 0 := fun v hv => by rw [abs_le] at hv; omega
      rcases abs_choice (a - x0) with hx | hx
      · refine ⟨0, by omega, rfl, q, hq, ?_⟩
        rw [if_pos rfl]
        rcases h with ⟨h1, h2⟩ | ⟨h1, h2⟩
        · left; exact ⟨by omega, hb2 _ h2⟩
        · right; exact ⟨by omega, hb2 _ h2⟩
      · refine ⟨1, by omega, rfl, q, hq, ?_⟩
        rw [if_neg (by omega)]
        rcases h with ⟨h1, h2⟩ | ⟨h1, h2⟩
        · left; exact ⟨by omega, hb2 _ h2⟩
        · right; exact ⟨by omega, hb2 _ h2⟩
    have hcentre : |a - x0| = 0 ∧ |b - y0| ≤ r → a = x0 ∧ y0 - r ≤ b ∧ b < y0 - r + (2 * r + 1) := by
      rintro ⟨h1, h2⟩
      rw [abs_le] at h2
      have := abs_eq_zero.1 h1
      omega
    rcases hq with rfl | hq
    · rcases h with h | h
      · exact .inl (hcentre h)
      · dsimp only at h
        by_cases hr : r = 0
        · subst hr
          refine .inl (hcentre ⟨by simpa using h.1, by simpa using h.2⟩)
        · right
          obtain ⟨q, hq, he⟩ := midpointSteps_reach r (by omega)
          have := midpointSteps_bounds _ q hq
          refine hboth q hq ?_
          rcases he with he | he
          · left; omega
          · right; omega
    · exact .inr (hboth q hq h)

/-- FCIRCLE's points lie in the buffer. -/
theorem discPoints_inBuffer (p : Params) (x0 y0 : Int) (r : Nat) (q : Point) (hq : q ∈ discPoints p x0 y0 r) :
    inBuffer p q.1 q.2 = true := by
  unfold discPoints at hq
  rw [List.mem_append] at hq
  rcases hq with h | h
  · exact vspan_inBuffer _ _ _ _ q h
  · exact halfPoints_inBuffer _ _ _ _ _ _ q h

/-! ## Lines -/

/-- How many rows the line has moved after `k` columns: the least number that keeps the error term non-negative. -/
theorem lineWalk_shift (dx e : Int) (hdx : 0 < dx) : -((e + dx) / dx) = -(e / dx) - 1 := by
  rw [Int.add_ediv_of_dvd_right ⟨1, by ring⟩, Int.ediv_self (by omega)]
  ring

/-- The points of the walk: one per column, each as many rows along as its error term asks for. -/
theorem mem_lineWalk (steep : Bool) (dx dy ystep : Int) (hdx : 0 < dx) (hdy : 0 ≤ dy) (hle : dy ≤ dx) (n : Nat) :
    ∀ (x y err : Int) (q : Point), 0 ≤ err → err < dx →
      (q ∈ lineWalk steep dx dy ystep n x y err ↔
        ∃ k : Nat, k < n ∧ q = if steep then (y + ystep * -((err - k * dy) / dx), x + k)
          else (x + k, y + ystep * -((err - k * dy) / dx))) := by
  induction n with
  | zero =>
    intro x y err q _ _
    unfold lineWalk
    constructor
    · intro h; cases h
    · rintro ⟨k, hk, _⟩; omega
  | succ n ih =>
    intro x y err q h0 h1
    have hz : err / dx = 0 := Int.ediv_eq_zero_of_lt h0 h1
    have hcast : ∀ k : Nat, err - ((k + 1 : Nat) : Int) * dy = err - dy - k * dy := fun k => by push_cast; ring
    have hx : ∀ k : Nat, x + ((k + 1 : Nat) : Int) = x + 1 + k := fun k => by push_cast; ring
    have split : (∃ k : Nat, k < n + 1 ∧ q = if steep then (y + ystep * -((err - k * dy) / dx), x + k)
          else (x + k, y + ystep * -((err - k * dy) / dx))) ↔
        (q = if steep then (y, x) else (x, y)) ∨
        ∃ k : Nat, k < n ∧ q = if steep then (y + ystep * -((err - dy - k * dy) / dx), x + 1 + k)
          else (x + 1 + k, y + ystep * -((err - dy - k * dy) / dx)) := by
      constructor
      · rintro ⟨k, hk, rfl⟩
        cases k with
        | zero => left; simp [hz]
        | succ k => right; exact ⟨k, by omega, by rw [hcast, hx]⟩
      · rintro (rfl | ⟨k, hk, rfl⟩)
        · exact ⟨0, by omega, by simp [hz]⟩
        · exact ⟨k + 1, by omega, by rw [hcast, hx]⟩
    rw [split]
    unfold lineWalk
    rw [List.mem_cons]
    by_cases hneg : err - dy < 0
    · rw [if_pos hneg]
      rw [ih (x + 1) (y + ystep) (err - dy + dx) q (by omega) (by omega)]
      have hy : ∀ k : Nat, y + ystep + ystep * -((err - dy + dx - k * dy) / dx) =
          y + ystep * -((err - dy - k * dy) / dx) := fun k => by
        rw [show err - dy + dx - k * dy = err - dy - k * dy + dx by ring, lineWalk_shift _ _ hdx]; ring
      simp only [hy]
    · rw [if_neg hneg]
      rw [ih (x + 1) y (err - dy) q (by omega) (by omega)]

/-- The walk has as many points as steps. -/
theorem length_lineWalk (steep : Bool) (dx dy ystep : Int) (n : Nat) :
    ∀ x y err : Int, (lineWalk steep dx dy ystep n x y err).length = n := by
  induction n with
  | zero => intro x y err; rfl
  | succ n ih =>
    intro x y err
    unfold lineWalk
    rw [List.length_cons]
    split <;> rw [ih]

end Sys2Proof.Machine
end

