-- ==== Sys2Proof/Tests/Slice0.lean ====
section
/-! SUPPORT. Tests: ill-formed terms, decoding, one step per command, and for every statement with hypotheses a concrete
state that meets them. Expected values are those of the spec's own examples or worked out by hand from its rules. -/

namespace Sys2Proof.Tests

open Sys2Proof.Machine

set_option Elab.async false

/-! ## Helpers -/

/-- The next state, where there is one. -/
def answer (r : StepResult) : Option State :=
  match r with
  | .next t => some t
  | .fault _ => none
  | .refused _ => none

/-- FB after, as numbers. -/
def fbOf (r : StepResult) : Option (List (Nat × Nat)) := (answer r).map fun t => t.fb.map fun c => (c.1, c.2.toNat)

/-- The outcome of the command. -/
def outcomeOf (r : StepResult) : Option CmdOutcome := (answer r).bind fun t => t.lastOutcome

/-- A checked next state, as the existence statement the hypotheses ask for. -/
theorem exists_next {r : StepResult} {P : State → Bool} (h : (answer r).any P = true) : ∃ t, r = .next t ∧ P t = true := by
  cases r with
  | next t => exact ⟨t, rfl, h⟩
  | fault f => cases h
  | refused f => cases h

/-- ARG0.. from integers. -/
def operands (l : List Int) : Vector Word 8 := Vector.ofFn fun i => toWord (l.getD i.val 0)

/-- The state after reset with operands. -/
def ready (l : List Int) : State := { State.reset with args := operands l }

/-- A 16 × 16 build. -/
def small (l : List Int) : State :=
  { State.reset with
    params := { defaultParams with width := 16, height := 16 }
    args := operands l }

/-- A state in unchecked mode. -/
def unchecked (s : State) : State := { s with config := 0 }

/-- A state with RES bytes from an address on. -/
def withRes (s : State) (a : Nat) (l : List Nat) : State :=
  { s with res := l.zipIdx.foldl (fun m q => m.write (a + q.2) (BitVec.ofNat 8 q.1)) s.res }

/-- A state with the glyph A of the spec's examples (48_glyph.md R292). -/
def withGlyph (s : State) : State :=
  { s with font := [(325, 0x7C), (326, 0x12), (327, 0x11), (328, 0x12), (329, 0x7C)] }

/-- A state whose next input is `e`. -/
def facing (s : State) (e : Input) : State := { s with pending := [e] }

/-- A command word from its fields (30_encoding.md R80). -/
def word (rsv mode : BitVec 3) (color : BitVec 2) (opc : Byte) : Word := rsv ++ mode ++ color ++ opc

/-! ## Well-formedness -/

theorem test_invert_is_ill_formed :
    [Instr.fill .invert, .setpix .invert, .hline .invert, .vline .invert, .line .invert, .circle .invert,
      .circleq .invert, .fcircle .invert, .fcircleq .invert, .rect .invert, .frect .invert, .rrect .invert,
      .frrect .invert, .tri .invert, .ftri .invert, .drawcomp .invert, .drawchar .invert].all
      (fun i => !i.wellFormed) = true := by decide

theorem test_drawrot_modes_are_ill_formed :
    [Instr.drawrot .erasemask, .drawrot .masked, .drawrot .plusmask, .drawrot .autodetect].all
      (fun i => !i.wellFormed) = true := by decide

theorem test_well_formed_terms :
    (Instr.bitmap .invert).WellFormed ∧ (Instr.sprite .autodetect).WellFormed ∧ (Instr.drawrot .selfmask).WellFormed ∧
      (Instr.fill .black).WellFormed := by decide

/-! ## Decoding: words written field by field from 30_encoding.md R80 and R84 -/

theorem test_decode_framebuffer :
    decode (word 0 0 0 0x00) = .ok .nop ∧ decode (word 0 0 1 0x01) = .ok (.fill .white) ∧
    decode (word 0 0 0 0x02) = .ok (.setpix .black) ∧ decode (word 0 0 0 0x03) = .ok .getpix ∧
    decode (word 0 0 1 0x04) = .ok (.hline .white) ∧ decode (word 0 0 1 0x05) = .ok (.vline .white) := by decide +kernel

theorem test_decode_lines_and_circles :
    decode (word 0 0 1 0x10) = .ok (.line .white) ∧ decode (word 0 0 1 0x20) = .ok (.circle .white) ∧
    decode (word 0 0 0 0x21) = .ok (.circleq .black) ∧ decode (word 0 0 1 0x22) = .ok (.fcircle .white) ∧
    decode (word 0 0 0 0x23) = .ok (.fcircleq .black) := by decide +kernel

theorem test_decode_polygons :
    decode (word 0 0 1 0x30) = .ok (.rect .white) ∧ decode (word 0 0 0 0x31) = .ok (.frect .black) ∧
    decode (word 0 0 1 0x32) = .ok (.rrect .white) ∧ decode (word 0 0 0 0x33) = .ok (.frrect .black) ∧
    decode (word 0 0 1 0x34) = .ok (.tri .white) ∧ decode (word 0 0 0 0x35) = .ok (.ftri .black) := by decide +kernel

theorem test_decode_blits :
    decode (word 0 0 2 0x40) = .ok (.bitmap .invert) ∧ decode (word 0 0 0 0x50) = .ok (.sprite .unmasked) ∧
    decode (word 0 1 0 0x50) = .ok (.sprite .selfmask) ∧ decode (word 0 2 0 0x50) = .ok (.sprite .erasemask) ∧
    decode (word 0 3 0 0x50) = .ok (.sprite .masked) ∧ decode (word 0 4 0 0x50) = .ok (.sprite .plusmask) ∧
    decode (word 0 5 0 0x50) = .ok (.sprite .autodetect) ∧ decode (word 0 0 1 0x60) = .ok (.drawcomp .white) := by
  decide +kernel

theorem test_decode_rotation_and_text :
    decode (word 0 0 0 0x70) = .ok .rotvec ∧ decode (word 0 0 0 0x71) = .ok (.drawrot .unmasked) ∧
    decode (word 0 1 0 0x71) = .ok (.drawrot .selfmask) ∧ decode (word 0 0 1 0x80) = .ok (.drawchar .white) ∧
    decode (word 0 0 0 0x81) = .ok .writechar := by decide +kernel

/-- 30_encoding.md R85: the order of the checks, and each check at its boundary. -/
theorem test_decode_refusals :
    decode (word 7 7 3 0x06) = .error .illegalOpcode ∧ decode (word 1 0 0 0x00) = .error .reservedField ∧
    decode (word 0 0 3 0x40) = .error .reservedField ∧ decode (word 0 0 2 0x01) = .error .reservedField ∧
    decode (word 0 0 1 0x50) = .error .reservedField ∧ decode (word 0 6 0 0x50) = .error .reservedField ∧
    decode (word 0 1 0 0x01) = .error .reservedField ∧ decode (word 0 6 0 0x71) = .error .reservedField ∧
    decode (word 0 2 0 0x71) = .error .unsupportedMode ∧ decode (word 0 5 0 0x71) = .error .unsupportedMode ∧
    decode (word 0 2 1 0x71) = .error .reservedField := by decide +kernel

theorem test_encode_words :
    encode (.fill .white) = 0x0101 ∧ encode (.bitmap .invert) = 0x0240 ∧ encode (.sprite .masked) = 0x0C50 ∧
    encode (.drawrot .selfmask) = 0x0471 ∧ encode .writechar = 0x0081 := by decide

theorem test_table_word_runs :
    decodeTableWord 16 0x0101 = some (.fill .white) ∧ decodeTableWord 16 0x0006 = none ∧
    outcomeOf (step (State.reset.withFetchWord 16 0x0000)) = some .done ∧
    (answer (step (State.reset.withFetchWord 16 0x0104))).map (fun t => t.cmd) = some 0x0104 := by decide +kernel

/-! ## One step per command: the examples of the command's own rule -/

/-- 40_framebuffer.md R102: NOP clears STATUS.ERR. -/
theorem test_nop : (answer (exec .nop { State.reset with err := 1 })).map (fun t => (t.err, t.fb)) = some (0, []) := by
  decide +kernel

/-- 40_framebuffer.md R103, on a 16 × 16 build. -/
theorem test_fill : (fbOf (exec (.fill .white) (small []))).map (fun l => (l.length, l.all fun c => c.2 == 0xFF)) =
    some (32, true) := by decide +kernel

/-- 40_framebuffer.md R104: FB[131] <- 0x04. -/
theorem test_setpix : fbOf (exec (.setpix .white) (ready [3, 10])) = some [(131, 0x04)] := by decide +kernel

/-- 40_framebuffer.md R105, after R104's example. -/
theorem test_getpix : (answer (exec .getpix { ready [3, 10] with fb := [(131, 0x04)] })).map (fun t => t.result0) =
      some 1 ∧
    (answer (exec .getpix { ready [3, 11] with fb := [(131, 0x04)] })).map (fun t => t.result0) = some 0 := by
  decide +kernel

/-- 40_framebuffer.md R107. -/
theorem test_hline : fbOf (exec (.hline .white) (ready [-2, 9, 5])) = some [(128, 2), (129, 2), (130, 2)] := by
  decide +kernel

/-- 40_framebuffer.md R109. -/
theorem test_vline : fbOf (exec (.vline .white) (ready [0, 6, 4])) = some [(0, 0xC0), (128, 0x03)] := by decide +kernel

/-- 41_line.md R131. -/
theorem test_line : fbOf (exec (.line .white) (ready [0, 0, 7, 2])) =
    some [(0, 1), (1, 1), (2, 2), (3, 2), (4, 2), (5, 2), (6, 4), (7, 4)] := by decide +kernel

/-- 42_circle.md R141. -/
theorem test_circle : fbOf (exec (.circle .white) (ready [10, 10, 2])) =
    some [(136, 0x0E), (137, 0x11), (138, 0x11), (139, 0x11), (140, 0x0E)] := by decide +kernel

/-- 42_circle.md R143. -/
theorem test_circleq : fbOf (exec (.circleq .white) (ready [10, 10, 2, 0x2])) = some [(139, 0x01), (140, 0x02)] := by
  decide +kernel

/-- 42_circle.md R146. -/
theorem test_fcircle : fbOf (exec (.fcircle .white) (ready [10, 10, 2])) =
    some [(136, 0x0E), (137, 0x1F), (138, 0x1F), (139, 0x1F), (140, 0x0E)] := by decide +kernel

/-- 42_circle.md R145. -/
theorem test_fcircleq : fbOf (exec (.fcircleq .white) (ready [10, 10, 2, 0x1, 0])) =
    some [(139, 0x1F), (140, 0x0E)] := by decide +kernel

/-- 43_polygon.md R160. -/
theorem test_rect : fbOf (exec (.rect .white) (ready [0, 0, 4, 3])) = some [(0, 7), (1, 5), (2, 5), (3, 7)] := by
  decide +kernel

/-- 43_polygon.md R162. -/
theorem test_frect : fbOf (exec (.frect .white) (ready [0, 0, 3, 2])) = some [(0, 3), (1, 3), (2, 3)] := by
  decide +kernel

/-- 43_polygon.md R163. -/
theorem test_rrect : fbOf (exec (.rrect .white) (ready [0, 0, 8, 8, 2])) =
    some [(0, 0x7E), (1, 0x81), (2, 0x81), (3, 0x81), (4, 0x81), (5, 0x81), (6, 0x81), (7, 0x7E)] := by decide +kernel

/-- 43_polygon.md R164. -/
theorem test_frrect : fbOf (exec (.frrect .white) (ready [0, 0, 8, 8, 2])) =
    some [(0, 0x7E), (1, 0xFF), (2, 0xFF), (3, 0xFF), (4, 0xFF), (5, 0xFF), (6, 0xFF), (7, 0x7E)] := by decide +kernel

/-- 43_polygon.md R165. -/
theorem test_tri : fbOf (exec (.tri .white) (ready [0, 0, 4, 0, 0, 4])) =
    some [(0, 0x1F), (1, 0x09), (2, 0x05), (3, 0x03), (4, 0x01)] := by decide +kernel

/-- 43_polygon.md R167. -/
theorem test_ftri : fbOf (exec (.ftri .white) (ready [0, 0, 4, 0, 0, 4])) =
    some [(0, 0x1F), (1, 0x0F), (2, 0x07), (3, 0x03), (4, 0x01)] := by decide +kernel

/-- 44_sprite_aligned.md R182. -/
theorem test_bitmap : fbOf (exec (.bitmap .white) (withRes (ready [0, 3, 0x100, 2, 8]) 0x100 [0xFF, 0x81])) =
    some [(0, 0xF8), (1, 0x08), (128, 0x07), (129, 0x04)] := by decide +kernel

/-- 45_sprite_unaligned.md R210. -/
theorem test_sprite : fbOf (exec (.sprite .unmasked)
      (withRes (ready [0, 3, 0x100, 0, 0, 0]) 0x100 [0x02, 0x08, 0x0F, 0xF0, 0x3C, 0xC3])) =
    some [(0, 0x78), (1, 0x80), (129, 0x07)] := by decide +kernel

/-- 45_sprite_unaligned.md R203. -/
theorem test_sprite_null_mask : (answer (exec (.sprite .masked) (ready [0, 3, 0x100, 0, 0, 0]))).map (fun t => t.err) =
    some 4 := by decide +kernel

/-- The stream of 46_rle_decoder.md R240's example, on a 16 × 16 build. -/
def streamState : State := withRes (small [0, 3, 0x200]) 0x200 [0x01, 0x07, 0xBD, 0x07]

/-- 46_rle_decoder.md R240 (on a 16-pixel-wide build the second page begins at byte 16). -/
theorem test_drawcomp : fbOf (exec (.drawcomp .white) streamState) = some [(0, 0xF8), (16, 0x07)] := by decide +kernel

/-- 47_affine.md R264. -/
theorem test_rotvec : (answer (exec .rotvec (ready [45]))).map (fun t => (t.result0, t.result1)) =
      some (0x005A, 0x005A) ∧
    (answer (exec .rotvec (ready [-90]))).map (fun t => (t.result0, t.result1)) = some (0x0000, 0xFF81) := by
  decide +kernel

/-- The frame of 47_affine.md R272's example. -/
def rotState : State := withRes (ready [10, 8, 0x100, 0, 90, 100]) 0x100 [0x02, 0x08, 0x0F, 0x81]

/-- 47_affine.md R272. -/
theorem test_drawrot : fbOf (exec (.drawrot .unmasked) rotState) =
    some [(136, 0x10), (140, 0x08), (141, 0x08), (142, 0x08), (143, 0x18)] := by decide +kernel

/-- 48_glyph.md R292. -/
theorem test_drawchar : fbOf (exec (.drawchar .white) (withGlyph (ready [0, 0, 0x41, 0, 1]))) =
    some [(0, 0x7C), (1, 0x12), (2, 0x11), (3, 0x12), (4, 0x7C)] := by decide +kernel

/-- 48_glyph.md R293: the glyph at the cursor, then the advance. -/
theorem test_writechar :
    (answer (exec .writechar (withGlyph (ready [0x41])))).map (fun t => (t.fb.length, t.cursorX, t.cursorY)) =
      some (5, 6, 0) := by decide +kernel

/-- 48_glyph.md R293: at the last column the advanced cursor wraps to the next text line. -/
theorem test_writechar_wrap :
    (answer (exec .writechar { ready [0x41] with cursorX := 117, textWrap := 1 })).map
      (fun t => (t.cursorX, t.cursorY)) = some (0, 8) := by decide +kernel

/-! ## Concrete states that meet the statements' hypotheses -/

theorem test_CmdWriteDecodes_premises :
    (facing State.reset (.write16 0x0006 0x0101)).pending = .write16 0x0006 0x0101 :: [] := rfl

theorem test_StepRunsCommand_premises :
    (facing State.reset (.write16 0x0006 0x0101)).pending = .write16 0x0006 0x0101 :: [] ∧
    decode 0x0101 = .ok (.fill .white) := by decide +kernel

theorem test_CommandFrame_premises :
    (ready [3, 10]).Legal ∧
    ∃ t, exec (.setpix .white) (ready [3, 10]) = .next t ∧ decide (t.lastOutcome = some .done) = true :=
  ⟨by decide +kernel, exists_next (by decide +kernel)⟩

theorem test_OperandViewsAlone_premises :
    ∀ e ∈ operandViews (.hline .white), e.2.value (operands [1, 2, 0x0103])[e.1] = e.2.value (operands [1, 2, 3, 9])[e.1] := by
  decide +kernel

theorem test_ConfigIndependence_premises : Instr.ftri .white ∈
    [Instr.nop, .fill .white, .getpix, .hline .white, .vline .white, .fcircle .white, .fcircleq .white, .rect .white,
      .frect .white, .frrect .white, .ftri .white, .bitmap .white, .sprite .masked, .drawcomp .white, .rotvec,
      .drawrot .masked] := by decide

/-- Both colours that paint: the one hypothesis of SpanCommandsPaint, FilledCircleCommandsPaint, RectanglesPaint and
FilledRoundRectPaints. -/
theorem test_ink_premises : inkOf .black = some false ∧ inkOf .white = some true := ⟨rfl, rfl⟩

theorem test_FillSetsEveryByte_premises :
    inkOf .white = some true ∧ (ready []).fb.below (ready []).params.fbBytes = true ∧ 1023 < (ready []).params.fbBytes ∧
      (ready []).params.fbBytes ≤ 1024 := by decide +kernel

/-- The last pixel of the buffer, the first column past it in safe mode, and in unchecked mode. -/
theorem test_SetpixWritesOnePixel_premises :
    inBuffer defaultParams 127 63 = true ∧ inBuffer defaultParams 128 63 = false ∧
    (ready [128, 63]).pixelSafe = true ∧ (unchecked (ready [128, 63])).pixelSafe = false := by decide +kernel

theorem test_SetThenGet_premises :
    inkOf .black = some false ∧
      inBuffer (ready [127, 63]).params (s16 ((ready [127, 63]).arg 0)) (s16 ((ready [127, 63]).arg 1)) = true := by
  decide +kernel

/-- LINE's two ways in: clipped writes with an endpoint outside; unchecked writes with both endpoints inside. -/
theorem test_LinePaints_premises :
    inkOf .white = some true ∧ (ready [-5, 0, 300, 70]).pixelSafe = true ∧
    (unchecked (ready [0, 0, 127, 63])).pixelSafe = false ∧
    inBuffer defaultParams (s16 ((ready [0, 0, 127, 63]).arg 0)) (s16 ((ready [0, 0, 127, 63]).arg 1)) = true ∧
    inBuffer defaultParams (s16 ((ready [0, 0, 127, 63]).arg 2)) (s16 ((ready [0, 0, 127, 63]).arg 3)) = true := by
  decide +kernel

theorem test_LineSwapEndpoints_premises :
    (operands [7, 2, 0, 1])[0] = (operands [0, 1, 7, 2])[2] ∧ (operands [7, 2, 0, 1])[1] = (operands [0, 1, 7, 2])[3] ∧
    (operands [7, 2, 0, 1])[2] = (operands [0, 1, 7, 2])[0] ∧
    (operands [7, 2, 0, 1])[3] = (operands [0, 1, 7, 2])[1] := by decide +kernel

/-- The first and the last step of radius 5: (1, 5), (2, 5), (3, 4) and (4, 3). -/
theorem test_MidpointStepsOnCircle_premises :
    (midpointSteps 5)[0]? = some (1, 5) ∧ (midpointSteps 5)[3]? = some (4, 3) ∧ (midpointSteps 5)[4]? = none := by
  decide +kernel

/-- Clipped writes; a circle and an arc inside the buffer in unchecked mode, the arc of a circle that leaves it. -/
theorem test_CircleCommandsPaint_premises :
    inkOf .white = some true ∧ (ready [0, 0, 255]).pixelSafe = true ∧
    (unchecked (ready [0, 0, 4, 0x4])).pixelSafe = false ∧
    (∀ a b, onCircle 2 2 2 a b → inBuffer defaultParams a b = true) ∧
    (∀ a b, onArcs 0 0 4 0x4 a b → inBuffer defaultParams a b = true) ∧ inBuffer defaultParams (0 - 4) 0 = false :=
  ⟨rfl, by decide, by decide,
    fun a b h => (by decide +kernel : ∀ q ∈ circlePoints 2 2 2, inBuffer defaultParams q.1 q.2 = true) (a, b)
      ((mem_circlePoints _ _ _ _ _).2 h),
    fun a b h => (by decide +kernel : ∀ q ∈ arcPoints 0 0 4 0x4, inBuffer defaultParams q.1 q.2 = true) (a, b)
      ((mem_arcPoints _ _ _ _ _ _).2 h), by decide⟩

theorem test_CircleInsideDisc_premises :
    (ready [10, 10, 2]).pixelSafe = true ∧ (ready [10, 10, 2]).fb = [] ∧
    (∃ t, exec (.circle .white) (ready [10, 10, 2]) = .next t ∧
      decide (pixelRead defaultParams t.fb 12 10 = true) = true) ∧
    (∃ u, exec (.fcircle .white) (ready [10, 10, 2]) = .next u ∧
      decide (pixelRead defaultParams u.fb 12 10 = true) = true) ∧
    inBuffer defaultParams 12 10 = true :=
  ⟨by decide +kernel, by decide +kernel, exists_next (by decide +kernel), exists_next (by decide +kernel),
    by decide +kernel⟩

/-- Unchecked: an outline without arcs that lies partly off the screen, and arcs that lie in the buffer. -/
theorem test_RoundRectPaints_premises :
    inkOf .white = some true ∧ (unchecked (ready [-5, 0, 9, 9, 0])).pixelSafe = false ∧
    (∀ a b, onCorners (-5) 0 9 9 0 a b → inBuffer defaultParams a b = true) ∧
    ∀ a b, onCorners 0 0 8 8 2 a b → inBuffer defaultParams a b = true := by
  refine ⟨rfl, by decide, fun a b h => ?_, fun a b h => ?_⟩
  · unfold onCorners at h
    simp only [← mem_arcPoints] at h
    rcases h with h | h | h | h <;> cases h
  · unfold onCorners at h
    simp only [← mem_arcPoints] at h
    rcases h with h | h | h | h
    · exact (by decide +kernel : ∀ q ∈ arcPoints (0 + (2 : Nat)) (0 + (2 : Nat)) 2 0x1,
        inBuffer defaultParams q.1 q.2 = true) (a, b) h
    · exact (by decide +kernel : ∀ q ∈ arcPoints (0 + 8 - (2 : Nat) - 1) (0 + (2 : Nat)) 2 0x2,
        inBuffer defaultParams q.1 q.2 = true) (a, b) h
    · exact (by decide +kernel : ∀ q ∈ arcPoints (0 + 8 - (2 : Nat) - 1) (0 + 8 - (2 : Nat) - 1) 2 0x4,
        inBuffer defaultParams q.1 q.2 = true) (a, b) h
    · exact (by decide +kernel : ∀ q ∈ arcPoints (0 + (2 : Nat)) (0 + 8 - (2 : Nat) - 1) 2 0x8,
        inBuffer defaultParams q.1 q.2 = true) (a, b) h

theorem test_TrianglePaints_premises :
    inkOf .white = some true ∧ (unchecked (ready [0, 0, 127, 0, 0, 63])).pixelSafe = false ∧
    inBuffer defaultParams 0 0 = true ∧ inBuffer defaultParams 127 0 = true ∧ inBuffer defaultParams 0 63 = true := by
  decide +kernel

/-- Vertices named in another order than their rows. -/
theorem test_FilledTrianglePaints_premises :
    inkOf .white = some true ∧
    [((4 : Int), (0 : Int)), (9, 5), (0, 8)].Perm
      [(s16 ((ready [0, 8, 4, 0, 9, 5]).arg 0), s16 ((ready [0, 8, 4, 0, 9, 5]).arg 1)),
        (s16 ((ready [0, 8, 4, 0, 9, 5]).arg 2), s16 ((ready [0, 8, 4, 0, 9, 5]).arg 3)),
        (s16 ((ready [0, 8, 4, 0, 9, 5]).arg 4), s16 ((ready [0, 8, 4, 0, 9, 5]).arg 5))] ∧
    (0 : Int) ≤ 5 ∧ (5 : Int) ≤ 8 := by decide +kernel

/-- A line that leaves the buffer; a glyph whose synthesized sixth column crosses the right edge; the same at the
cursor. -/
theorem test_UncheckedWriteUndefined_premises :
    (unchecked (ready [0, 0, 128, 0])).pixelSafe = false ∧
    shapePoints (unchecked (ready [0, 0, 128, 0])) (.line .white) = some (.white, linePoints 0 0 128 0) ∧
    (∃ q ∈ linePoints 0 0 128 0, inBuffer defaultParams q.1 q.2 = false) ∧
    glyphWrites defaultParams [] 123 0 0x41 true true 1 128 0 = true ∧ inBuffer defaultParams 128 0 = false ∧
    u8 ((ready [0x41]).arg 0) ≠ 0x0A ∧ u8 ((ready [0x41]).arg 0) ≠ 0x0D := by decide +kernel

theorem test_UncheckedWriteUndefined_glyph :
    ¬ glyphClean (unchecked (ready [123, 0, 0x41, 1, 1])) 123 0 0x41 true true 1 := by
  rintro (h | h)
  · exact absurd h (by decide)
  · exact absurd (h 128 0 (by decide +kernel)) (by decide)

theorem test_OffscreenShapeUnchanged_premises :
    inkOf .white = some true ∧ (ready [128, 0, 130, 5]).pixelSafe = true ∧
    shapePoints (ready [128, 0, 130, 5]) (.line .white) = some (.white, linePoints 128 0 130 5) ∧
    ∀ q ∈ linePoints 128 0 130 5, inBuffer defaultParams q.1 q.2 = false := by decide +kernel

/-- The null address; a zero width and a zero height; a header with a zero byte; a zero glyph size. -/
theorem test_SilentDegradation_premises :
    addr ((ready []).arg 2) = 0 ∧ u8 ((ready [0, 0, 5, 0, 1]).arg 3) = 0 ∧ u8 ((ready [0, 0, 5, 1, 0]).arg 4) = 0 ∧
    addr ((ready [0, 0, 5, 1, 0]).arg 2) ≠ 0 ∧
    (withRes (ready [0, 0, 5, 1, 7]) 5 [0, 8]).res.read 5 = 0 ∧
    (withRes (ready [0, 0, 5, 1, 7]) 5 [8, 0]).res.read 6 = 0 ∧ addr ((ready [0, 0, 5, 1, 7]).arg 4) ≠ 0 := by
  decide +kernel

theorem test_SilentDegradation_readable : resReadable defaultParams 5 2 := by unfold resReadable; decide +kernel

/-- Just off each edge; one pixel on screen is not. -/
theorem test_OffscreenBlits_premises :
    ¬ onScreen defaultParams 128 0 1 1 ∧ ¬ onScreen defaultParams (-2) 0 2 8 ∧ ¬ onScreen defaultParams 0 64 2 8 ∧
    ¬ onScreen defaultParams 0 (-8) 2 8 ∧ onScreen defaultParams (-1) (-7) 2 8 := by unfold onScreen; decide +kernel

/-- A build with 0x100 bytes of RES. -/
def shortRes (l : List Int) : State :=
  { small l with params := { defaultParams with width := 16, height := 16, resSize := 0x100 } }

/-- BITMAP of 44_sprite_aligned.md R182's example, at a y that is not a multiple of 8. -/
theorem test_BitmapPixels_premises :
    defaultParams.wf = true ∧ addr ((ready [0, 3, 0x100, 2, 8]).arg 2) ≠ 0 ∧ onScreen defaultParams 0 3 2 8 ∧
    u8 ((ready [0, 3, 0x100, 2, 8]).arg 3) ≠ 0 ∧ u8 ((ready [0, 3, 0x100, 2, 8]).arg 4) ≠ 0 ∧
    cellsReadable defaultParams 0 3 2 8 (fun n => 0x100 + n) := by
  unfold onScreen cellsReadable cellVisible; decide +kernel

/-- The last byte of RES on the last column, and a clipped cell past it that no blit reads. -/
theorem test_cellsReadable_clipped :
    cellsReadable (shortRes []).params 15 0 2 8 (fun n => 0xFF + n) ∧
    ¬ cellsReadable (shortRes []).params 14 0 2 8 (fun n => 0xFF + n) := by
  unfold cellsReadable cellVisible; decide +kernel

theorem test_InvertTwice_premises :
    ∃ t, exec (.bitmap .invert) (withRes (ready [0, 3, 0x100, 2, 8]) 0x100 [0xFF, 0x81]) = .next t ∧
      decide (t.lastOutcome = some .done) = true := exists_next (by decide +kernel)

/-- The sprite of 45_sprite_unaligned.md R210's example, masked by an external mask at 0x200. -/
def spriteState : State :=
  withRes (withRes (small [0, 3, 0x100, 0, 0x200, 0]) 0x100 [0x02, 0x08, 0x0F, 0xF0]) 0x200 [0xFF, 0x00]

theorem test_SpritePixels_premises :
    spriteState.params.wf = true ∧ addr (spriteState.arg 2) ≠ 0 ∧ addr (spriteState.arg 4) ≠ 0 ∧
    resReadable spriteState.params 0x100 2 ∧ (spriteState.res.read 0x100).toNat = 2 ∧
    (spriteState.res.read 0x101).toNat = 8 ∧ onScreen spriteState.params 0 3 2 8 ∧
    spriteReadable spriteState.params .masked 0 3 0x100 0 0x200 0 2 8 ∧
    spriteReadable spriteState.params .plusmask 0 3 0x100 0 0x200 0 2 8 := by
  unfold onScreen spriteReadable cellsReadable cellVisible resReadable; and_intros <;> decide +kernel

theorem test_SpriteNullMask_premises :
    addr ((ready [0, 3, 0x100, 0, 0, 0]).arg 4) = 0 ∧ addr ((ready [0, 3, 0x100, 0, 0, 0]).arg 2) ≠ 0 ∧
    ∃ t, exec (.sprite .masked) (ready [0, 3, 0x100, 0, 0, 0]) = .next t ∧
      decide (t.lastOutcome = some (.err .nullMask)) = true :=
  ⟨by decide +kernel, by decide +kernel, exists_next (by decide +kernel)⟩

theorem test_SpriteOneWay_premises :
    (∃ t, exec (.sprite .selfmask) spriteState = .next t ∧ decide (t.lastOutcome = some .done) = true) ∧
    ∃ t, exec (.sprite .erasemask) spriteState = .next t ∧ decide (t.lastOutcome = some .done) = true :=
  ⟨exists_next (by decide +kernel), exists_next (by decide +kernel)⟩

/-- A header whose second byte cannot be read, and one neither of whose bytes can; a bitmap with one byte too few; a
readable header whose frame runs out of RES. -/
theorem test_ResourceRange_premises :
    (shortRes []).params.wf = true ∧ ¬ resReadable (shortRes []).params 0xFF 2 ∧
    ¬ resReadable (shortRes []).params 0x100 2 ∧ onScreen (shortRes []).params 0 0 2 8 ∧
    ¬ cellsReadable (shortRes []).params 0 0 2 8 (fun n => 0xFF + n) ∧ resReadable (shortRes []).params 0xFC 2 ∧
    ((withRes (shortRes [0, 0, 0xFC]) 0xFC [3, 8]).res.read 0xFC).toNat = 3 ∧
    ((withRes (shortRes [0, 0, 0xFC]) 0xFC [3, 8]).res.read 0xFD).toNat = 8 ∧
    ¬ resReadable (shortRes []).params (0xFC + 2 + 0 * cellCount 3 8) (cellCount 3 8) := by
  unfold onScreen cellsReadable cellVisible resReadable; and_intros <;> decide +kernel

/-- A sprite's last image byte, its last plus-mask byte, and the last byte of an external mask, each just past RES. -/
theorem test_ResourceRange_sprite :
    ¬ spriteReadable (shortRes []).params .unmasked 0 0 0xFC 0 0 0 3 8 ∧
    ¬ spriteReadable (shortRes []).params .plusmask 0 0 0xFB 0 0 0 2 8 ∧
    ¬ spriteReadable (shortRes []).params .masked 0 0 0xF0 0 0xFE 0 3 8 :=
  ⟨fun h => absurd (h.1 0 (by decide) 2 (by decide) (by unfold cellVisible; decide)) (by decide),
    fun h => absurd (h.2.1 rfl 0 (by decide) 1 (by decide) (by unfold cellVisible; decide)) (by decide),
    fun h => absurd (h.2.2 rfl 0 (by decide) 2 (by decide) (by unfold cellVisible; decide)) (by decide)⟩

/-- Streams of a 2 × 8 bitmap that run into the end of RES: after the header, and two bits into the second span. -/
theorem test_ResourceRange_streams :
    streamWants 2 8 (bitsLE 8 (2 - 1) ++ bitsLE 8 (8 - 1)) ∧
    streamHolds (shortRes []).params (withRes (shortRes [0, 0, 0xFE]) 0xFE [1, 7]).res 0xFE
      (bitsLE 8 (2 - 1) ++ bitsLE 8 (8 - 1)) ∧ (0xFE + 16 / 8) % 65536 = 0x100 ∧
    streamWants 2 8 (streamCode 2 8 true [(1, 8)] ++ [false, true]) ∧
    streamHolds (shortRes []).params (withRes (shortRes [0, 0, 0xFD]) 0xFD [1, 7, 0xBD]).res 0xFD
      (streamCode 2 8 true [(1, 8)] ++ [false, true]) ∧
    (0xFD + (streamCode 2 8 true [(1, 8)] ++ [false, true]).length / 8) % 65536 = 0x100 := by
  refine ⟨.inl rfl, by unfold streamHolds; decide +kernel, rfl,
    .inr ⟨true, [(1, 8)], 1, 8, [false, true], bitsLE 3 7, by unfold spanFits; decide, by decide, by unfold spanFits; decide,
      by decide, by decide, rfl⟩, by unfold streamHolds; decide +kernel, by decide⟩

/-- The stream of 46_rle_decoder.md R240's example: two spans of 8 pixels, of class 1. -/
theorem test_DrawcompDecodes_premises :
    streamState.params.wf = true ∧ addr (streamState.arg 2) = 0x200 ∧ onScreen streamState.params 0 3 2 8 ∧
    (∀ q ∈ [((1 : Nat), (8 : Nat)), (1, 8)], spanFits q) ∧
    ([((1 : Nat), (8 : Nat)), (1, 8)].map (fun q => q.2)).sum = 8 * cellCount 2 8 ∧
    streamHolds streamState.params streamState.res 0x200 (streamCode 2 8 true [(1, 8), (1, 8)]) := by
  unfold onScreen spanFits streamHolds; decide +kernel

/-- The longest class the decoder accepts, and the first it refuses. -/
theorem test_spanFits_boundary : spanFits (15, 2 ^ 31) ∧ ¬ spanFits (16, 1) ∧ spanFits (0, 2) ∧ ¬ spanFits (0, 3) := by
  unfold spanFits; decide +kernel

/-- Sixteen zeros after the starting colour, and after a span; a first span of 32 pixels in a bitmap of 16, and a second
one. -/
theorem test_DrawcompMalformed_premises :
    streamHolds streamState.params (withRes (small []) 0x200 [0x01, 0x07, 0x01, 0x00, 0x00]).res 0x200
      (streamCode 2 8 true [] ++ List.replicate 16 false) ∧
    streamHolds streamState.params (withRes (small []) 0x200 [0x01, 0x07, 0x3D, 0x00, 0x00]).res 0x200
      (streamCode 2 8 true [(1, 8)] ++ List.replicate 16 false) ∧
    spanFits (1, 8) ∧ ([((1 : Nat), (8 : Nat))].map fun q => q.2).sum < 8 * cellCount 2 8 ∧
    spanFits (2, 32) ∧ 8 * cellCount 2 8 < 0 + 32 ∧ 8 * cellCount 2 8 < 8 + 32 ∧
    streamHolds streamState.params (withRes (small []) 0x200 [0x01, 0x07, 0xF9, 0x01]).res 0x200
      (streamCode 2 8 true ([] ++ [(2, 32)])) ∧
    streamHolds streamState.params (withRes (small []) 0x200 [0x01, 0x07, 0x3D, 0x3F]).res 0x200
      (streamCode 2 8 true ([(1, 8)] ++ [(2, 32)])) := by
  unfold streamHolds spanFits; decide +kernel

theorem test_RotationSymmetry_premises :
    State.reset.params.wf = true ∧ s16 ((ready [0]).arg 0) = 0 ∧ s16 ((ready [90]).arg 0) = 90 ∧
    s16 (operands [315])[0] = s16 ((ready [-45]).arg 0) + 360 := by decide +kernel

theorem test_DrawrotLands_premises :
    rotState.params.wf = true ∧ addr (rotState.arg 2) = 0x100 ∧ resReadable rotState.params 0x100 2 ∧
    (rotState.res.read 0x100).toNat = 2 ∧ (rotState.res.read 0x101).toNat = 8 ∧
    resReadable rotState.params 0x102 (cellCount 2 8) ∧
    landsX rotState.params 10 2 8 90 100 1 7 = 8 ∧ landsY rotState.params 8 2 8 90 100 1 7 = 12 := by
  unfold resReadable; decide +kernel

/-- The angle 0 and a full turn, and the positions at the edges of the narrowing. -/
theorem test_DrawrotIdentity_premises :
    s16 ((ready [0, 0, 0x100, 0, 360, 100]).arg 4) % 360 = 0 ∧ u8 ((ready [0, 0, 0x100, 0, 360, 100]).arg 5) = 100 ∧
    (-128 : Int) ≤ -128 ∧ (-128 : Int) + (2 : Nat) - 1 ≤ 255 ∧ (254 : Int) + (2 : Nat) - 1 ≤ 255 := by decide +kernel

theorem test_DrawcharPaints_premises :
    inkOf .white = some true ∧ (ready [0, 0, 0x41, 0, 1]).params.wf = true ∧
    u8 ((ready [0, 0, 0x41, 0, 1]).arg 4) ≠ 0 ∧ glyphClean (ready [0, 0, 0x41, 0, 1]) 0 0 0x41 true false 1 :=
  ⟨rfl, by decide +kernel, by decide +kernel, .inl (by decide)⟩

/-- A glyph inside the buffer is clean in unchecked mode too. -/
theorem test_glyphClean_unchecked : glyphClean (unchecked (ready [])) 122 56 0x41 true true 1 := by
  refine .inr fun a b h => ?_
  unfold glyphWrites at h
  have h2 := of_decide_eq_true (Bool.and_eq_true _ _ ▸ ((Bool.and_eq_true _ _ ▸ h).1)).2
  have hp : (unchecked (ready [])).params = defaultParams := rfl
  rw [hp]
  unfold inBuffer defaultParams
  simp only [Bool.and_eq_true, decide_eq_true_eq]
  omega

theorem test_WritecharGlyph_premises :
    (ready [0x41]).Legal ∧ u8 ((ready [0x41]).arg 0) ≠ 0x0A ∧ u8 ((ready [0x41]).arg 0) ≠ 0x0D ∧
    glyphClean (ready [0x41]) 0 0 0x41 true false 1 :=
  ⟨by decide +kernel, by decide +kernel, by decide +kernel, .inl (by decide)⟩

theorem test_WritecharControl_premises :
    u8 ((ready [0x0A]).arg 0) = 0x0A ∧ u8 ((ready [0x0D]).arg 0) = 0x0D := by decide +kernel

/-- The last register offset and the first of the window, each way an access is not admitted. -/
theorem test_AccessNotAdmitted_premises :
    (0x0401 : Word).toNat % 2 = 1 ∧ (0x03FF : Word).toNat < 0x400 ∧
    (facing State.reset (.write16 0x0401 7)).pending = [.write16 0x0401 7] ∧
    (facing State.reset (.read8 0x03FF)).pending = [.read8 0x03FF] := by decide +kernel

/-- The last byte of the window. -/
theorem test_WindowAccess_premises :
    (0x07FE : Word).toNat = 0x400 + 1022 ∧ 1022 < State.reset.params.fbBytes ∧ 1022 % 2 = 0 ∧
    (0x07FF : Word).toNat = 0x400 + 1023 ∧ 1023 < State.reset.params.fbBytes ∧
    (facing State.reset (.write8 0x07FF 7)).pending = [.write8 0x07FF 7] := by decide +kernel

/-- The first offset past the window and the reserved offsets. -/
theorem test_UnmappedAndReservedOffsets_premises :
    0x400 + State.reset.params.fbBytes ≤ (0x0800 : Word).toNat ∧ (0x002C : Word).toNat % 2 = 0 ∧
    0x02C ≤ (0x002C : Word).toNat ∧ (0x03FE : Word).toNat ≤ 0x3FE ∧
    (facing State.reset (.read16 0x000C)).pending = [.read16 0x000C] := by decide +kernel

theorem test_RegisterReads_premises :
    (facing State.reset (.read16 (Reg.arg 7).offset)).pending = [.read16 0x001E] := by decide +kernel

theorem test_RegisterWrites_premises :
    (facing State.reset (.write16 Reg.textWrap.offset 0xFFFF)).pending = [.write16 0x002A 0xFFFF] ∧
    Reg.textWrap ≠ .cmd := by decide +kernel

theorem test_CommandLineRuns_premises :
    (Instr.line .white).WellFormed ∧ [(-1 : Int), 2, 65543, 9].length ≤ 8 ∧
    ({ State.reset with pending := commandLine (.line .white) [-1, 2, 65543, 9] ++ [Input.read16 0x0004] }).pending.length =
      6 := by decide +kernel

theorem test_CommitDeliversFb_premises :
    (small []).params.wf = true ∧ ({ small [] with pending := commitScript (small []).params }).pending.length = 32 := by
  decide +kernel

theorem test_PlatformReset_premises :
    (facing State.reset .platformReset).pending = .platformReset :: [] ∧
    (facing State.reset (.resetDuring 0x0101)).pending = .resetDuring 0x0101 :: [] := ⟨rfl, rfl⟩

theorem test_ResourceChanged_premises :
    (facing State.reset (.writeCmdRacingRes 0x0160 0xFFFF 1)).pending = .writeCmdRacingRes 0x0160 0xFFFF 1 :: [] ∧
    decode 0x0160 = .ok (.drawcomp .white) ∧ (0xFFFF : Word).toNat < State.reset.params.resSize ∧
    State.reset.res.read (0xFFFF : Word).toNat ≠ 1 := by decide +kernel

theorem test_ResourcesReadOnly_premises :
    (facing State.reset (.loadRes 0xFFFF 9)).pending = .loadRes 0xFFFF 9 :: [] ∧
    (0xFFFF : Word).toNat < State.reset.params.resSize ∧
    ∃ t, step (facing State.reset (.loadRes 0xFFFF 9)) = .next t ∧ decide (t.res = [(65535, 9)]) = true :=
  ⟨rfl, by decide +kernel, exists_next (by decide +kernel)⟩

/-- The last byte of FONT. -/
theorem test_ResourcesReadOnly_font :
    (facing State.reset (.loadFont 0xFF 4 9)).pending = .loadFont 0xFF 4 9 :: [] ∧
    ∃ t, step (facing State.reset (.loadFont 0xFF 4 9)) = .next t ∧
      decide (fontRead t.font 255 4 = 9 ∧ t.font = [(1279, 9)]) = true := ⟨rfl, exists_next (by decide +kernel)⟩

theorem test_StepKeepsLegal_premises :
    (facing State.reset (.write16 0x0024 0x0100)).Legal ∧
    ∃ t, step (facing State.reset (.write16 0x0024 0x0100)) = .next t ∧ decide (t.textSize = 1) = true :=
  ⟨by decide +kernel, exists_next (by decide +kernel)⟩

end Sys2Proof.Tests
end

section
/-! PROOFS of 00_scope.md: every command ends in exactly one of the three outcomes of 60_exceptions.md R310. -/

namespace Sys2Proof.Machine

/-! ## Ending in an outcome -/

/-- The answer `r` to a command started in `s` is a next state, in one of the three outcomes (00_scope.md R17). -/
def Concludes (s : State) (r : StepResult) : Prop :=
  ∃ (t : State) (o : CmdOutcome), r = .next t ∧ EndsIn s t o

/-- DONE constrains STATUS.ERR alone, whatever state `u` the command computed. -/
theorem concludes_done (s u : State) : Concludes s (.next (finishDone u)) :=
  ⟨finishDone u, .done, rfl, finishDone_lastOutcome u, finishDone_err u⟩

theorem concludes_err (e : ErrCode) (s : State) : Concludes s (.next (raiseErr e s)) :=
  ⟨raiseErr e s, .err e, rfl, raiseErr_lastOutcome e s, rfl⟩

theorem concludes_undefined (r : Undefined) (s : State) : Concludes s (.next (raiseUndefined r s)) :=
  ⟨raiseUndefined r s, .undefined r, rfl, raiseUndefined_lastOutcome r s, raiseUndefined_keeps r s⟩

theorem concludeFb_concludes (s : State) (result : Except Undefined Memory) : Concludes s (concludeFb s result) := by
  cases result with
  | ok fb => exact concludes_done s { s with fb := fb }
  | error r => exact concludes_undefined r s

theorem withInk_concludes (c : Colour) (s : State) (body : Bool → StepResult)
    (hbody : ∀ ink, Concludes s (body ink)) : Concludes s (withInk c s body) := by
  rcases withInk_cases c s body with ⟨ink, -, hrun⟩ | ⟨-, hrefused⟩
  · exact hrun ▸ hbody ink
  · exact hrefused ▸ concludes_err .reservedField s

/-! ## The commands -/

/-- A one-colour shape command draws the points its rule lists, in the ink of its colour. -/
theorem exec_shape {i : Instr} {s : State} {c : Colour} {pts : List Point} (h : shapePoints s i = some (c, pts)) :
    exec i s = withInk c s fun ink => drawPoints s ink pts := by
  cases i <;> cases h <;> rfl

theorem shape_concludes {i : Instr} {s : State} {c : Colour} {pts : List Point} (h : shapePoints s i = some (c, pts)) :
    Concludes s (exec i s) := by
  rw [exec_shape h]
  exact withInk_concludes c s _ fun ink => concludeFb_concludes s (paint s.params s.pixelSafe (inked ink pts) s.fb)

/-- A drawing command with null operands that make it a no-op (60_exceptions.md R320). -/
theorem drawUnless_concludes (null : Prop) [Decidable null] (s : State) (result : Except Undefined Memory) :
    Concludes s (if null then .next (finishDone s) else concludeFb s result) := by
  split
  · exact concludes_done s s
  · exact concludeFb_concludes s result

theorem execBitmap_concludes (c : Colour) (s : State) : Concludes s (execBitmap c s) :=
  drawUnless_concludes _ s _

theorem execSprite_concludes (m : DrawMode) (s : State) : Concludes s (execSprite m s) := by
  unfold execSprite
  dsimp only
  split
  · exact concludes_done s s
  · split
    · exact concludes_err .nullMask s
    · exact concludeFb_concludes s _

theorem execDrawcomp_concludes (c : Colour) (s : State) : Concludes s (execDrawcomp c s) :=
  withInk_concludes c s _ fun _ => drawUnless_concludes _ s _

theorem drawRotMode_concludes (selfMask : Bool) (s : State) : Concludes s (drawRotMode selfMask s) :=
  drawUnless_concludes _ s _

theorem execDrawrot_concludes (m : DrawMode) (s : State) : Concludes s (execDrawrot m s) := by
  cases m with
  | unmasked => exact drawRotMode_concludes false s
  | selfmask => exact drawRotMode_concludes true s
  | erasemask | masked | plusmask | autodetect => exact concludes_err .unsupportedMode s

theorem execDrawchar_concludes (c : Colour) (s : State) : Concludes s (execDrawchar c s) :=
  withInk_concludes c s _ fun _ => drawUnless_concludes _ s _

/-- WRITECHAR does not go through `concludeFb`: after a painted glyph the cursor moves too (48_glyph.md R293). -/
theorem writeGlyph_concludes (c : Nat) (s : State) : Concludes s (writeGlyph c s) := by
  unfold writeGlyph
  split
  case h_1 fb _ => exact concludes_done s (advance { s with fb := fb })
  case h_2 r _ => exact concludes_undefined r s

theorem execWritechar_concludes (s : State) : Concludes s (execWritechar s) := by
  unfold execWritechar
  split
  · exact concludes_done s (newLine s)
  · split
    · exact concludes_done s s
    · exact writeGlyph_concludes _ s

/-- Every command, well formed or not, ends in one of the three outcomes (60_exceptions.md R310). -/
theorem exec_concludes (i : Instr) (s : State) : Concludes s (exec i s) := by
  cases i with
  | nop | getpix | rotvec => exact concludes_done s _
  | fill c => exact withInk_concludes c s _ fun ink => concludes_done s { s with fb := filled s.params ink }
  | setpix | hline | vline | line | circle | circleq | fcircle | fcircleq | rect | frect | rrect | frrect | tri | ftri =>
    exact shape_concludes rfl
  | bitmap c => exact execBitmap_concludes c s
  | sprite m => exact execSprite_concludes m s
  | drawcomp c => exact execDrawcomp_concludes c s
  | drawrot m => exact execDrawrot_concludes m s
  | drawchar c => exact execDrawchar_concludes c s
  | writechar => exact execWritechar_concludes s

/-! ## The write of CMD -/

/-- A 16-bit host write at CMD's offset starts the command it writes (10_state.md R31). -/
theorem hostWrite16_cmd (v : Word) (s : State) : hostWrite16 Reg.cmd.offset v s = startCommand v s := by
  obtain ⟨hadmits, hbelow, hreg⟩ := Reg.cmd.offset_facts
  unfold hostWrite16
  rw [if_pos hadmits, windowIndex_outside s.params _ (.inl hbelow), hreg]

/-- The command's outcome is counted from the state in which CMD already holds the word. -/
theorem startCommand_concludes (v : Word) (s : State) : Concludes { s with cmd := v } (startCommand v s) := by
  unfold startCommand
  cases decode v with
  | error e => exact concludes_err (decodeErrCode e) (writeReg s .cmd v)
  | ok i => exact exec_concludes i (writeReg s .cmd v)

theorem step_cmd_concludes (s : State) (v : Word) (rest : List Input) (h : s.pending = .write16 0x0006 v :: rest) :
    Concludes { s with pending := rest, cmd := v } (step s) := by
  rw [step_perform s _ rest h]
  change Concludes _ (hostWrite16 Reg.cmd.offset v _)
  rw [hostWrite16_cmd]
  exact startCommand_concludes v { s with pending := rest }

/-- Settles O5: by cases on the command, each of whose branches ends in `finishDone`, `raiseErr` or `raiseUndefined`;
the write of CMD runs the decoded command or raises the decoder's error. -/
theorem commandOutcomes : Obligations.CommandOutcomes :=
  ⟨exec_concludes, step_cmd_concludes⟩

end Sys2Proof.Machine
end

section
/-! PROOFS of 10_state.md, the frame of the commands: what a command that ends in DONE may change. -/

namespace Sys2Proof.Machine

/-! ## The three endings, with what DONE may change -/

/-- The answer `r` to a command started in `s`: DONE in a state of which `P` holds up to STATUS.ERR, or ERR or UNDEFINED
raised in `s` itself (60_exceptions.md R310, R312). -/
def Answers (s : State) (P : State → Prop) (r : StepResult) : Prop :=
  (∃ t, r = .next (finishDone t) ∧ P t) ∨ (∃ e, r = .next (raiseErr e s)) ∨ ∃ u, r = .next (raiseUndefined u s)

theorem answers_done {s t : State} {P : State → Prop} (h : P t) : Answers s P (.next (finishDone t)) :=
  .inl ⟨t, rfl, h⟩

theorem answers_err (e : ErrCode) (s : State) (P : State → Prop) : Answers s P (.next (raiseErr e s)) :=
  .inr (.inl ⟨e, rfl⟩)

theorem answers_undefined (u : Undefined) (s : State) (P : State → Prop) : Answers s P (.next (raiseUndefined u s)) :=
  .inr (.inr ⟨u, rfl⟩)

theorem Answers.mono {s : State} {P Q : State → Prop} {r : StepResult} (h : Answers s P r) (hPQ : ∀ t, P t → Q t) :
    Answers s Q r :=
  h.imp_left fun ⟨t, hrun, ht⟩ => ⟨t, hrun, hPQ t ht⟩

theorem withInk_answers {c : Colour} {s : State} {P : State → Prop} {body : Bool → StepResult}
    (hbody : ∀ ink, Answers s P (body ink)) : Answers s P (withInk c s body) := by
  rcases withInk_cases c s body with ⟨ink, -, hrun⟩ | ⟨-, hrefused⟩
  · exact hrun ▸ hbody ink
  · exact hrefused ▸ answers_err .reservedField s P

/-! ## Commands that change at most FB -/

/-- `t` is `s` but for FB, and no byte outside FB differs (10_state.md R20, R22). -/
def FbOnly (s t : State) : Prop :=
  t = { s with fb := t.fb } ∧ (s.Legal → ∀ k, s.params.fbBytes ≤ k → t.fb.read k = s.fb.read k)

theorem State.Legal.height {s : State} (h : s.Legal) : s.params.height % 8 = 0 := by
  simp only [State.Legal, State.legal, Bool.and_eq_true] at h
  exact wf_height s.params (by tauto)

theorem State.Legal.fb_below {s : State} (h : s.Legal) : s.fb.below s.params.fbBytes = true := by
  simp only [State.Legal, State.legal, Bool.and_eq_true] at h
  tauto

theorem fbOnly_refl (s : State) : FbOnly s s := ⟨rfl, fun _ _ _ => rfl⟩

theorem fbOnly_writes {s : State} {fb : Memory} (h : s.Legal → WritesBelow s.params.fbBytes s.fb fb) :
    FbOnly s { s with fb := fb } :=
  ⟨rfl, fun hl k hk => (h hl).read_outside k hk⟩

/-- FILL tabulates a new frame buffer; the bytes past it read as they did because a legal FB lists none of them. -/
theorem fbOnly_filled (s : State) (ink : Bool) : FbOnly s { s with fb := filled s.params ink } := by
  refine ⟨rfl, fun hl k hk => ?_⟩
  rw [Memory.read_of_below _ _ k hl.fb_below hk]
  exact Memory.read_of_below _ _ k (Memory.below_tabulate _ _) hk

theorem concludeFb_fbOnly {s : State} {result : Except Undefined Memory}
    (h : ∀ fb, s.Legal → result = .ok fb → WritesBelow s.params.fbBytes s.fb fb) :
    Answers s (FbOnly s) (concludeFb s result) := by
  cases result with
  | ok fb => exact answers_done (fbOnly_writes fun hl => h fb hl rfl)
  | error u => exact answers_undefined u s _

/-- A drawing command with null operands that make it a no-op (60_exceptions.md R320). -/
theorem drawUnless_fbOnly {null : Prop} [Decidable null] {s : State} {result : Except Undefined Memory}
    (h : ∀ fb, s.Legal → result = .ok fb → WritesBelow s.params.fbBytes s.fb fb) :
    Answers s (FbOnly s) (if null then .next (finishDone s) else concludeFb s result) := by
  split
  · exact answers_done (fbOnly_refl s)
  · exact concludeFb_fbOnly h

theorem paint_fbOnly (s : State) (dots : List Dot) (fb : Memory) (hl : s.Legal)
    (h : paint s.params s.pixelSafe dots s.fb = .ok fb) : WritesBelow s.params.fbBytes s.fb fb :=
  paint_writes s.params hl.height s.pixelSafe dots s.fb fb h

theorem shape_fbOnly {i : Instr} {s : State} {c : Colour} {pts : List Point} (h : shapePoints s i = some (c, pts)) :
    Answers s (FbOnly s) (exec i s) := by
  rw [exec_shape h]
  exact withInk_answers fun ink => concludeFb_fbOnly (paint_fbOnly s (inked ink pts))

theorem execBitmap_fbOnly (c : Colour) (s : State) : Answers s (FbOnly s) (execBitmap c s) :=
  drawUnless_fbOnly fun fb _ h => blitCells_writes _ _ _ _ _ _ _ s.fb fb h

theorem execSprite_fbOnly (m : DrawMode) (s : State) : Answers s (FbOnly s) (execSprite m s) := by
  unfold execSprite
  dsimp only
  split
  · exact answers_done (fbOnly_refl s)
  · split
    · exact answers_err .nullMask s _
    · exact concludeFb_fbOnly fun fb _ h => drawSprite_writes s _ _ _ _ _ fb h

theorem execDrawcomp_fbOnly (c : Colour) (s : State) : Answers s (FbOnly s) (execDrawcomp c s) :=
  withInk_answers fun col => drawUnless_fbOnly fun fb _ h => drawCompressed_writes s col _ _ _ fb h

theorem drawRotMode_fbOnly (selfMask : Bool) (s : State) : Answers s (FbOnly s) (drawRotMode selfMask s) :=
  drawUnless_fbOnly fun fb hl h => drawRotated_writes s hl.height selfMask _ _ fb h

theorem execDrawrot_fbOnly (m : DrawMode) (s : State) : Answers s (FbOnly s) (execDrawrot m s) := by
  cases m with
  | unmasked => exact drawRotMode_fbOnly false s
  | selfmask => exact drawRotMode_fbOnly true s
  | erasemask | masked | plusmask | autodetect => exact answers_err .unsupportedMode s _

theorem execDrawchar_fbOnly (c : Colour) (s : State) : Answers s (FbOnly s) (execDrawchar c s) :=
  withInk_answers fun _ => drawUnless_fbOnly (paint_fbOnly s _)

/-! ## WRITECHAR: FB and the cursor -/

/-- `t` is `s` but for the cursor and FB, and no byte outside FB differs (48_glyph.md R293, R294). -/
def FbAndCursorOnly (s t : State) : Prop :=
  t = { s with fb := t.fb, cursorX := t.cursorX, cursorY := t.cursorY } ∧
    (s.Legal → ∀ k, s.params.fbBytes ≤ k → t.fb.read k = s.fb.read k)

theorem advance_frame (s : State) :
    advance s = { s with cursorX := (advance s).cursorX, cursorY := (advance s).cursorY } := by
  unfold advance
  dsimp only
  split <;> rfl

theorem writeGlyph_answers (c : Nat) (s : State) : Answers s (FbAndCursorOnly s) (writeGlyph c s) := by
  unfold writeGlyph
  split
  case h_1 fb hpaint =>
    refine answers_done ⟨?_, fun hl k hk => ?_⟩
    · rw [advance_fb]
      exact advance_frame { s with fb := fb }
    · rw [advance_fb]
      exact (paint_fbOnly s _ fb hl hpaint).read_outside k hk
  case h_2 u _ => exact answers_undefined u s _

theorem execWritechar_answers (s : State) : Answers s (FbAndCursorOnly s) (execWritechar s) := by
  unfold execWritechar
  split
  · exact answers_done ⟨rfl, fun _ _ _ => rfl⟩
  · split
    · exact answers_done ⟨rfl, fun _ _ _ => rfl⟩
    · exact writeGlyph_answers _ s

/-! ## Every command -/

/-- What command `i` may change on its way to DONE, from `s` to `t`, STATUS.ERR left out: FB inside its bytes, and the
result and cursor registers of the commands that write them (10_state.md R22, R23, R32, R34, R40, R41). -/
structure CommandChanges (i : Instr) (s t : State) : Prop where
  frame : t = { s with
    fb := t.fb, result0 := t.result0, result1 := t.result1, cursorX := t.cursorX, cursorY := t.cursorY }
  result0 : i ≠ .getpix → i ≠ .rotvec → t.result0 = s.result0
  result1 : i ≠ .rotvec → t.result1 = s.result1
  cursor : i ≠ .writechar → t.cursorX = s.cursorX ∧ t.cursorY = s.cursorY
  fb : i = .nop ∨ i = .getpix ∨ i = .rotvec → t.fb = s.fb
  outside : s.Legal → ∀ k, s.params.fbBytes ≤ k → t.fb.read k = s.fb.read k

theorem FbOnly.commandChanges {i : Instr} {s t : State} (h : FbOnly s t)
    (hi : i ≠ .nop ∧ i ≠ .getpix ∧ i ≠ .rotvec) : CommandChanges i s t := by
  obtain ⟨ht, hout⟩ := h
  obtain ⟨hnop, hget, hrot⟩ := hi
  refine ⟨by rw [ht], ?_, ?_, ?_, ?_, hout⟩
  · intros; rw [ht]
  · intros; rw [ht]
  · intros; rw [ht]; exact ⟨rfl, rfl⟩
  · intro h; tauto

theorem FbAndCursorOnly.commandChanges {s t : State} (h : FbAndCursorOnly s t) : CommandChanges .writechar s t := by
  obtain ⟨ht, hout⟩ := h
  refine ⟨by rw [ht], ?_, ?_, fun h => absurd rfl h, fun h => by simp at h, hout⟩
  · intros; rw [ht]
  · intros; rw [ht]

theorem nop_commandChanges (s : State) : CommandChanges .nop s s where
  frame := rfl
  result0 _ _ := rfl
  result1 _ := rfl
  cursor _ := ⟨rfl, rfl⟩
  fb _ := rfl
  outside _ _ _ := rfl

theorem getpix_commandChanges (s : State) (v : Word) : CommandChanges .getpix s { s with result0 := v } where
  frame := rfl
  result0 h _ := absurd rfl h
  result1 _ := rfl
  cursor _ := ⟨rfl, rfl⟩
  fb _ := rfl
  outside _ _ _ := rfl

theorem rotvec_commandChanges (s : State) (v w : Word) :
    CommandChanges .rotvec s { s with result0 := v, result1 := w } where
  frame := rfl
  result0 _ h := absurd rfl h
  result1 h := absurd rfl h
  cursor _ := ⟨rfl, rfl⟩
  fb _ := rfl
  outside _ _ _ := rfl

/-- What a command answers, for every command and every state. -/
theorem exec_answers (i : Instr) (s : State) : Answers s (CommandChanges i s) (exec i s) := by
  have draws : ∀ {j : Instr}, Answers s (FbOnly s) (exec j s) → j ≠ .nop ∧ j ≠ .getpix ∧ j ≠ .rotvec →
      Answers s (CommandChanges j s) (exec j s) :=
    fun h hj => h.mono fun _ ht => ht.commandChanges hj
  cases i with
  | nop => exact answers_done (nop_commandChanges s)
  | getpix => exact answers_done (getpix_commandChanges s _)
  | rotvec => exact answers_done (rotvec_commandChanges s _ _)
  | writechar => exact (execWritechar_answers s).mono fun _ ht => ht.commandChanges
  | fill c => exact draws (withInk_answers fun ink => answers_done (fbOnly_filled s ink)) (by simp)
  | setpix | hline | vline | line | circle | circleq | fcircle | fcircleq | rect | frect | rrect | frrect | tri | ftri =>
    exact draws (shape_fbOnly rfl) (by simp)
  | bitmap c => exact draws (execBitmap_fbOnly c s) (by simp)
  | sprite m => exact draws (execSprite_fbOnly m s) (by simp)
  | drawcomp c => exact draws (execDrawcomp_fbOnly c s) (by simp)
  | drawrot m => exact draws (execDrawrot_fbOnly m s) (by simp)
  | drawchar c => exact draws (execDrawchar_fbOnly c s) (by simp)

/-- A command that ended in DONE made only its own changes. -/
theorem exec_done {i : Instr} {s t : State} (hrun : exec i s = .next t) (hdone : t.lastOutcome = some .done) :
    ∃ u, t = finishDone u ∧ CommandChanges i s u := by
  rcases exec_answers i s with ⟨u, hu, hchanges⟩ | ⟨e, he⟩ | ⟨r, hr⟩
  · rw [hu] at hrun
    cases hrun
    exact ⟨u, rfl, hchanges⟩
  · rw [he] at hrun
    cases hrun
    cases hdone
  · rw [hr] at hrun
    cases hrun
    cases hdone

/-- Settles O6: by cases on the command, a drawing command writes only FB bytes, and the rest of its change is the
registers of `CommandChanges`; ERR and UNDEFINED are excluded by the outcome. -/
theorem commandFrame : Obligations.CommandFrame := by
  intro i s t hl hrun hdone
  obtain ⟨u, rfl, hu⟩ := exec_done hrun hdone
  exact ⟨congrArg finishDone hu.frame, hu.result0, hu.result1, hu.cursor, hu.fb, hu.outside hl⟩

end Sys2Proof.Machine
end

section
/-! PROOFS of 10_state.md R24: a command sees an ARG register through its operand view alone. -/

namespace Sys2Proof.Machine

/-! ## Running with other ARG registers -/

/-- The state with its ARG registers replaced. -/
def State.withArgs (s : State) (B : Vector Word 8) : State := { s with args := B }

/-- The runs `a` and `b` answer the same next state but for the ARG registers, which `b` leaves at `B`. -/
def SameButArgs (B : Vector Word 8) (a b : StepResult) : Prop := ∃ t, a = .next t ∧ b = .next (t.withArgs B)

theorem sameButArgs_done (t : State) (B : Vector Word 8) :
    SameButArgs B (.next (finishDone t)) (.next (finishDone (t.withArgs B))) := ⟨_, rfl, rfl⟩

theorem sameButArgs_err (e : ErrCode) (s : State) (B : Vector Word 8) :
    SameButArgs B (.next (raiseErr e s)) (.next (raiseErr e (s.withArgs B))) := ⟨_, rfl, rfl⟩

theorem sameButArgs_undefined (r : Undefined) (s : State) (B : Vector Word 8) :
    SameButArgs B (.next (raiseUndefined r s)) (.next (raiseUndefined r (s.withArgs B))) := ⟨_, rfl, rfl⟩

theorem sameButArgs_concludeFb (s : State) (B : Vector Word 8) (result : Except Undefined Memory) :
    SameButArgs B (concludeFb s result) (concludeFb (s.withArgs B) result) := by
  cases result with
  | ok fb => exact sameButArgs_done { s with fb := fb } B
  | error r => exact sameButArgs_undefined r s B

theorem sameButArgs_withInk {c : Colour} {s : State} {B : Vector Word 8} {f g : Bool → StepResult}
    (h : ∀ ink, SameButArgs B (f ink) (g ink)) : SameButArgs B (withInk c s f) (withInk c (s.withArgs B) g) := by
  cases c with
  | black => exact h false
  | white => exact h true
  | invert => exact sameButArgs_err .reservedField s B

theorem sameButArgs_drawUnless (null : Prop) [Decidable null] (s : State) (B : Vector Word 8)
    (result : Except Undefined Memory) :
    SameButArgs B (if null then .next (finishDone s) else concludeFb s result)
      (if null then .next (finishDone (s.withArgs B)) else concludeFb (s.withArgs B) result) := by
  split
  · exact sameButArgs_done s B
  · exact sameButArgs_concludeFb s B result

/-! ## The commands -/

/-- `B` gives command `i` the operand values that the ARG registers of `s` give it (30_encoding.md R81, R84). -/
def SameOperands (i : Instr) (s : State) (B : Vector Word 8) : Prop :=
  ∀ e ∈ operandViews i, e.2.value ((s.withArgs B).arg e.1) = e.2.value (s.arg e.1)

/-- A shape's points are computed from its operand values alone: the same rewriting for each shape command. -/
theorem shapePoints_withArgs {i : Instr} {s : State} {B : Vector Word 8} (h : SameOperands i s B) :
    shapePoints (s.withArgs B) i = shapePoints s i := by
  have hparams : (s.withArgs B).params = s.params := rfl
  cases i <;> simp_all [SameOperands, operandViews, View.value, shapePoints]

theorem shape_withArgs {i : Instr} {s : State} {B : Vector Word 8} {c : Colour} {pts : List Point}
    (hpts : shapePoints s i = some (c, pts)) (h : SameOperands i s B) :
    SameButArgs B (exec i s) (exec i (s.withArgs B)) := by
  rw [exec_shape hpts, exec_shape ((shapePoints_withArgs h).trans hpts)]
  exact sameButArgs_withInk fun ink => sameButArgs_concludeFb s B (paint s.params s.pixelSafe (inked ink pts) s.fb)

theorem execGetpix_withArgs {s : State} {B : Vector Word 8} (h : SameOperands .getpix s B) :
    SameButArgs B (execGetpix s) (execGetpix (s.withArgs B)) := by
  simp only [SameOperands, operandViews, View.value, List.forall_mem_cons] at h
  obtain ⟨hx, hy, -⟩ := h
  unfold execGetpix
  rw [hx, hy]
  exact ⟨_, rfl, rfl⟩

theorem execRotvec_withArgs {s : State} {B : Vector Word 8} (h : SameOperands .rotvec s B) :
    SameButArgs B (execRotvec s) (execRotvec (s.withArgs B)) := by
  simp only [SameOperands, operandViews, View.value, List.forall_mem_cons] at h
  obtain ⟨hangle, -⟩ := h
  unfold execRotvec
  rw [hangle]
  exact ⟨_, rfl, rfl⟩

theorem execBitmap_withArgs {c : Colour} {s : State} {B : Vector Word 8} (h : SameOperands (.bitmap c) s B) :
    SameButArgs B (execBitmap c s) (execBitmap c (s.withArgs B)) := by
  simp only [SameOperands, operandViews, View.value, List.forall_mem_cons, Nat.cast_inj] at h
  obtain ⟨hx, hy, hb, hw, hh, -⟩ := h
  unfold execBitmap
  rw [hx, hy, hb, hw, hh]
  exact sameButArgs_drawUnless _ s B _

theorem drawSprite_withArgs {s : State} {B : Vector Word 8} (hx : s16 ((s.withArgs B).arg 0) = s16 (s.arg 0))
    (hy : s16 ((s.withArgs B).arg 1) = s16 (s.arg 1)) (m : DrawMode) (b f mask mf : Nat) :
    drawSprite (s.withArgs B) m b f mask mf = drawSprite s m b f mask mf := by
  unfold drawSprite
  rw [hx, hy]
  rfl

theorem execSprite_withArgs {m : DrawMode} {s : State} {B : Vector Word 8} (h : SameOperands (.sprite m) s B) :
    SameButArgs B (execSprite m s) (execSprite m (s.withArgs B)) := by
  simp only [SameOperands, operandViews, View.value, List.forall_mem_cons, Nat.cast_inj] at h
  obtain ⟨hx, hy, hb, hf, hmask, hmf, -⟩ := h
  unfold execSprite
  rw [hb, hf, hmask, hmf]
  dsimp only
  rw [drawSprite_withArgs hx hy]
  split
  · exact sameButArgs_done s B
  · split
    · exact sameButArgs_err .nullMask s B
    · exact sameButArgs_concludeFb s B _

theorem execDrawcomp_withArgs {c : Colour} {s : State} {B : Vector Word 8} (h : SameOperands (.drawcomp c) s B) :
    SameButArgs B (execDrawcomp c s) (execDrawcomp c (s.withArgs B)) := by
  simp only [SameOperands, operandViews, View.value, List.forall_mem_cons, Nat.cast_inj] at h
  obtain ⟨hx, hy, hst, -⟩ := h
  refine sameButArgs_withInk fun col => ?_
  rw [hx, hy, hst]
  exact sameButArgs_drawUnless _ s B (drawCompressed s col _ _ _)

theorem drawRotated_withArgs {s : State} {B : Vector Word 8} (hx : s16 ((s.withArgs B).arg 0) = s16 (s.arg 0))
    (hy : s16 ((s.withArgs B).arg 1) = s16 (s.arg 1)) (hangle : s16 ((s.withArgs B).arg 4) = s16 (s.arg 4))
    (hscale : u8 ((s.withArgs B).arg 5) = u8 (s.arg 5)) (selfMask : Bool) (b f : Nat) :
    drawRotated (s.withArgs B) selfMask b f = drawRotated s selfMask b f := by
  unfold drawRotated
  rw [hx, hy, hangle, hscale]
  rfl

theorem drawRotMode_withArgs {m : DrawMode} {s : State} {B : Vector Word 8} (h : SameOperands (.drawrot m) s B)
    (selfMask : Bool) : SameButArgs B (drawRotMode selfMask s) (drawRotMode selfMask (s.withArgs B)) := by
  simp only [SameOperands, operandViews, View.value, List.forall_mem_cons, Nat.cast_inj] at h
  obtain ⟨hx, hy, hb, hf, hangle, hscale, -⟩ := h
  unfold drawRotMode
  rw [hb, hf, drawRotated_withArgs hx hy hangle hscale]
  exact sameButArgs_drawUnless _ s B _

theorem execDrawrot_withArgs {m : DrawMode} {s : State} {B : Vector Word 8} (h : SameOperands (.drawrot m) s B) :
    SameButArgs B (execDrawrot m s) (execDrawrot m (s.withArgs B)) := by
  cases m with
  | unmasked => exact drawRotMode_withArgs h false
  | selfmask => exact drawRotMode_withArgs h true
  | erasemask | masked | plusmask | autodetect => exact sameButArgs_err .unsupportedMode s B

theorem execDrawchar_withArgs {c : Colour} {s : State} {B : Vector Word 8} (h : SameOperands (.drawchar c) s B) :
    SameButArgs B (execDrawchar c s) (execDrawchar c (s.withArgs B)) := by
  simp only [SameOperands, operandViews, View.value, List.forall_mem_cons, Nat.cast_inj] at h
  obtain ⟨hx, hy, hcode, hbg, hsize, -⟩ := h
  refine sameButArgs_withInk fun fg => ?_
  rw [hx, hy, hcode, hbg, hsize]
  exact sameButArgs_drawUnless _ s B _

theorem advance_withArgs (s : State) (B : Vector Word 8) : advance (s.withArgs B) = (advance s).withArgs B := by
  unfold advance
  dsimp only
  rw [apply_ite (State.withArgs · B)]
  rfl

/-- FB after the glyph that WRITECHAR paints at the cursor, in the text registers' colours and size. -/
def glyphPainted (c : Nat) (s : State) : Except Undefined Memory :=
  paint s.params s.pixelSafe (glyphDots s.params s.font (s16 s.cursorX) (s16 s.cursorY) c (s.textColor.getLsbD 0)
    (s.textBg.getLsbD 0) (u8 s.textSize)) s.fb

theorem writeGlyph_ok {c : Nat} {s : State} {fb : Memory} (h : glyphPainted c s = .ok fb) :
    writeGlyph c s = .next (finishDone (advance { s with fb := fb })) := by
  unfold glyphPainted at h
  unfold writeGlyph
  rw [h]

theorem writeGlyph_error {c : Nat} {s : State} {r : Undefined} (h : glyphPainted c s = .error r) :
    writeGlyph c s = .next (raiseUndefined r s) := by
  unfold glyphPainted at h
  unfold writeGlyph
  rw [h]

/-- The glyph is painted from the cursor and the text registers: no ARG register enters. -/
theorem writeGlyph_withArgs (c : Nat) (s : State) (B : Vector Word 8) :
    SameButArgs B (writeGlyph c s) (writeGlyph c (s.withArgs B)) := by
  have hsame : glyphPainted c (s.withArgs B) = glyphPainted c s := rfl
  cases hpaint : glyphPainted c s with
  | ok fb =>
    rw [writeGlyph_ok hpaint, writeGlyph_ok (hsame.trans hpaint)]
    change SameButArgs B _ (.next (finishDone (advance ({ s with fb := fb }.withArgs B))))
    rw [advance_withArgs]
    exact sameButArgs_done _ B
  | error r =>
    rw [writeGlyph_error hpaint, writeGlyph_error (hsame.trans hpaint)]
    exact sameButArgs_undefined r s B

theorem execWritechar_withArgs {s : State} {B : Vector Word 8} (h : SameOperands .writechar s B) :
    SameButArgs B (execWritechar s) (execWritechar (s.withArgs B)) := by
  simp only [SameOperands, operandViews, View.value, List.forall_mem_cons, Nat.cast_inj] at h
  obtain ⟨hcode, -⟩ := h
  unfold execWritechar
  rw [hcode]
  split
  · exact sameButArgs_done (newLine s) B
  · split
    · exact sameButArgs_done s B
    · exact writeGlyph_withArgs _ s B

/-- Two sets of ARG registers with the same operand values run every command alike. -/
theorem exec_withArgs {i : Instr} {s : State} {B : Vector Word 8} (h : SameOperands i s B) :
    SameButArgs B (exec i s) (exec i (s.withArgs B)) := by
  cases i with
  | nop => exact sameButArgs_done s B
  | fill c => exact sameButArgs_withInk fun ink => sameButArgs_done { s with fb := filled s.params ink } B
  | setpix | hline | vline | line | circle | circleq | fcircle | fcircleq | rect | frect | rrect | frrect | tri | ftri =>
    exact shape_withArgs rfl h
  | getpix => exact execGetpix_withArgs h
  | rotvec => exact execRotvec_withArgs h
  | bitmap c => exact execBitmap_withArgs h
  | sprite m => exact execSprite_withArgs h
  | drawcomp c => exact execDrawcomp_withArgs h
  | drawrot m => exact execDrawrot_withArgs h
  | drawchar c => exact execDrawchar_withArgs h
  | writechar => exact execWritechar_withArgs h

theorem SameButArgs.agree {B : Vector Word 8} {a b : StepResult} (h : SameButArgs B a b) :
    Agree a b fun t => { t with args := B } := by
  obtain ⟨t, ha, hb⟩ := h
  exact ⟨t, t.withArgs B, ha, hb, rfl, fun _ => rfl⟩

/-- Settles O8: by cases on the command, each of which computes with the views of R84's operand column alone. -/
theorem operandViewsAlone : Obligations.OperandViewsAlone := by
  intro i s A B h
  exact (exec_withArgs (s := { s with args := A }) fun e he => (h e he).symm).agree

end Sys2Proof.Machine
end

section
/-! PROOFS of 10_state.md R26 to R38: what a host access of a register reads, writes and runs. -/

namespace Sys2Proof.Machine

/-! ## Accesses at a register's offset -/

theorem readValue16_reg (s : State) (r : Reg) : readValue16 s r.offset.toNat = readReg s r := by
  obtain ⟨-, hbelow, hreg⟩ := r.offset_facts
  unfold readValue16
  rw [windowIndex_outside s.params _ (.inl hbelow), hreg]

theorem hostRead16_reg (s : State) (r : Reg) : hostRead16 r.offset s = respond s (.word (readReg s r)) := by
  obtain ⟨hadmits, -, -⟩ := r.offset_facts
  unfold hostRead16
  rw [if_pos hadmits, readValue16_reg]

theorem hostWrite16_reg (s : State) {r : Reg} (v : Word) (hr : r ≠ .cmd) :
    hostWrite16 r.offset v s = .next (writeReg s r v) := by
  obtain ⟨hadmits, hbelow, hreg⟩ := r.offset_facts
  unfold hostWrite16
  rw [if_pos hadmits, windowIndex_outside s.params _ (.inl hbelow), hreg]
  cases r with
  | cmd => exact absurd rfl hr
  | _ => rfl

/-- Settles O4: the offset 0x0006 is CMD's, and a write there that decodes runs the command with CMD holding the word. -/
theorem stepRunsCommand : Obligations.StepRunsCommand := by
  intro s v rest i hnext hdecode
  rw [step_perform s _ rest hnext]
  change hostWrite16 Reg.cmd.offset v _ = _
  rw [hostWrite16_cmd]
  unfold startCommand
  rw [hdecode]
  rfl

/-- Settles O51: by cases on the register, each of which reads as one field of the state, STATUS as two. -/
theorem registerReads : Obligations.RegisterReads := by
  intro s r rest hnext
  constructor
  · rw [step_perform s _ rest hnext]
    change Host.Outcome.next (hostRead16 r.offset { s with pending := rest }) = _
    rw [hostRead16_reg]
    cases r <;> rfl
  · cases r with
    | status => exact toNat_statusWord s.err s.busErr
    | _ => rfl

/-! ## What a register stores -/

/-- The queue of inputs is no register. -/
theorem readReg_pending (s : State) (rest : List Input) (r : Reg) : readReg { s with pending := rest } r = readReg s r := by
  cases r <;> rfl

theorem readReg_writeReg_other (s : State) {r r' : Reg} (v : Word) (h : r' ≠ r) :
    readReg (writeReg s r v) r' = readReg s r' := by
  cases r with
  | arg i =>
    cases r' with
    | arg j =>
      have hij : i.val ≠ j.val := fun he => h (congrArg Reg.arg (Fin.ext he).symm)
      exact Vector.getElem_set_ne i.isLt j.isLt hij
    | _ => rfl
  | _ => cases r' <;> simp_all [readReg, writeReg, State.arg]

/-- A write touches the registers it may store into and no other part of the state. -/
theorem writeReg_frame (s : State) {r : Reg} (v : Word) (hr : r ≠ .cmd) :
    writeReg s r v = { s with
      args := (writeReg s r v).args
      config := (writeReg s r v).config
      busErr := (writeReg s r v).busErr
      cursorX := (writeReg s r v).cursorX
      cursorY := (writeReg s r v).cursorY
      textSize := (writeReg s r v).textSize
      textColor := (writeReg s r v).textColor
      textBg := (writeReg s r v).textBg
      textWrap := (writeReg s r v).textWrap } := by
  cases r with
  | cmd => exact absurd rfl hr
  | _ => rfl

theorem toNat_bit0Only (v : Word) : (bit0Only v).toNat = v.toNat % 2 := by
  unfold bit0Only
  rw [BitVec.toNat_and]
  exact Nat.and_one_is_mod v.toNat

theorem toNat_low_byte (v : Word) : (v &&& 0x00FF).toNat = v.toNat % 256 := by
  rw [BitVec.toNat_and]
  exact Nat.and_two_pow_sub_one_eq_mod v.toNat 8

theorem toNat_legalTextSize (v : Word) :
    (legalTextSize v).toNat = if v.toNat % 256 = 0 then 1 else v.toNat % 256 := by
  have hzero : v &&& 0x00FF = 0 ↔ v.toNat % 256 = 0 := by
    rw [← toNat_low_byte]
    exact BitVec.toNat_inj.symm
  unfold legalTextSize
  by_cases h : v.toNat % 256 = 0
  · rw [if_pos (hzero.2 h), if_pos h]; rfl
  · rw [if_neg (mt hzero.1 h), if_neg h, toNat_low_byte]

theorem busErrAfterWrite_eq (busErr : Bool) (v : Word) :
    busErrAfterWrite busErr v = (busErr && v.toNat / 16 % 2 == 0) := by
  have hbit : (!v.getLsbD 4) = (v.toNat / 16 % 2 == 0) := by
    rw [BitVec.getLsbD, Nat.testBit_eq_decide_div_mod_eq]
    rcases Nat.mod_two_eq_zero_or_one (v.toNat / 16) with h | h <;> simp [h]
  rw [busErrAfterWrite, hbit]

/-- Settles O52: by cases on the register written, and for the other registers on the one read. -/
theorem registerWrites : Obligations.RegisterWrites := by
  intro s r v rest hnext hr
  refine ⟨writeReg { s with pending := rest } r v, ?_, ?_, writeReg_frame _ v hr, ?_⟩
  · rw [step_perform s _ rest hnext]
    exact hostWrite16_reg _ v hr
  · intro r' h
    rw [readReg_writeReg_other _ v h, readReg_pending]
  · cases r with
    | id | result0 | result1 | cursorX | cursorY => rfl
    | cmd => exact absurd rfl hr
    | config | textColor | textBg | textWrap => exact toNat_bit0Only v
    | textSize => exact toNat_legalTextSize v
    | status =>
      rw [← busErrAfterWrite_eq]
      exact toNat_statusWord s.err (busErrAfterWrite s.busErr v)
    | arg i => exact congrArg BitVec.toNat (Vector.getElem_set_self i.isLt)

end Sys2Proof.Machine
end

section
/-! PROOFS of 10_state.md R40 and R41: who may change RES, FONT and the parameters. -/

namespace Sys2Proof.Machine

/-- `t` has the parameters, RES and FONT of `s`. -/
structure KeepsResources (s t : State) : Prop where
  params : t.params = s.params
  res : t.res = s.res
  font : t.font = s.font

theorem CommandChanges.keepsResources {i : Instr} {s t : State} (h : CommandChanges i s t) : KeepsResources s t := by
  refine ⟨?_, ?_, ?_⟩ <;> rw [h.frame]

/-- No command changes a resource, whatever its outcome. -/
theorem exec_keepsResources {i : Instr} {s t : State} (h : exec i s = .next t) : KeepsResources s t := by
  rcases exec_answers i s with ⟨u, hu, hchanges⟩ | ⟨e, he⟩ | ⟨r, hr⟩
  · rw [hu] at h
    cases h
    obtain ⟨hparams, hres, hfont⟩ := hchanges.keepsResources
    exact ⟨hparams, hres, hfont⟩
  · rw [he] at h
    cases h
    exact ⟨rfl, rfl, rfl⟩
  · rw [hr] at h
    cases h
    exact ⟨rfl, rfl, rfl⟩

theorem writeReg_keepsResources (s : State) (r : Reg) (v : Word) : KeepsResources s (writeReg s r v) := by
  cases r <;> exact ⟨rfl, rfl, rfl⟩

theorem startCommand_keepsResources {v : Word} {s t : State} (h : startCommand v s = .next t) : KeepsResources s t := by
  unfold startCommand at h
  split at h
  · cases h
    exact ⟨rfl, rfl, rfl⟩
  · obtain ⟨hparams, hres, hfont⟩ := exec_keepsResources h
    exact ⟨hparams, hres, hfont⟩

theorem hostWrite16_keepsResources {off v : Word} {s t : State} (h : hostWrite16 off v s = .next t) :
    KeepsResources s t := by
  unfold hostWrite16 at h
  split at h
  · split at h
    · cases h
      exact ⟨rfl, rfl, rfl⟩
    · split at h
      · exact startCommand_keepsResources h
      · cases h
        exact writeReg_keepsResources s _ v
      · cases h
        exact ⟨rfl, rfl, rfl⟩
  · cases h
    exact ⟨rfl, rfl, rfl⟩

theorem hostWrite8_keepsResources (off : Word) (v : Byte) (s : State) : KeepsResources s (hostWrite8 off v s) := by
  unfold hostWrite8
  split
  · split <;> exact ⟨rfl, rfl, rfl⟩
  · exact ⟨rfl, rfl, rfl⟩

theorem hostRead16_keepsResources (off : Word) (s : State) : KeepsResources s (hostRead16 off s) := by
  unfold hostRead16
  split <;> exact ⟨rfl, rfl, rfl⟩

theorem hostRead8_keepsResources (off : Word) (s : State) : KeepsResources s (hostRead8 off s) := by
  unfold hostRead8
  split <;> exact ⟨rfl, rfl, rfl⟩

/-- A racing store may change RES, the rest stays (20_memory.md R68). -/
theorem raceCommand_keeps {v a : Word} {b : Byte} {s t : State} (h : raceCommand v a b s = .next t) :
    t.params = s.params ∧ t.font = s.font := by
  unfold raceCommand at h
  split at h
  · cases h
    simp
  · split at h
    · cases h
      simp
    · obtain ⟨hparams, -, hfont⟩ := exec_keepsResources h
      exact ⟨hparams, hfont⟩

/-- What an input can do to RES, FONT and the parameters: nothing, or it is one of the platform's two loads, or the
outside agent's store (20_memory.md R68; 70_reset_and_hazards.md R344). -/
theorem perform_cases {e : Input} {s t : State} (h : perform e s = .next t) :
    KeepsResources s t ∨ (∃ a b, e = .loadRes a b ∧ t = loadRes a b s) ∨
    (∃ c i b, e = .loadFont c i b ∧ t = loadFont c i b s) ∨
    ∃ v a b, e = .writeCmdRacingRes v a b ∧ t.params = s.params ∧ t.font = s.font := by
  cases e with
  | write16 off v => exact .inl (hostWrite16_keepsResources h)
  | write8 off v => cases h; exact .inl (hostWrite8_keepsResources off v s)
  | read16 off => cases h; exact .inl (hostRead16_keepsResources off s)
  | read8 off => cases h; exact .inl (hostRead8_keepsResources off s)
  | platformReset | resetDuring => cases h; exact .inl ⟨rfl, rfl, rfl⟩
  | loadRes a b => cases h; exact .inr (.inl ⟨a, b, rfl, rfl⟩)
  | loadFont c i b => cases h; exact .inr (.inr (.inl ⟨c, i, b, rfl, rfl⟩))
  | writeCmdRacingRes v a b => exact .inr (.inr (.inr ⟨v, a, b, rfl, raceCommand_keeps h⟩))

theorem perform_params {e : Input} {s t : State} (h : perform e s = .next t) : t.params = s.params := by
  rcases perform_cases h with hk | ⟨a, b, -, rfl⟩ | ⟨c, i, b, -, rfl⟩ | ⟨-, -, -, -, hparams, -⟩
  · exact hk.params
  · exact loadRes_params a b s
  · exact loadFont_params c i b s
  · exact hparams

theorem perform_res {e : Input} {s t : State} (h : perform e s = .next t) (hload : ∀ a b, e ≠ .loadRes a b)
    (hrace : ∀ v a b, e ≠ .writeCmdRacingRes v a b) : t.res = s.res := by
  rcases perform_cases h with hk | ⟨a, b, he, -⟩ | ⟨c, i, b, -, rfl⟩ | ⟨v, a, b, he, -⟩
  · exact hk.res
  · exact absurd he (hload a b)
  · exact loadFont_res c i b s
  · exact absurd he (hrace v a b)

theorem perform_font {e : Input} {s t : State} (h : perform e s = .next t) (hload : ∀ c i b, e ≠ .loadFont c i b) :
    t.font = s.font := by
  rcases perform_cases h with hk | ⟨a, b, -, rfl⟩ | ⟨c, i, b, he, -⟩ | ⟨-, -, -, -, -, hfont⟩
  · exact hk.font
  · exact loadRes_font a b s
  · exact absurd he (hload c i b)
  · exact hfont

/-! ## The two loads -/

theorem loadRes_inside (s : State) (a : Word) (b : Byte) (ha : a.toNat < s.params.resSize) :
    loadRes a b s = { s with res := s.res.write a.toNat b } := by
  unfold loadRes
  rw [if_pos ha]

/-- Glyphs are five bytes apart, so a load of one column is read back there alone (10_state.md R41). -/
theorem fontRead_loadFont (s : State) (c : Byte) (i : Fin 5) (b : Byte) (g k : Nat) (hk : k < 5) :
    fontRead (loadFont c i b s).font g k = if g = c.toNat ∧ k = i.val then b else fontRead s.font g k := by
  have haddr : 5 * g + k = 5 * c.toNat + i.val ↔ g = c.toNat ∧ k = i.val := by omega
  unfold fontRead
  rw [loadFont_font, Memory.read_write]
  exact if_congr haddr rfl rfl

/-- Settles O58: by cases on the input performed; only the two loads and the racing store reach RES or FONT. -/
theorem resourcesReadOnly : Obligations.ResourcesReadOnly := by
  intro s t hstep
  cases hnext : s.pending with
  | nil =>
    have hidle : t = s := by
      unfold step at hstep
      rw [hnext] at hstep
      exact (Host.Outcome.next.inj hstep).symm
    simp [hidle]
  | cons e rest =>
    rw [step_perform s e rest hnext] at hstep
    have hparams := perform_params hstep
    refine ⟨hparams, fun hload hrace => ?_, fun hload => ?_, fun a b rest' he ha => ?_,
      fun c i b rest' he => ?_⟩
    · have hres := perform_res hstep (fun a b he => hload a b rest (by rw [he]))
        fun v a b he => hrace v a b rest (by rw [he])
      exact hres
    · have hfont := perform_font hstep fun c i b he => hload c i b rest (by rw [he])
      exact hfont
    · cases he
      cases hstep
      rw [loadRes_inside { s with pending := rest } a b ha]
      exact ⟨rfl, fun n => Memory.read_write s.res a.toNat b n⟩
    · cases he
      cases hstep
      exact ⟨rfl, fun g k hk => fontRead_loadFont _ c i b g k hk⟩

end Sys2Proof.Machine
end

section
/-! PROOFS of 20_memory.md R51 to R56 and R68: what a host access outside the registers answers, writes and leaves
alone, and what a change of RES does to the command it meets. -/

namespace Sys2Proof.Machine

/-! ## Accesses that are not admitted -/

theorem admits16_odd {off : Word} (h : off.toNat % 2 = 1) : admits16 off = false :=
  Bool.eq_false_iff.2 fun ha => by rw [admits16_iff] at ha; omega

theorem admits8_register {off : Word} (h : off.toNat < 0x400) : admits8 off = false :=
  Bool.eq_false_iff.2 fun ha => by rw [admits8_iff] at ha; omega

theorem hostWrite16_odd {off : Word} (v : Word) (s : State) (h : off.toNat % 2 = 1) :
    hostWrite16 off v s = .next (busError s) := by
  simp [hostWrite16, admits16_odd h]

theorem hostRead16_odd {off : Word} (s : State) (h : off.toNat % 2 = 1) :
    hostRead16 off s = respond (busError s) (.word 0x0000) := by
  simp [hostRead16, admits16_odd h]

theorem hostWrite8_register {off : Word} (b : Byte) (s : State) (h : off.toNat < 0x400) :
    hostWrite8 off b s = busError s := by
  simp [hostWrite8, admits8_register h]

theorem hostRead8_register {off : Word} (s : State) (h : off.toNat < 0x400) :
    hostRead8 off s = respond (busError s) (.byte 0x00) := by
  simp [hostRead8, admits8_register h]

/-- Settles O48: an odd 16-bit offset and an 8-bit register offset fail the port's two admission tests. -/
theorem accessNotAdmitted : Obligations.AccessNotAdmitted := by
  intro s off v b rest
  refine ⟨fun hodd => ⟨fun hnext => ?_, fun hnext => ?_⟩, fun hreg => ⟨fun hnext => ?_, fun hnext => ?_⟩⟩ <;>
    rw [step_perform s _ rest hnext]
  · exact hostWrite16_odd v _ hodd
  · exact congrArg Host.Outcome.next (hostRead16_odd _ hodd)
  · exact congrArg Host.Outcome.next (hostWrite8_register b _ hreg)
  · exact congrArg Host.Outcome.next (hostRead8_register _ hreg)

/-! ## Unmapped and reserved offsets -/

/-- No FB byte and no register stands at the offset (20_memory.md R55, 10_state.md R39). -/
def Vacant (p : Params) (off : Word) : Prop := windowIndex p off.toNat = none ∧ regAt off.toNat = none

theorem vacant_past_window {p : Params} {off : Word} (h : 0x400 + p.fbBytes ≤ off.toNat) : Vacant p off :=
  ⟨windowIndex_outside p _ (.inr h), regAt_none _ (by omega)⟩

theorem vacant_reserved {p : Params} {off : Word}
    (h : off = 0x00C ∨ off = 0x00E ∨ (0x02C ≤ off.toNat ∧ off.toNat ≤ 0x3FE)) : Vacant p off := by
  have hnat : off.toNat = 0xC ∨ off.toNat = 0xE ∨ (0x2C ≤ off.toNat ∧ off.toNat ≤ 0x3FE) :=
    h.imp (fun h => by rw [h]; rfl) (Or.imp_left fun h => by rw [h]; rfl)
  exact ⟨windowIndex_outside p _ (by omega), regAt_none _ (by omega)⟩

theorem hostRead16_vacant {off : Word} {s : State} (heven : off.toNat % 2 = 0) (h : Vacant s.params off) :
    hostRead16 off s = respond s (.word 0x0000) := by
  simp [hostRead16, (admits16_iff off).2 heven, readValue16, h.1, h.2]

theorem hostWrite16_vacant {off : Word} {s : State} (v : Word) (heven : off.toNat % 2 = 0) (h : Vacant s.params off) :
    hostWrite16 off v s = .next s := by
  simp [hostWrite16, (admits16_iff off).2 heven, h.1, h.2]

theorem hostRead8_past_window {off : Word} {s : State} (h : 0x400 + s.params.fbBytes ≤ off.toNat) :
    hostRead8 off s = respond s (.byte 0x00) := by
  simp [hostRead8, (admits8_iff off).2 (by omega), readValue8, windowIndex_outside s.params _ (.inr h)]

theorem hostWrite8_past_window {off : Word} {s : State} (b : Byte) (h : 0x400 + s.params.fbBytes ≤ off.toNat) :
    hostWrite8 off b s = s := by
  simp [hostWrite8, (admits8_iff off).2 (by omega), windowIndex_outside s.params _ (.inr h)]

/-- Settles O50: such an offset is admitted, and neither the window nor the register map holds it. -/
theorem unmappedAndReservedOffsets : Obligations.UnmappedAndReservedOffsets := by
  intro s off v b rest
  refine ⟨fun hpast => ⟨fun hnext => ?_, fun hnext => ?_⟩, fun heven hoff => ?_⟩
  · rw [step_perform s _ rest hnext]
    exact congrArg Host.Outcome.next (hostRead8_past_window hpast)
  · rw [step_perform s _ rest hnext]
    exact congrArg Host.Outcome.next (hostWrite8_past_window b hpast)
  · have hvacant : Vacant s.params off := hoff.elim vacant_past_window vacant_reserved
    refine ⟨fun hnext => ?_, fun hnext => ?_⟩ <;> rw [step_perform s _ rest hnext]
    · exact congrArg Host.Outcome.next (hostRead16_vacant heven hvacant)
    · exact hostWrite16_vacant v heven hvacant

/-! ## The frame-buffer window -/

section
variable {s : State} {k : Nat} {off : Word} (hoff : off.toNat = 0x400 + k) (hk : k < s.params.fbBytes)
include hoff hk

theorem hostRead8_window : hostRead8 off s = respond s (.byte (s.fb.read k)) := by
  simp [hostRead8, (admits8_iff off).2 (by omega), readValue8, windowIndex_window s.params _ k hoff hk]

theorem hostWrite8_window (b : Byte) : hostWrite8 off b s = { s with fb := s.fb.write k b } := by
  simp [hostWrite8, (admits8_iff off).2 (by omega), windowIndex_window s.params _ k hoff hk]

theorem hostRead16_window (heven : k % 2 = 0) : hostRead16 off s = respond s (.word (windowRead16 s k)) := by
  simp [hostRead16, (admits16_iff off).2 (by omega), readValue16, windowIndex_window s.params _ k hoff hk]

theorem hostWrite16_window (v : Word) (heven : k % 2 = 0) : hostWrite16 off v s = .next (windowWrite16 s k v) := by
  simp [hostWrite16, (admits16_iff off).2 (by omega), windowIndex_window s.params _ k hoff hk]

theorem step_read8_window {rest : List Input} (hnext : s.pending = .read8 off :: rest) :
    step s = .next { s with pending := rest, responses := .byte (s.fb.read k) :: s.responses } := by
  rw [step_perform s _ rest hnext]
  exact congrArg Host.Outcome.next (hostRead8_window (s := { s with pending := rest }) hoff hk)

end

/-- A 16-bit window read as a number: the byte at `k` and, inside FB, 256 times the next (20_memory.md R51, R53). -/
theorem toNat_windowRead16 (s : State) (k : Nat) :
    (windowRead16 s k).toNat =
      (s.fb.read k).toNat + 256 * (if k + 1 < s.params.fbBytes then (s.fb.read (k + 1)).toNat else 0) := by
  have happend : ∀ hi lo : Byte, (hi ++ lo : Word).toNat = lo.toNat + 256 * hi.toNat := fun hi lo => by
    rw [BitVec.toNat_append, ← Nat.shiftLeft_add_eq_or_of_lt lo.isLt, Nat.shiftLeft_eq]
    omega
  unfold windowRead16
  rw [happend]
  split <;> rfl

/-- A 16-bit window write touches FB alone. -/
theorem windowWrite16_frame (s : State) (k : Nat) (v : Word) :
    windowWrite16 s k v = { s with fb := (windowWrite16 s k v).fb } := rfl

/-- What the bytes of FB are, as numbers, after a 16-bit window write (20_memory.md R51, R53). -/
theorem toNat_windowWrite16_read (s : State) (k : Nat) (v : Word) (n : Nat) :
    ((windowWrite16 s k v).fb.read n).toNat =
      if n = k then v.toNat % 256
      else if n = k + 1 ∧ k + 1 < s.params.fbBytes then v.toNat / 256
      else (s.fb.read n).toNat := by
  have hlow : (v.extractLsb' 0 8).toNat = v.toNat % 256 := by simp
  have hhigh : (v.extractLsb' 8 8).toNat = v.toNat / 256 := by
    have := v.isLt
    rw [BitVec.extractLsb'_toNat, Nat.shiftRight_eq_div_pow]
    omega
  rw [windowWrite16_read]
  by_cases hn : n = k
  · rw [if_neg (by omega), if_pos hn, if_pos hn, hlow]
  · rw [if_neg hn, if_neg hn, ← hhigh]
    split <;> rfl

/-- Settles O49: by cases on the access; each maps to FB byte k, and the 16-bit ones split into its two bytes. -/
theorem windowAccess : Obligations.WindowAccess := by
  intro s k off v b rest hoff hk
  refine ⟨step_read8_window hoff hk, fun hnext => ?_, fun hnext heven => ?_, fun hnext heven => ?_⟩ <;>
    rw [step_perform s _ rest hnext]
  · exact ⟨_, congrArg Host.Outcome.next (hostWrite8_window (s := { s with pending := rest }) hoff hk b), rfl,
      Memory.read_write s.fb k b⟩
  · exact ⟨_, congrArg Host.Outcome.next (hostRead16_window hoff hk heven), toNat_windowRead16 _ k⟩
  · exact ⟨_, hostWrite16_window (s := { s with pending := rest }) hoff hk v heven, windowWrite16_frame _ k v,
      toNat_windowWrite16_read _ k v⟩

/-! ## The display's commit -/

theorem run_of_step {s t : State} (n : Nat) (h : step s = .next t) :
    Sys2Proof.core.run (n + 1) s = Sys2Proof.core.run n t := by
  have hcore : Sys2Proof.core.step s = .next t := h
  simp only [Host.Core.run, hcore]

/-- The window of a legal build ends below 2^16, so every FB byte has a host offset (20_memory.md R54). -/
theorem toNat_windowOffset {p : Params} {k : Nat} (hp : p.wf = true) (hk : k < p.fbBytes) :
    (BitVec.ofNat 16 (windowBase + k)).toNat = 0x400 + k := by
  simp only [Params.wf, Bool.and_eq_true, decide_eq_true_eq] at hp
  have hbytes : p.width * (p.height / 8) ≤ 128 * 16 := Nat.mul_le_mul (by omega) (by omega)
  rw [BitVec.toNat_ofNat]
  unfold Params.fbBytes Params.pages at hk
  unfold windowBase
  omega

/-- 8-bit reads of a list of FB bytes answer them in the list's order and change nothing else. -/
theorem run_window_reads {p : Params} (hp : p.wf = true) (ks : List Nat) (rest : List Input) (s : State)
    (hs : s.params = p) (hks : ∀ k ∈ ks, k < p.fbBytes)
    (hnext : s.pending = ks.map (fun k => .read8 (BitVec.ofNat 16 (windowBase + k))) ++ rest) :
    Sys2Proof.core.run ks.length s = .next { s with
      pending := rest
      responses := (ks.map fun k => Response.byte (s.fb.read k)).reverse ++ s.responses } := by
  induction ks generalizing s with
  | nil =>
    have hrest : s.pending = rest := hnext
    rw [← hrest]
    rfl
  | cons k ks ih =>
    have hk : k < s.params.fbBytes := hs ▸ hks k List.mem_cons_self
    have hstep := step_read8_window (toNat_windowOffset (hs ▸ hp) hk) hk hnext
    rw [List.length_cons, run_of_step _ hstep]
    refine (ih _ ?params ?below ?next).trans ?answers
    case params => exact hs
    case below => exact fun j hj => hks j (List.mem_cons_of_mem k hj)
    case next => rfl
    case answers => simp

/-- Settles O54: by induction on the script's reads, each of which answers one FB byte and changes nothing. -/
theorem commitDeliversFb : Obligations.CommitDeliversFb := by
  intro s rest hp hnext
  have hrun := run_window_reads hp (List.range s.params.fbBytes) rest s rfl (fun k hk => List.mem_range.1 hk) hnext
  rwa [List.length_range] at hrun

/-! ## A change of RES while a command runs -/

theorem raceCommand_changed {v a : Word} {b : Byte} {s : State} {i : Instr} (hdecode : decode v = .ok i)
    (ha : a.toNat < s.params.resSize) (hb : s.res.read a.toNat ≠ b) :
    raceCommand v a b s = .next (raiseUndefined .resChanged (writeReg (loadRes a b s) .cmd v)) := by
  unfold raceCommand
  rw [hdecode]
  exact if_pos ⟨ha, hb⟩

/-- Settles O57: the word decodes and the store changes RES, so the command ends in UNDEFINED after both are made. -/
theorem resourceChanged : Obligations.ResourceChanged := by
  intro s v a b i rest hnext hdecode ha hb
  refine ⟨_, ?_, raiseUndefined_keeps .resChanged _⟩
  rw [step_perform s _ rest hnext, show perform _ _ = raceCommand v a b _ from rfl,
    raceCommand_changed (s := { s with pending := rest }) hdecode ha hb,
    loadRes_inside { s with pending := rest } a b ha]
  rfl

end Sys2Proof.Machine
end

section
/-! PROOFS of 20_memory.md R57: a resource read at or above RES_SIZE ends the command in UNDEFINED(RES_RANGE). -/

namespace Sys2Proof.Machine

/-! ## How a failed read ends a command -/

/-- Command `i` ends in UNDEFINED(RES_RANGE) in `s` (20_memory.md R57). -/
def FailsReading (i : Instr) (s : State) : Prop := ∃ t : State, exec i s = .next t ∧ UndefinedKeeps .resRange s t

theorem failsReading_of_concludeFb {i : Instr} {s : State} {result : Except Undefined Memory}
    (hrun : exec i s = concludeFb s result) (h : result = .error .resRange) : FailsReading i s :=
  ⟨raiseUndefined .resRange s, by rw [hrun, h, concludeFb_error], raiseUndefined_keeps .resRange s⟩

theorem exec_bitmap_of_operands {c : Colour} {s : State} (hb : addr (s.arg 2) ≠ 0) (hw : u8 (s.arg 3) ≠ 0)
    (hh : u8 (s.arg 4) ≠ 0) :
    exec (.bitmap c) s = concludeFb s (blitCells s.params (s16 (s.arg 0)) (s16 (s.arg 1)) (u8 (s.arg 3))
      (u8 (s.arg 4)) (fetchPlain s.params s.res (addr (s.arg 2)) (u8 (s.arg 3)) 0) (bitmapCombine c) s.fb) :=
  if_neg (by tauto)

/-- AutoDetect never chooses MASKED without a mask (45_sprite_unaligned.md R202). -/
theorem masked_of_resolveMode {m : DrawMode} {mask : Nat} (h : resolveMode m mask = .masked) (hmask : mask = 0) :
    m = .masked := by
  cases m <;> simp_all [resolveMode]

theorem exec_sprite_of_operands {m : DrawMode} {s : State} (hb : addr (s.arg 2) ≠ 0)
    (hmask : m = .masked → addr (s.arg 4) ≠ 0) :
    exec (.sprite m) s = concludeFb s (drawSprite s (resolveMode m (addr (s.arg 4))) (addr (s.arg 2)) (u8 (s.arg 3))
      (addr (s.arg 4)) (u8 (s.arg 5))) :=
  (if_neg hb).trans (if_neg fun h => hmask (masked_of_resolveMode h.1 h.2) h.2)

theorem exec_drawcomp_of_operands {c : Colour} {ink : Bool} {s : State} (hc : inkOf c = some ink)
    (hb : addr (s.arg 2) ≠ 0) :
    exec (.drawcomp c) s =
      concludeFb s (drawCompressed s ink (s16 (s.arg 0)) (s16 (s.arg 1)) (addr (s.arg 2))) :=
  (withInk_of_ink c s _ ink hc).trans (if_neg hb)

theorem drawRotMode_of_operands {s : State} (selfMask : Bool) (hb : addr (s.arg 2) ≠ 0) :
    drawRotMode selfMask s = concludeFb s (drawRotated s selfMask (addr (s.arg 2)) (u8 (s.arg 3))) :=
  if_neg hb

/-- DRAWROT fails alike in both its modes, where its drawing does (47_affine.md R269). -/
theorem drawrot_failsReading {s : State} (hb : addr (s.arg 2) ≠ 0)
    (h : ∀ selfMask, drawRotated s selfMask (addr (s.arg 2)) (u8 (s.arg 3)) = .error .resRange) :
    FailsReading (.drawrot .unmasked) s ∧ FailsReading (.drawrot .selfmask) s :=
  ⟨failsReading_of_concludeFb (drawRotMode_of_operands false hb) (h false),
    failsReading_of_concludeFb (drawRotMode_of_operands true hb) (h true)⟩

/-! ## Headers -/

/-- One of the `n` bytes from an address cannot be read. -/
theorem not_resReadable_iff (p : Params) (a n : Nat) :
    ¬ resReadable p a n ↔ ∃ k < n, p.resSize ≤ (a + k) % 65536 := by
  simp [resReadable]

theorem resRead_unreadable {p : Params} (res : Memory) {n : Nat} (h : p.resSize ≤ n % 65536) :
    resRead p res n = .error .resRange := by
  rw [resRead_nat, if_neg (by omega)]

/-- A header one of whose two bytes cannot be read: the first read that fails. -/
theorem header_unreadable {p : Params} (res : Memory) {b : Nat} (h : ¬ resReadable p b 2) :
    resRead p res b = .error .resRange ∨
    ∃ w, resRead p res b = .ok w ∧ resRead p res ((b : Int) + 1) = .error .resRange := by
  rw [not_resReadable_iff] at h
  obtain ⟨k, hk, hbad⟩ := h
  by_cases h0 : b % 65536 < p.resSize
  · obtain rfl : k = 1 := by interval_cases k <;> omega
    exact .inr ⟨res.read (b % 65536), by rw [resRead_nat, if_pos h0], resRead_unreadable (n := b + 1) res hbad⟩
  · exact .inl (resRead_unreadable res (by omega))

theorem header_readable {p : Params} (res : Memory) {b : Nat} (hb : b < 65536) (h : resReadable p b 2) :
    resRead p res b = .ok (res.read b) ∧ resRead p res ((b : Int) + 1) = .ok (res.read ((b + 1) % 65536)) := by
  refine ⟨?_, resRead_readable p res b 2 1 h (by omega) _ rfl⟩
  rw [resRead_readable p res b 2 0 h (by omega) b rfl, Nat.add_zero, Nat.mod_eq_of_lt hb]

theorem drawSprite_header_unreadable {s : State} (md : DrawMode) {b : Nat} (f mask mf : Nat)
    (h : ¬ resReadable s.params b 2) : drawSprite s md b f mask mf = .error .resRange := by
  unfold drawSprite
  rcases header_unreadable s.res h with hw | ⟨w, hw, hh⟩
  · rw [hw]
  · rw [hw, hh]

theorem drawRotated_header_unreadable {s : State} (selfMask : Bool) {b : Nat} (f : Nat)
    (h : ¬ resReadable s.params b 2) : drawRotated s selfMask b f = .error .resRange := by
  unfold drawRotated
  rcases header_unreadable s.res h with hw | ⟨w, hw, hh⟩
  · rw [hw]
  · rw [hw, hh]

/-- Any readable byte, as the eight bits the decoder reads from it. -/
theorem holdsFrom_byte {p : Params} (res : Memory) {st : Nat} (h : st % 65536 < p.resSize) :
    HoldsFrom p res st 0 (bitsLE 8 (res.read (st % 65536)).toNat) := by
  intro k hk
  rw [length_bitsLE] at hk
  have hbyte : (0 + k) / 8 = 0 := by omega
  have hbit : (0 + k) % 8 = k := by omega
  rw [hbyte, Nat.add_zero]
  refine ⟨h, ?_⟩
  unfold resBit bitsLE
  rw [hbit]
  simp [hk, BitVec.getLsbD]

theorem drawCompressed_header_unreadable {s : State} (col : Bool) (x y : Int) {st : Nat}
    (h : ¬ resReadable s.params st 2) : drawCompressed s col x y st = .error .resRange := by
  rw [not_resReadable_iff] at h
  obtain ⟨k, hk, hbad⟩ := h
  unfold drawCompressed
  by_cases h0 : st % 65536 < s.params.resSize
  · obtain rfl : k = 1 := by interval_cases k <;> omega
    have hbyte := holdsFrom_byte s.res h0
    obtain ⟨r, hread, hat, hrest⟩ := readBits_held s.params s.res st 8 _ 0 (s.res.read (st % 65536)).isLt _ []
      (readerAt_start s.res st) (by rwa [List.append_nil])
    rw [hread]
    dsimp only
    rw [readBits_unreadable s.params s.res st 8 (0 + 8) [] (by simp) r hat hrest ⟨rfl, hbad⟩]
  · rw [readBits_unreadable s.params s.res st 8 0 [] (by simp) _ (readerAt_start s.res st)
      (fun k hk => absurd hk (by simp)) ⟨rfl, by simpa using h0⟩]

/-! ## The cells of BITMAP and SPRITE -/

theorem not_cellsReadable_iff (p : Params) (x y : Int) (w h : Nat) (byteAt : Nat → Nat) :
    ¬ cellsReadable p x y w h byteAt ↔
      ∃ a i : Nat, a < (h + 7) / 8 ∧ i < w ∧ cellVisible p x y a i ∧ p.resSize ≤ byteAt (a * w + i) % 65536 := by
  unfold cellsReadable
  push Not
  constructor
  · rintro ⟨a, ha, i, hi, hv, hbad⟩; exact ⟨a, i, ha, hi, hv, hbad⟩
  · rintro ⟨a, i, ha, hi, hv, hbad⟩; exact ⟨a, ha, i, hi, hv, hbad⟩

/-- The model's frame address is the one the statements name (45_sprite_unaligned.md R200, R201). -/
theorem frameAddr_eq_spriteImage (m : DrawMode) (b f w h : Nat) : frameAddr m b f w h = spriteImage m b f w h := by
  cases m <;> rfl

section
variable {p : Params} (hp : p.wf = true) {x y : Int} {w h : Nat} (hs : onScreen p x y w h) (res : Memory)
  (f : Combine) (fb : Memory)
include hp hs

/-- A blit of one byte per cell fails where a visible cell's byte cannot be read. -/
theorem blitCells_plain_unreadable {img : Nat} (m : Byte) (hbad : ¬ cellsReadable p x y w h fun n => img + n) :
    blitCells p x y w h (fetchPlain p res img w m) f fb = .error .resRange := by
  obtain ⟨a, i, ha, hi, hv, hbyte⟩ := (not_cellsReadable_iff p x y w h _).1 hbad
  refine blitCells_unreadable p (wf_height p hp) (wf_height_pos p hp) x y w h hs _ _
    (fetchPlain_cases p res img w m) ⟨a, i, ha, hi, hv, ?_⟩ f fb
  rw [fetchPlain_nat, if_neg (by omega)]

/-- A blit of two bytes per cell fails where either byte of a visible cell cannot be read. -/
theorem blitCells_pair_unreadable {srcByte mskByte : Nat → Nat} {srcAt mskAt : Int → Int → Int}
    (hsrc : ∀ a i : Nat, srcAt a i = srcByte (a * w + i)) (hmsk : ∀ a i : Nat, mskAt a i = mskByte (a * w + i))
    (hbad : ¬ cellsReadable p x y w h srcByte ∨ ¬ cellsReadable p x y w h mskByte) :
    blitCells p x y w h (fetchPair p res srcAt mskAt) f fb = .error .resRange := by
  obtain ⟨a, i, ha, hi, hv, hbyte⟩ : ∃ a i : Nat, a < (h + 7) / 8 ∧ i < w ∧ cellVisible p x y a i ∧
      ¬ (srcByte (a * w + i) % 65536 < p.resSize ∧ mskByte (a * w + i) % 65536 < p.resSize) := by
    rcases hbad with hbad | hbad <;> obtain ⟨a, i, ha, hi, hv, hbyte⟩ := (not_cellsReadable_iff p x y w h _).1 hbad
    · exact ⟨a, i, ha, hi, hv, by omega⟩
    · exact ⟨a, i, ha, hi, hv, by omega⟩
  refine blitCells_unreadable p (wf_height p hp) (wf_height_pos p hp) x y w h hs _ _
    (fetchPair_cases p res srcAt mskAt) ⟨a, i, ha, hi, hv, ?_⟩ f fb
  rw [fetchPair_nat p res srcByte mskByte srcAt mskAt w hsrc hmsk, if_neg hbyte]

/-- A sprite's blit fails where an image or mask byte that its mode reads in a visible cell cannot be read
(45_sprite_unaligned.md R204). -/
theorem blitCells_sprite_unreadable (md : DrawMode) {b fr mask mf : Nat}
    (hbad : ¬ spriteReadable p md x y b fr mask mf w h) :
    blitCells p x y w h (spriteFetch p res md (frameAddr md b fr w h) (maskAddr mask mf w h) w) f fb =
      .error .resRange := by
  rw [frameAddr_eq_spriteImage]
  cases md with
  | plusmask =>
    refine blitCells_pair_unreadable hp hs res f fb (srcByte := fun n => spriteImage .plusmask b fr w h + 2 * n)
      (mskByte := fun n => spriteImage .plusmask b fr w h + 2 * n + 1) ?_ ?_ ?_
    · intro a i; push_cast; ring
    · intro a i; push_cast; ring
    · exact not_and_or.1 (by simpa [spriteReadable] using hbad)
  | masked =>
    refine blitCells_pair_unreadable hp hs res f fb (srcByte := fun n => spriteImage .masked b fr w h + n)
      (mskByte := fun n => maskAddr mask mf w h + n) ?_ ?_ ?_
    · intro a i; push_cast; ring
    · intro a i; push_cast; ring
    · exact not_and_or.1 (by simpa [spriteReadable, maskAddr, frameCells, cellCount] using hbad)
  | unmasked | selfmask | erasemask | autodetect =>
    exact blitCells_plain_unreadable hp hs res f fb 0xFF (by simpa [spriteReadable] using hbad)

end

theorem drawSprite_unreadable {s : State} (hp : s.params.wf = true) {md : DrawMode} {b f mask mf : Nat}
    (hb : b < 65536) (hheader : resReadable s.params b 2) (hw : (s.res.read b).toNat ≠ 0)
    (hh : (s.res.read ((b + 1) % 65536)).toNat ≠ 0)
    (hs : onScreen s.params (s16 (s.arg 0)) (s16 (s.arg 1)) (s.res.read b).toNat (s.res.read ((b + 1) % 65536)).toNat)
    (hbad : ¬ spriteReadable s.params md (s16 (s.arg 0)) (s16 (s.arg 1)) b f mask mf (s.res.read b).toNat
      (s.res.read ((b + 1) % 65536)).toNat) :
    drawSprite s md b f mask mf = .error .resRange := by
  obtain ⟨hread, hread1⟩ := header_readable s.res hb hheader
  unfold drawSprite
  rw [hread, hread1]
  exact (if_neg (by tauto)).trans (blitCells_sprite_unreadable hp hs s.res _ s.fb md hbad)

/-! ## The frame of DRAWROT -/

theorem sourcePixel_nat (p : Params) (res : Memory) (src w i j : Nat) :
    sourcePixel p res src w i j =
      if (src + cellIndex w i j) % 65536 < p.resSize then .ok (resBit res (src + cellIndex w i j) j)
      else .error .resRange := by
  unfold sourcePixel
  rw [show (src : Int) + (j / 8 : Nat) * w + i = ((src + cellIndex w i j : Nat) : Int) by
    unfold cellIndex; push_cast; ring, resRead_nat]
  by_cases h : (src + cellIndex w i j) % 65536 < p.resSize
  · rw [if_pos h, if_pos h]
    rfl
  · rw [if_neg h, if_neg h]

/-- A visit fails only for want of its source byte: its write is clipped (47_affine.md R270). -/
theorem visitPixel_cases (p : Params) (res : Memory) (src w : Nat) (selfMask : Bool) (fb : Memory) (v : Visit) :
    visitPixel p res src w selfMask fb v = .error .resRange ∨
      ∃ fb', visitPixel p res src w selfMask fb v = .ok fb' := by
  by_cases hread : (src + cellIndex w v.i v.j) % 65536 < p.resSize
  · obtain ⟨fb', hvisit, -⟩ := visitPixel_pixel p res src w selfMask fb v _
      ((sourcePixel_nat p res src w v.i v.j).trans (if_pos hread))
    exact .inr ⟨fb', hvisit⟩
  · left
    unfold visitPixel
    rw [sourcePixel_nat, if_neg hread]

/-- Every byte of a frame is the byte of some source pixel's cell. -/
theorem exists_pixel_of_cell {w h k : Nat} (hk : k < cellCount w h) :
    ∃ i j : Nat, i < w ∧ j < h ∧ cellIndex w i j = k := by
  have hw : 0 < w := Nat.pos_of_mul_pos_right (Nat.zero_lt_of_lt hk)
  have hrow : k / w < (h + 7) / 8 := Nat.div_lt_of_lt_mul hk
  refine ⟨k % w, 8 * (k / w), Nat.mod_lt k hw, by omega, ?_⟩
  unfold cellIndex
  rw [Nat.mul_div_cancel_left _ (by omega)]
  exact Nat.div_add_mod' k w

/-- The rotation visits every source pixel, so it comes to every byte of the frame (47_affine.md R268, R269). -/
theorem rotVisits_unreadable {p : Params} (res : Memory) (x y : Int) {w h src : Nat} (angle : Int) (percent : Nat)
    (selfMask : Bool) (fb : Memory) (hbad : ¬ resReadable p src (cellCount w h)) :
    (rotVisits p x y w h angle percent).foldlM (visitPixel p res src w selfMask) fb = .error .resRange := by
  rw [not_resReadable_iff] at hbad
  obtain ⟨k, hk, hbyte⟩ := hbad
  obtain ⟨i, j, hi, hj, rfl⟩ := exists_pixel_of_cell hk
  obtain ⟨px, py, hvisits, -, -⟩ := rotVisits_eq p x y w h angle percent
  rw [hvisits]
  refine foldlM_error _ _ _ (fun v _ m => visitPixel_cases p res src w selfMask m v)
    ⟨⟨i, j, px i j, py i j⟩, (mem_visits w h px py _).2 ⟨hi, hj, rfl, rfl⟩, fun m => ?_⟩ fb
  unfold visitPixel
  rw [sourcePixel_nat, if_neg (by dsimp only; omega)]

theorem drawRotated_unreadable {s : State} (selfMask : Bool) {b f : Nat} (hb : b < 65536)
    (hheader : resReadable s.params b 2) (hw : (s.res.read b).toNat ≠ 0)
    (hh : (s.res.read ((b + 1) % 65536)).toNat ≠ 0)
    (hbad : ¬ resReadable s.params
      (b + 2 + f * cellCount (s.res.read b).toNat (s.res.read ((b + 1) % 65536)).toNat)
      (cellCount (s.res.read b).toNat (s.res.read ((b + 1) % 65536)).toNat)) :
    drawRotated s selfMask b f = .error .resRange := by
  obtain ⟨hread, hread1⟩ := header_readable s.res hb hheader
  unfold drawRotated
  rw [hread, hread1]
  exact (if_neg (by tauto)).trans (rotVisits_unreadable s.res _ _ _ _ selfMask s.fb hbad)

/-! ## The stream of DRAWCOMP -/

/-- A held stream stops at an unreadable byte only between two bytes. -/
theorem unreadableAt_of_stream {p : Params} {res : Memory} {st : Nat} {code : List Bool}
    (hheld : streamHolds p res st code) (hpos : 0 < code.length)
    (hbad : p.resSize ≤ (st + code.length / 8) % 65536) : UnreadableAt p st code.length := by
  refine ⟨?_, hbad⟩
  by_contra hmid
  obtain ⟨hlast, -⟩ := hheld (code.length - 1) (by omega)
  rw [show (code.length - 1) / 8 = code.length / 8 by omega] at hlast
  omega

/-- A stream whose header is its last readable part: the decoder comes to the starting colour
(46_rle_decoder.md R233). -/
theorem drawCompressed_colour_unreadable {s : State} (col : Bool) {x y : Int} {st w h : Nat}
    (hw1 : 1 ≤ w) (hw : w ≤ 256) (hh1 : 1 ≤ h) (hh : h ≤ 256) (hs : onScreen s.params x y w h)
    (hheld : streamHolds s.params s.res st (bitsLE 8 (w - 1) ++ bitsLE 8 (h - 1)))
    (hbad : UnreadableAt s.params st 16) : drawCompressed s col x y st = .error .resRange := by
  have hc := holdsFrom_of_stream _ _ _ _ hheld
  obtain ⟨r1, e1, a1, c1⟩ := readBits_held s.params s.res st 8 (w - 1) 0 (by omega) _ _ (readerAt_start _ _) hc
  obtain ⟨r2, e2, a2, -⟩ := readBits_held s.params s.res st 8 (h - 1) _ (by omega) _ [] a1 (by rwa [List.append_nil])
  obtain ⟨hright, hleft, hbelow, habove⟩ := hs
  have hgeom : ∃ g, blitGeometry s.params x y w h = some g := ⟨_, if_neg (by omega)⟩
  obtain ⟨g, hg⟩ := hgeom
  unfold drawCompressed
  rw [e1]
  dsimp only
  rw [e2]
  dsimp only
  rw [show w - 1 + 1 = w by omega, show h - 1 + 1 = h by omega, hg]
  unfold decodeBody
  dsimp only
  rw [readBit_unreadable s.params s.res st _ r2 a2 hbad]

/-- A stream that breaks off inside a span: the spans before it are drawn, then its length cannot be read
(46_rle_decoder.md R234, R235, R240). -/
theorem drawCompressed_span_unreadable {s : State} (col : Bool) {x y : Int} {st w h z len : Nat} {start : Bool}
    {spans : List (Nat × Nat)} {tail more : List Bool} (hw1 : 1 ≤ w) (hw : w ≤ 256) (hh1 : 1 ≤ h) (hh : h ≤ 256)
    (hs : onScreen s.params x y w h) (hspans : ∀ q ∈ spans, spanFits q)
    (hroom : (spans.map fun q => q.2).sum < 8 * cellCount w h) (hspan : spanFits (z, len))
    (hcode : tail ++ more = spanCode z len) (hmore : more ≠ [])
    (hheld : streamHolds s.params s.res st (streamCode w h start spans ++ tail))
    (hbad : UnreadableAt s.params st (streamCode w h start spans ++ tail).length) :
    drawCompressed s col x y st = .error .resRange := by
  have hsplit : streamCode w h start spans ++ tail = bitsLE 8 (w - 1) ++ bitsLE 8 (h - 1) ++
      start :: ((spans.flatMap fun q => spanCode q.1 q.2) ++ tail) := by
    simp [streamCode]
  have hlength : (streamCode w h start spans ++ tail).length =
      17 + (spans.flatMap fun q => spanCode q.1 q.2).length + tail.length := by
    rw [hsplit]
    simp only [List.length_append, List.length_cons, length_bitsLE]
    omega
  rw [hsplit] at hheld
  rw [hlength] at hbad
  obtain ⟨g, r, hg, hat, hrest, hdraw⟩ := drawCompressed_header s col x y st w h start _ hw1 hw hh1 hh hs hheld
  obtain ⟨-, -, -, -, hrows, -⟩ := blitGeometry_cases s.params x y w h g hg
  have htotal : w * g.rows = cellCount w h := by rw [hrows]; rfl
  have hcount := length_le_sum_spans spans hspans
  obtain ⟨fuel, color, r', c, hspanLoop, hat', hheld', -, hk⟩ := decodeSpans_through s.params s.res st (w * g.rows) _
    s.fb spans (8 * (w * g.rows) + 1) 17 start r [] _ tail (by omega) hspans
    (by rw [List.length_nil, htotal]; omega) hat hrest (cursorAt_start _ s.fb)
  rw [hdraw, hspanLoop]
  unfold decodeSpans
  rw [if_pos hk, readSpan_unreadable s.params s.res st z len _ hspan tail more hcode hmore r' hat' hheld' hbad]

/-- A stream byte at or above RES_SIZE, wherever the decoder comes to it. -/
theorem drawCompressed_unreadable {s : State} (col : Bool) {x y : Int} {st w h : Nat} {code : List Bool}
    (hw1 : 1 ≤ w) (hw : w ≤ 256) (hh1 : 1 ≤ h) (hh : h ≤ 256) (hs : onScreen s.params x y w h)
    (hwants : streamWants w h code) (hheld : streamHolds s.params s.res st code)
    (hbad : s.params.resSize ≤ (st + code.length / 8) % 65536) : drawCompressed s col x y st = .error .resRange := by
  rcases hwants with rfl | ⟨start, spans, z, len, tail, more, hspans, hroom, hspan, hcode, hmore, rfl⟩
  · have hlength : (bitsLE 8 (w - 1) ++ bitsLE 8 (h - 1)).length = 16 := by simp [length_bitsLE]
    have hat := unreadableAt_of_stream hheld (by omega) hbad
    rw [hlength] at hat
    exact drawCompressed_colour_unreadable col hw1 hw hh1 hh hs hheld hat
  · have hat := unreadableAt_of_stream hheld (by simp [streamCode]) hbad
    exact drawCompressed_span_unreadable col hw1 hw hh1 hh hs hspans hroom hspan hcode hmore hheld hat

/-! ## Every kind of resource read -/

theorem resolveMode_eq (m : DrawMode) (mask : Nat) :
    resolveMode m mask = if m = .autodetect then (if mask = 0 then .unmasked else .masked) else m := by
  cases m <;> simp [resolveMode]

/-- Settles O38: each command reads its header, cells, frame or stream in an order that comes to the unreadable byte,
and the first failing read ends it in UNDEFINED(RES_RANGE). -/
theorem resourceRange : Obligations.ResourceRange := by
  intro c ink m s hc x y b f mask mf w h md fails hp hb
  have hb16 : b < 65536 := addr_lt (s.arg 2)
  have hsprite : (m = .masked → mask ≠ 0) → drawSprite s md b f mask mf = .error .resRange → fails (.sprite m) :=
    fun hmask herror => failsReading_of_concludeFb (exec_sprite_of_operands hb hmask)
      (by rw [resolveMode_eq]; exact herror)
  have hdrawcomp : drawCompressed s ink x y b = .error .resRange → fails (.drawcomp c) :=
    failsReading_of_concludeFb (exec_drawcomp_of_operands hc hb)
  refine ⟨fun hheader => ⟨fun hmask => ?_, ?_, ?_⟩, fun hw hh hs hbad => ?_,
    fun hheader hw hh => ⟨fun hmask hs hbad => ?_, fun hbad => ?_⟩, ?_⟩
  · exact hsprite hmask (drawSprite_header_unreadable md f mask mf hheader)
  · exact hdrawcomp (drawCompressed_header_unreadable ink x y hheader)
  · exact drawrot_failsReading hb fun selfMask => drawRotated_header_unreadable selfMask f hheader
  · have hbitmap : ∀ colour, fails (.bitmap colour) := fun colour =>
      failsReading_of_concludeFb (exec_bitmap_of_operands hb hw hh)
        (blitCells_plain_unreadable hp hs s.res (bitmapCombine colour) s.fb 0 hbad)
    exact ⟨hbitmap c, hbitmap .invert⟩
  · exact hsprite hmask (drawSprite_unreadable hp hb16 hheader hw hh hs hbad)
  · exact drawrot_failsReading hb fun selfMask => drawRotated_unreadable selfMask hb16 hheader hw hh hbad
  · intro cw ch code hw1 hw256 hh1 hh256 hs hwants hheld hbad
    exact hdrawcomp (drawCompressed_unreadable ink hw1 hw256 hh1 hh256 hs hwants hheld hbad)

end Sys2Proof.Machine
end

section
/-! PROOFS of 20_memory.md R50: every step keeps a legal state legal. -/

namespace Sys2Proof.Machine

/-! ## Memories that fit their space -/

/-- A memory of a space of `n` bytes: in canonical form and listing no byte outside the space. -/
def Memory.Fits (m : Memory) (n : Nat) : Prop := m.wf = true ∧ m.below n = true

theorem Memory.Fits.write {m : Memory} {n k : Nat} (h : m.Fits n) (hk : k < n) (v : Byte) : (m.write k v).Fits n :=
  ⟨Memory.wf_write m k v h.1, Memory.below_write m k n v h.2 hk⟩

theorem Memory.Fits.writesBelow {m m' : Memory} {n : Nat} (h : m.Fits n) (hw : WritesBelow n m m') : m'.Fits n :=
  ⟨hw.keeps_wf h.1, hw.keeps_below h.2⟩

theorem Memory.fits_nil (n : Nat) : Memory.Fits [] n := ⟨rfl, rfl⟩

theorem Memory.fits_tabulate (n : Nat) (f : Nat → Byte) : (Memory.tabulate n f).Fits n :=
  ⟨Memory.wf_tabulate n f, Memory.below_tabulate n f⟩

/-! ## A legal state, part by part -/

/-- `State.Legal` taken apart: the parameters, the three memories in their spaces, the registers. -/
structure LegalParts (s : State) : Prop where
  params : s.params.wf = true
  fb : s.fb.Fits s.params.fbBytes
  res : s.res.Fits s.params.resSize
  font : s.font.Fits 1280
  regs : s.regsLegal = true

theorem legal_iff_parts (s : State) : s.Legal ↔ LegalParts s := by
  simp only [State.Legal, State.legal, Bool.and_eq_true]
  constructor
  · rintro ⟨⟨⟨⟨⟨⟨⟨hparams, hfb⟩, hfbBelow⟩, hres⟩, hresBelow⟩, hfont⟩, hfontBelow⟩, hregs⟩
    exact ⟨hparams, ⟨hfb, hfbBelow⟩, ⟨hres, hresBelow⟩, ⟨hfont, hfontBelow⟩, hregs⟩
  · rintro ⟨hparams, ⟨hfb, hfbBelow⟩, ⟨hres, hresBelow⟩, ⟨hfont, hfontBelow⟩, hregs⟩
    exact ⟨⟨⟨⟨⟨⟨⟨hparams, hfb⟩, hfbBelow⟩, hres⟩, hresBelow⟩, hfont⟩, hfontBelow⟩, hregs⟩

theorem State.Legal.parts {s : State} (h : s.Legal) : LegalParts s := (legal_iff_parts s).1 h

theorem LegalParts.legal {s : State} (h : LegalParts s) : s.Legal := (legal_iff_parts s).2 h

/-- What the register rules ask, register by register (10_state.md R28, R35 to R38). -/
theorem regsLegal_iff (s : State) :
    s.regsLegal = true ↔ s.config.toNat ≤ 1 ∧ 1 ≤ s.textSize.toNat ∧ s.textSize.toNat ≤ 255 ∧
      s.textColor.toNat ≤ 1 ∧ s.textBg.toNat ≤ 1 ∧ s.textWrap.toNat ≤ 1 := by
  simp [State.regsLegal, and_assoc]

/-- A state with another frame buffer that fits is still legal. -/
theorem State.Legal.withFb {s : State} (h : s.Legal) {fb : Memory} (hfb : fb.Fits s.params.fbBytes) :
    State.Legal { s with fb := fb } := by
  obtain ⟨hparams, -, hres, hfont, hregs⟩ := h.parts
  exact LegalParts.legal ⟨hparams, hfb, hres, hfont, hregs⟩

/-! ## The frame buffer a command leaves -/

/-- A command started in `s` ends in DONE with a frame buffer that fits, or in ERR or UNDEFINED. -/
def FbStaysFit (s : State) (r : StepResult) : Prop := Answers s (fun t => t.fb.Fits s.params.fbBytes) r

section
variable {s : State} (hl : s.Legal)
include hl

theorem fit_unchanged : FbStaysFit s (.next (finishDone s)) := answers_done hl.parts.fb

theorem concludeFb_fit {result : Except Undefined Memory}
    (h : ∀ fb, result = .ok fb → WritesBelow s.params.fbBytes s.fb fb) : FbStaysFit s (concludeFb s result) := by
  cases result with
  | ok fb => exact answers_done (t := { s with fb := fb }) (hl.parts.fb.writesBelow (h fb rfl))
  | error u => exact answers_undefined u s _

/-- A drawing command with null operands that make it a no-op (60_exceptions.md R320). -/
theorem drawUnless_fit {null : Prop} [Decidable null] {result : Except Undefined Memory}
    (h : ∀ fb, result = .ok fb → WritesBelow s.params.fbBytes s.fb fb) :
    FbStaysFit s (if null then .next (finishDone s) else concludeFb s result) := by
  split
  · exact fit_unchanged hl
  · exact concludeFb_fit hl h

theorem shape_fit {i : Instr} {c : Colour} {pts : List Point} (h : shapePoints s i = some (c, pts)) :
    FbStaysFit s (exec i s) := by
  rw [exec_shape h]
  exact withInk_answers fun ink => concludeFb_fit hl fun fb => paint_fbOnly s (inked ink pts) fb hl

theorem execSprite_fit (m : DrawMode) : FbStaysFit s (execSprite m s) := by
  unfold execSprite
  dsimp only
  split
  · exact fit_unchanged hl
  · split
    · exact answers_err .nullMask s _
    · exact concludeFb_fit hl (drawSprite_writes s _ _ _ _ _)

theorem execDrawrot_fit (m : DrawMode) : FbStaysFit s (execDrawrot m s) := by
  have hmode : ∀ selfMask, FbStaysFit s (drawRotMode selfMask s) := fun selfMask =>
    drawUnless_fit hl (drawRotated_writes s hl.height selfMask _ _)
  cases m with
  | unmasked => exact hmode false
  | selfmask => exact hmode true
  | erasemask | masked | plusmask | autodetect => exact answers_err .unsupportedMode s _

theorem execWritechar_fit : FbStaysFit s (execWritechar s) := by
  unfold execWritechar
  split
  · exact answers_done (t := newLine s) hl.parts.fb
  · split
    · exact fit_unchanged hl
    · unfold writeGlyph
      split
      case h_1 fb hpaint =>
        refine answers_done ?_
        rw [advance_fb]
        exact hl.parts.fb.writesBelow (paint_fbOnly s _ fb hl hpaint)
      case h_2 u _ => exact answers_undefined u s _

/-- No command lists a byte outside FB or breaks its canonical form. -/
theorem exec_fit (i : Instr) : FbStaysFit s (exec i s) := by
  cases i with
  | nop => exact fit_unchanged hl
  | getpix => exact answers_done (t := { s with result0 := _ }) hl.parts.fb
  | rotvec => exact answers_done (t := { s with result0 := _, result1 := _ }) hl.parts.fb
  | fill c =>
    exact withInk_answers fun ink => answers_done (t := { s with fb := filled s.params ink }) (Memory.fits_tabulate _ _)
  | setpix | hline | vline | line | circle | circleq | fcircle | fcircleq | rect | frect | rrect | frrect | tri | ftri =>
    exact shape_fit hl rfl
  | bitmap c => exact drawUnless_fit hl (blitCells_writes _ _ _ _ _ _ _ s.fb)
  | sprite m => exact execSprite_fit hl m
  | drawcomp c => exact withInk_answers fun col => drawUnless_fit hl (drawCompressed_writes s col _ _ _)
  | drawrot m => exact execDrawrot_fit hl m
  | drawchar c => exact withInk_answers fun _ => drawUnless_fit hl fun fb => paint_fbOnly s _ fb hl
  | writechar => exact execWritechar_fit hl

end

/-! ## Every command keeps a legal state legal -/

theorem CommandChanges.regsLegal_eq {i : Instr} {s t : State} (h : CommandChanges i s t) :
    t.regsLegal = s.regsLegal := by rw [h.frame]; rfl

theorem raiseErr_legal {s : State} (hl : s.Legal) (e : ErrCode) : (raiseErr e s).Legal := hl

/-- The free frame buffer of an UNDEFINED outcome is tabulated over FB's bytes, so it fits (60_exceptions.md R319). -/
theorem raiseUndefined_legal {s : State} (hl : s.Legal) (u : Undefined) : (raiseUndefined u s).Legal :=
  hl.withFb (Memory.fits_tabulate _ (Config.freeByte s.freeCtr))

/-- The three endings, read off the next state. -/
theorem Answers.next {s t : State} {P : State → Prop} {r : StepResult} (h : Answers s P r) (ht : r = .next t) :
    (∃ u, t = finishDone u ∧ P u) ∨ (∃ e, t = raiseErr e s) ∨ ∃ u, t = raiseUndefined u s := by
  subst ht
  simpa only [Answers, Host.Outcome.next.injEq] using h

theorem exec_regsLegal {i : Instr} {s t : State} (h : exec i s = .next t) : t.regsLegal = s.regsLegal := by
  rcases (exec_answers i s).next h with ⟨u, rfl, hchanges⟩ | ⟨e, rfl⟩ | ⟨r, rfl⟩
  · exact hchanges.regsLegal_eq
  · rfl
  · rfl

theorem exec_fbFits {i : Instr} {s t : State} (hl : s.Legal) (h : exec i s = .next t) :
    t.fb.Fits s.params.fbBytes := by
  rcases (exec_fit hl i).next h with ⟨u, rfl, hfit⟩ | ⟨e, rfl⟩ | ⟨r, rfl⟩
  · exact hfit
  · exact hl.parts.fb
  · exact Memory.fits_tabulate _ _

theorem exec_legal {i : Instr} {s t : State} (hl : s.Legal) (h : exec i s = .next t) : t.Legal := by
  obtain ⟨hparams, -, hres, hfont, hregs⟩ := hl.parts
  obtain ⟨eparams, eres, efont⟩ := exec_keepsResources h
  refine LegalParts.legal ⟨?_, ?_, ?_, ?_, ?_⟩
  · rwa [eparams]
  · rw [eparams]
    exact exec_fbFits hl h
  · rwa [eparams, eres]
  · rwa [efont]
  · rwa [exec_regsLegal h]

/-! ## Every input keeps a legal state legal -/

theorem writeReg_regsLegal {s : State} (h : s.regsLegal = true) (r : Reg) (v : Word) :
    (writeReg s r v).regsLegal = true := by
  obtain ⟨hconfig, hsize1, hsize, hcolor, hbg, hwrap⟩ := (regsLegal_iff s).1 h
  have hbit : (bit0Only v).toNat ≤ 1 := by rw [toNat_bit0Only]; omega
  have hnewSize : 1 ≤ (legalTextSize v).toNat ∧ (legalTextSize v).toNat ≤ 255 := by
    rw [toNat_legalTextSize]; split <;> omega
  rw [regsLegal_iff]
  cases r with
  | config => exact ⟨hbit, hsize1, hsize, hcolor, hbg, hwrap⟩
  | textSize => exact ⟨hconfig, hnewSize.1, hnewSize.2, hcolor, hbg, hwrap⟩
  | textColor => exact ⟨hconfig, hsize1, hsize, hbit, hbg, hwrap⟩
  | textBg => exact ⟨hconfig, hsize1, hsize, hcolor, hbit, hwrap⟩
  | textWrap => exact ⟨hconfig, hsize1, hsize, hcolor, hbg, hbit⟩
  | _ => exact ⟨hconfig, hsize1, hsize, hcolor, hbg, hwrap⟩

theorem writeReg_fb (s : State) (r : Reg) (v : Word) : (writeReg s r v).fb = s.fb := by
  cases r <;> rfl

theorem writeReg_legal {s : State} (hl : s.Legal) (r : Reg) (v : Word) : (writeReg s r v).Legal := by
  obtain ⟨hparams, hfb, hres, hfont, hregs⟩ := hl.parts
  obtain ⟨eparams, eres, efont⟩ := writeReg_keepsResources s r v
  refine LegalParts.legal ⟨?_, ?_, ?_, ?_, writeReg_regsLegal hregs r v⟩
  · rwa [eparams]
  · rwa [eparams, writeReg_fb]
  · rwa [eparams, eres]
  · rwa [efont]

theorem startCommand_legal {v : Word} {s t : State} (hl : s.Legal) (h : startCommand v s = .next t) : t.Legal := by
  have hcmd : (writeReg s .cmd v).Legal := hl
  unfold startCommand at h
  split at h
  · cases h
    exact raiseErr_legal hcmd _
  · exact exec_legal hcmd h

theorem windowWrite16_legal {s : State} (hl : s.Legal) {k : Nat} (hk : k < s.params.fbBytes) (v : Word) :
    (windowWrite16 s k v).Legal := by
  have hlow := hl.parts.fb.write hk (v.extractLsb' 0 8)
  refine hl.withFb ?_
  split
  · rename_i hnext
    exact hlow.write hnext _
  · exact hlow

theorem hostWrite16_legal {off v : Word} {s t : State} (hl : s.Legal) (h : hostWrite16 off v s = .next t) :
    t.Legal := by
  unfold hostWrite16 at h
  split at h
  · split at h
    case h_1 k hk =>
      cases h
      exact windowWrite16_legal hl (windowIndex_lt _ _ _ hk).2 v
    case h_2 =>
      split at h
      · exact startCommand_legal hl h
      · cases h
        exact writeReg_legal hl _ v
      · cases h
        exact hl
  · cases h
    exact hl

theorem hostWrite8_legal {s : State} (hl : s.Legal) (off : Word) (v : Byte) : (hostWrite8 off v s).Legal := by
  unfold hostWrite8
  split
  · split
    case h_1 k hk => exact hl.withFb (hl.parts.fb.write (windowIndex_lt _ _ _ hk).2 v)
    case h_2 => exact hl
  · exact hl

theorem hostRead16_legal {s : State} (hl : s.Legal) (off : Word) : (hostRead16 off s).Legal := by
  unfold hostRead16
  split <;> exact hl

theorem hostRead8_legal {s : State} (hl : s.Legal) (off : Word) : (hostRead8 off s).Legal := by
  unfold hostRead8
  split <;> exact hl

theorem resetState_legal {s : State} (hl : s.Legal) : (resetState s).Legal := by
  obtain ⟨hparams, -, hres, hfont, -⟩ := hl.parts
  exact LegalParts.legal ⟨hparams, Memory.fits_nil _, hres, hfont, rfl⟩

theorem loadRes_legal {s : State} (hl : s.Legal) (a : Word) (b : Byte) : (loadRes a b s).Legal := by
  unfold loadRes
  split
  · rename_i ha
    obtain ⟨hparams, hfb, hres, hfont, hregs⟩ := hl.parts
    exact LegalParts.legal ⟨hparams, hfb, hres.write ha b, hfont, hregs⟩
  · exact hl

/-- The 256 glyphs of five columns take the 1280 bytes of FONT (10_state.md R41). -/
theorem loadFont_legal {s : State} (hl : s.Legal) (c : Byte) (i : Fin 5) (b : Byte) : (loadFont c i b s).Legal := by
  obtain ⟨hparams, hfb, hres, hfont, hregs⟩ := hl.parts
  have haddr : 5 * c.toNat + i.val < 1280 := by
    have hc := c.isLt
    have hi := i.isLt
    omega
  exact LegalParts.legal ⟨hparams, hfb, hres, hfont.write haddr b, hregs⟩

theorem raceCommand_legal {v a : Word} {b : Byte} {s t : State} (hl : s.Legal) (h : raceCommand v a b s = .next t) :
    t.Legal := by
  have hloaded : (writeReg (loadRes a b s) .cmd v).Legal := loadRes_legal hl a b
  unfold raceCommand at h
  split at h
  · cases h
    exact raiseErr_legal hloaded _
  · split at h
    · cases h
      exact raiseUndefined_legal hloaded .resChanged
    · exact exec_legal (s := writeReg s .cmd v) hl h

theorem perform_legal {e : Input} {s t : State} (hl : s.Legal) (h : perform e s = .next t) : t.Legal := by
  cases e with
  | write16 off v => exact hostWrite16_legal hl h
  | write8 off v => cases h; exact hostWrite8_legal hl off v
  | read16 off => cases h; exact hostRead16_legal hl off
  | read8 off => cases h; exact hostRead8_legal hl off
  | platformReset | resetDuring => cases h; exact resetState_legal hl
  | loadRes a b => cases h; exact loadRes_legal hl a b
  | loadFont c i b => cases h; exact loadFont_legal hl c i b
  | writeCmdRacingRes v a b => exact raceCommand_legal hl h

/-- Settles O60: by cases on the input performed; a command changes FB by writes inside it alone, or tabulates it, and
the registers with reserved bits are stored masked. -/
theorem stepKeepsLegal : Obligations.StepKeepsLegal := by
  intro s t hl hstep
  cases hnext : s.pending with
  | nil =>
    unfold step at hstep
    rw [hnext] at hstep
    cases hstep
    exact hl
  | cons e rest =>
    rw [step_perform s e rest hnext] at hstep
    exact perform_legal (s := { s with pending := rest }) hl hstep

end Sys2Proof.Machine
end

section
/-! PROOFS of 30_encoding.md R80 to R85: a command word is its four fields, and the rows of the opcode map admit exactly
the codes of the well-formed commands. -/

namespace Sys2Proof

/-! ## The fields of a word -/

theorem opcField_eq (v : Word) : opcField v = v.toNat % 256 := by
  simp [opcField]

theorem colorField_eq (v : Word) : colorField v = v.toNat / 2 ^ 8 % 4 := by
  simp [colorField, Nat.shiftRight_eq_div_pow]

theorem modeField_eq (v : Word) : modeField v = v.toNat / 2 ^ 10 % 8 := by
  simp [modeField, Nat.shiftRight_eq_div_pow]

/-- RSV is the top field, so the quotient needs no remainder. -/
theorem rsvField_eq (v : Word) : rsvField v = v.toNat / 2 ^ 13 := by
  have hv := v.isLt
  rw [rsvField, BitVec.extractLsb'_toNat, Nat.shiftRight_eq_div_pow]
  omega

/-- The four fields cover all sixteen bits (30_encoding.md R80). -/
theorem word_eq_of_fields {v w : Word} (hopc : opcField v = opcField w) (hcolor : colorField v = colorField w)
    (hmode : modeField v = modeField w) (hrsv : rsvField v = rsvField w) : v = w := by
  rw [opcField_eq, opcField_eq] at hopc
  rw [colorField_eq, colorField_eq] at hcolor
  rw [modeField_eq, modeField_eq] at hmode
  rw [rsvField_eq, rsvField_eq] at hrsv
  exact BitVec.eq_of_toNat_eq (by omega)

theorem encode_fields (i : Instr) : Laws.EncodeFields.Statement i := by
  cases i with
  | nop => exact Laws.EncodeFields.nop
  | fill c => exact Laws.EncodeFields.fill c
  | setpix c => exact Laws.EncodeFields.setpix c
  | getpix => exact Laws.EncodeFields.getpix
  | hline c => exact Laws.EncodeFields.hline c
  | vline c => exact Laws.EncodeFields.vline c
  | line c => exact Laws.EncodeFields.line c
  | circle c => exact Laws.EncodeFields.circle c
  | circleq c => exact Laws.EncodeFields.circleq c
  | fcircle c => exact Laws.EncodeFields.fcircle c
  | fcircleq c => exact Laws.EncodeFields.fcircleq c
  | rect c => exact Laws.EncodeFields.rect c
  | frect c => exact Laws.EncodeFields.frect c
  | rrect c => exact Laws.EncodeFields.rrect c
  | frrect c => exact Laws.EncodeFields.frrect c
  | tri c => exact Laws.EncodeFields.tri c
  | ftri c => exact Laws.EncodeFields.ftri c
  | bitmap c => exact Laws.EncodeFields.bitmap c
  | sprite m => exact Laws.EncodeFields.sprite m
  | drawcomp c => exact Laws.EncodeFields.drawcomp c
  | rotvec => exact Laws.EncodeFields.rotvec
  | drawrot m => exact Laws.EncodeFields.drawrot m
  | drawchar c => exact Laws.EncodeFields.drawchar c
  | writechar => exact Laws.EncodeFields.writechar

/-- The fields of a word are the codes of a command. -/
def HasCodes (v : Word) (i : Instr) : Prop :=
  i.opcode = opcField v ∧ i.colorCode = colorField v ∧ i.modeCode = modeField v

theorem encode_eq_iff (i : Instr) (v : Word) : encode i = v ↔ rsvField v = 0 ∧ HasCodes v i := by
  obtain ⟨hopc, hcolor, hmode, hrsv⟩ := encode_fields i
  constructor
  · rintro rfl
    exact ⟨hrsv, hopc.symm, hcolor.symm, hmode.symm⟩
  · rintro ⟨hrsv0, hopcv, hcolorv, hmodev⟩
    exact word_eq_of_fields (hopc.trans hopcv) (hcolor.trans hcolorv) (hmode.trans hmodev) (hrsv.trans hrsv0.symm)

/-! ## The codes of colours and modes -/

theorem colourOf_eq_some_iff (n : Nat) (c : Colour) : colourOf n = some c ↔ c.code = n := by
  constructor
  · intro h
    unfold colourOf at h
    split at h <;> cases h <;> rfl
  · rintro rfl
    cases c <;> rfl

theorem drawModeOf_eq_some_iff (n : Nat) (m : DrawMode) : drawModeOf n = some m ↔ m.code = n := by
  constructor
  · intro h
    unfold drawModeOf at h
    split at h <;> cases h <;> rfl
  · rintro rfl
    cases m <;> rfl

/-! ## What a row admits -/

/-- The command `i` is what a row builds from a COLOR and a MODE code (30_encoding.md R84). -/
def Row.Admits (color mode : Nat) (i : Instr) : Row → Prop
  | .plain j => color = 0 ∧ mode = 0 ∧ i = j
  | .inked mk => ∃ c : Colour, c.isInk = true ∧ color = c.code ∧ mode = 0 ∧ i = mk c
  | .painted mk => ∃ c : Colour, color = c.code ∧ mode = 0 ∧ i = mk c
  | .moded mk => ∃ m : DrawMode, color = 0 ∧ mode = m.code ∧ i = mk m
  | .rotated mk => ∃ m : DrawMode, m.isRotation = true ∧ color = 0 ∧ mode = m.code ∧ i = mk m

theorem Row.resolve_ok_iff (row : Row) (color mode : Nat) (i : Instr) :
    row.resolve color mode = .ok i ↔ row.Admits color mode i := by
  constructor
  · intro h
    unfold Row.resolve at h
    split at h
    case h_7 => cases h
    all_goals
      rename_i hcolor hmode
      obtain rfl := (colourOf_eq_some_iff _ _).1 hcolor
      obtain rfl := (drawModeOf_eq_some_iff _ _).1 hmode
    case h_1 => cases h; exact ⟨rfl, rfl, rfl⟩
    case h_2 => cases h; exact ⟨.black, rfl, rfl, rfl, rfl⟩
    case h_3 => cases h; exact ⟨.white, rfl, rfl, rfl, rfl⟩
    case h_4 c => cases h; exact ⟨c, rfl, rfl, rfl⟩
    case h_5 m => cases h; exact ⟨m, rfl, rfl, rfl⟩
    case h_6 m =>
      split at h
      case isTrue hrot => cases h; exact ⟨m, hrot, rfl, rfl, rfl⟩
      case isFalse => cases h
  · cases row with
    | plain j => rintro ⟨rfl, rfl, rfl⟩; rfl
    | inked mk =>
      rintro ⟨c, hink, rfl, rfl, rfl⟩
      cases c with
      | black | white => rfl
      | invert => cases hink
    | painted mk => rintro ⟨c, rfl, rfl, rfl⟩; cases c <;> rfl
    | moded mk => rintro ⟨m, rfl, rfl, rfl⟩; cases m <;> rfl
    | rotated mk =>
      rintro ⟨m, hrot, rfl, rfl, rfl⟩
      cases m with
      | unmasked | selfmask => rfl
      | erasemask | masked | plusmask | autodetect => cases hrot

/-! ## The opcode map names the well-formed commands -/

/-- Every command a row admits is well formed, stands at opcode `opc` and has the codes it was admitted with. -/
def Row.Serves (opc : Nat) (row : Row) : Prop :=
  ∀ color mode i, row.Admits color mode i →
    i.WellFormed ∧ i.opcode = opc ∧ i.colorCode = color ∧ i.modeCode = mode

theorem serves_plain {opc : Nat} {i : Instr}
    (h : i.WellFormed ∧ i.opcode = opc ∧ i.colorCode = 0 ∧ i.modeCode = 0) : (Row.plain i).Serves opc := by
  rintro _ _ _ ⟨rfl, rfl, rfl⟩
  exact h

theorem serves_inked {opc : Nat} {mk : Colour → Instr}
    (h : ∀ c, (mk c).wellFormed = c.isInk ∧ (mk c).opcode = opc ∧ (mk c).colorCode = c.code ∧ (mk c).modeCode = 0) :
    (Row.inked mk).Serves opc := by
  rintro _ _ _ ⟨c, hink, rfl, rfl, rfl⟩
  exact ⟨(h c).1.trans hink, (h c).2⟩

theorem rowOf_serves {opc : Nat} {row : Row} (h : rowOf opc = some row) : row.Serves opc := by
  unfold rowOf at h
  split at h
  case h_25 => cases h
  all_goals cases h
  case h_1 | h_4 | h_21 | h_24 => exact serves_plain ⟨rfl, rfl, rfl, rfl⟩
  case h_18 =>
    rintro _ _ _ ⟨c, rfl, rfl, rfl⟩
    exact ⟨rfl, rfl, rfl, rfl⟩
  case h_19 =>
    rintro _ _ _ ⟨m, rfl, rfl, rfl⟩
    exact ⟨rfl, rfl, rfl, rfl⟩
  case h_22 =>
    rintro _ _ _ ⟨m, hrot, rfl, rfl, rfl⟩
    exact ⟨hrot, rfl, rfl, rfl⟩
  all_goals exact serves_inked fun _ => ⟨rfl, rfl, rfl, rfl⟩

/-- The row of a well-formed command admits it with its own codes. -/
theorem rowOf_opcode_admits {i : Instr} (h : i.WellFormed) :
    ∃ row, rowOf i.opcode = some row ∧ row.Admits i.colorCode i.modeCode i := by
  cases i with
  | nop | getpix | rotvec | writechar => exact ⟨_, rfl, rfl, rfl, rfl⟩
  | bitmap c => exact ⟨_, rfl, c, rfl, rfl, rfl⟩
  | sprite m => exact ⟨_, rfl, m, rfl, rfl, rfl⟩
  | drawrot m => exact ⟨_, rfl, m, h, rfl, rfl, rfl⟩
  | _ c => exact ⟨_, rfl, c, h, rfl, rfl, rfl⟩

/-! ## The decoder -/

theorem decode_of_row {v : Word} {row : Row} (hrow : rowOf (opcField v) = some row) (hrsv : rsvField v = 0) :
    decode v = row.resolve (colorField v) (modeField v) := by
  unfold decode
  rw [hrow]
  exact if_neg (not_not_intro hrsv)

theorem decode_reserved {v : Word} {row : Row} (hrow : rowOf (opcField v) = some row) (hrsv : rsvField v ≠ 0) :
    decode v = .error .reservedField := by
  unfold decode
  rw [hrow]
  exact if_pos hrsv

theorem decode_illegal {v : Word} (hrow : rowOf (opcField v) = none) : decode v = .error .illegalOpcode := by
  unfold decode
  rw [hrow]

theorem decode_ok_iff (v : Word) (i : Instr) :
    decode v = .ok i ↔
      rsvField v = 0 ∧ ∃ row, rowOf (opcField v) = some row ∧ row.Admits (colorField v) (modeField v) i := by
  constructor
  · intro h
    cases hrow : rowOf (opcField v) with
    | none => rw [decode_illegal hrow] at h; cases h
    | some row =>
      by_cases hrsv : rsvField v = 0
      · rw [decode_of_row hrow hrsv, Row.resolve_ok_iff] at h
        exact ⟨hrsv, row, rfl, h⟩
      · rw [decode_reserved hrow hrsv] at h; cases h
  · rintro ⟨hrsv, row, hrow, hadmits⟩
    rw [decode_of_row hrow hrsv]
    exact (row.resolve_ok_iff _ _ _).2 hadmits

/-- Settles O1: both sides say that RSV is 0 and that the row at the word's OPC admits the command with the word's
codes. -/
theorem decodeEncodeAgree : Obligations.DecodeEncodeAgree := by
  intro v i
  rw [decode_ok_iff, encode_eq_iff]
  constructor
  · rintro ⟨hrsv, row, hrow, hadmits⟩
    obtain ⟨hwf, hcodes⟩ := rowOf_serves hrow _ _ _ hadmits
    exact ⟨hwf, hrsv, hcodes⟩
  · rintro ⟨hwf, hrsv, hopc, hcolor, hmode⟩
    have hrow := rowOf_opcode_admits hwf
    rw [hopc, hcolor, hmode] at hrow
    exact ⟨hrsv, hrow⟩

theorem decode_encode {i : Instr} (h : i.WellFormed) : decode (encode i) = .ok i :=
  (decodeEncodeAgree (encode i) i).2 ⟨h, rfl⟩

/-- Settles O3: each word is the encoding of the command it decodes to. -/
theorem decodeWords : Obligations.DecodeWords := by
  refine ⟨?_, ?_, ?_, ?_, ?_, ?_, ?_, ?_, ?_, ?_, ?_, ?_, ?_⟩ <;>
    exact (decodeEncodeAgree _ _).2 ⟨rfl, rfl⟩

end Sys2Proof
end

section
/-! PROOFS of 30_encoding.md R85 at the host port: the checks of a write of CMD, in the rule's order, over the table of
R84. -/

namespace Sys2Proof

/-! ## The opcode map as a table -/

/-- The COLOR column of a row's kind (30_encoding.md R84). -/
def Row.colours : Row → List Nat
  | .plain _ | .moded _ | .rotated _ => [0]
  | .inked _ => [0, 1]
  | .painted _ => [0, 1, 2]

/-- The MODE column of a row's kind, the supported values alone (30_encoding.md R84). -/
def Row.modes : Row → List Nat
  | .plain _ | .inked _ | .painted _ => [0]
  | .moded _ => [0, 1, 2, 3, 4, 5]
  | .rotated _ => [0, 1]

/-- The row that has legal modes without support (30_encoding.md R83). -/
def Row.isRotated : Row → Bool
  | .rotated _ => true
  | .plain _ | .inked _ | .painted _ | .moded _ => false

theorem lookup_opcodeMap (opc : Nat) :
    Machine.opcodeMap.lookup opc = (rowOf opc).map fun row => (row.colours, row.modes) := by
  unfold rowOf
  split
  case h_25 =>
    refine List.lookup_eq_none_iff.2 ?_
    simp_all [Machine.opcodeMap]
  all_goals rfl

/-- DRAWROT's row is the one at OPC 0x71 (30_encoding.md R84). -/
theorem rowOf_isRotated {opc : Nat} {row : Row} (h : rowOf opc = some row) : row.isRotated = true ↔ opc = 0x71 := by
  unfold rowOf at h
  split at h <;> cases h <;> decide

/-! ## Codes that name a colour or a mode -/

theorem mem_colourCodes_iff (n : Nat) : n ∈ [0, 1, 2] ↔ ∃ c : Colour, c.code = n := by
  constructor
  · simp only [List.mem_cons, List.not_mem_nil, or_false]
    rintro (rfl | rfl | rfl)
    exacts [⟨.black, rfl⟩, ⟨.white, rfl⟩, ⟨.invert, rfl⟩]
  · rintro ⟨c, rfl⟩
    cases c <;> decide

theorem exists_inkCode {n : Nat} (h : n ∈ [0, 1]) : ∃ c : Colour, c.isInk = true ∧ c.code = n := by
  rcases List.mem_pair.1 h with rfl | rfl
  exacts [⟨.black, rfl, rfl⟩, ⟨.white, rfl, rfl⟩]

theorem lt_six_iff_modeCode (n : Nat) : n < 6 ↔ ∃ m : DrawMode, m.code = n := by
  constructor
  · intro h
    interval_cases n
    exacts [⟨.unmasked, rfl⟩, ⟨.selfmask, rfl⟩, ⟨.erasemask, rfl⟩, ⟨.masked, rfl⟩, ⟨.plusmask, rfl⟩, ⟨.autodetect, rfl⟩]
  · rintro ⟨m, rfl⟩
    cases m <;> decide

/-- The codes DRAWROT supports are 0 and 1 (30_encoding.md R83). -/
theorem isRotation_iff (m : DrawMode) : m.isRotation = true ↔ m.code < 2 := by
  cases m <;> decide

/-! ## How a row resolves the two codes -/

/-- What has passed R85's checks (3) and (4): the COLOR code is in the row's column, the MODE code names a mode, and it
is 0 at a row that takes none. -/
theorem Row.legal_of_not_reserved {row : Row} {color mode : Nat}
    (h : row.resolve color mode ≠ .error .reservedField) :
    color ∈ row.colours ∧ mode < 6 ∧ (row.modes = [0] → mode = 0) := by
  unfold Row.resolve at h
  split at h
  case h_7 => exact absurd rfl h
  all_goals
    rename_i hcolor hmode
    obtain rfl := (colourOf_eq_some_iff _ _).1 hcolor
    obtain rfl := (drawModeOf_eq_some_iff _ _).1 hmode
  case h_1 | h_2 => exact ⟨List.mem_cons_self, by decide, fun _ => rfl⟩
  case h_3 => exact ⟨List.mem_cons_of_mem 0 List.mem_cons_self, by decide, fun _ => rfl⟩
  case h_4 c => exact ⟨(mem_colourCodes_iff _).2 ⟨c, rfl⟩, by decide, fun _ => rfl⟩
  case h_5 m | h_6 m => exact ⟨List.mem_cons_self, (lt_six_iff_modeCode _).2 ⟨m, rfl⟩, nofun⟩

/-- R85 (5): DRAWROT at a mode that SPRITE alone supports. -/
theorem Row.resolve_unsupported {row : Row} {color mode : Nat} (hrow : row.isRotated = true)
    (hcolor : color ∈ row.colours) (hlow : 2 ≤ mode) (hhigh : mode < 6) :
    row.resolve color mode = .error .unsupportedMode := by
  cases row with
  | rotated mk =>
    obtain rfl := List.mem_singleton.1 hcolor
    obtain ⟨m, rfl⟩ := (lt_six_iff_modeCode mode).1 hhigh
    cases m with
    | unmasked | selfmask => contradiction
    | erasemask | masked | plusmask | autodetect => rfl
  | plain | inked | painted | moded => cases hrow

/-- R85 (6): codes that pass the checks (3) to (5) build a command. -/
theorem Row.exists_resolve_ok {row : Row} {color mode : Nat} (hcolor : color ∈ row.colours) (hmode : mode < 6)
    (hmodeless : row.modes = [0] → mode = 0) (hrotated : row.isRotated = true → mode < 2) :
    ∃ i, row.resolve color mode = .ok i := by
  simp only [Row.resolve_ok_iff]
  obtain ⟨m, rfl⟩ := (lt_six_iff_modeCode mode).1 hmode
  cases row with
  | plain i => exact ⟨i, List.mem_singleton.1 hcolor, hmodeless rfl, rfl⟩
  | inked mk =>
    obtain ⟨c, hink, hc⟩ := exists_inkCode hcolor
    exact ⟨mk c, c, hink, hc.symm, hmodeless rfl, rfl⟩
  | painted mk =>
    obtain ⟨c, hc⟩ := (mem_colourCodes_iff color).1 hcolor
    exact ⟨mk c, c, hc.symm, hmodeless rfl, rfl⟩
  | moded mk => exact ⟨mk m, m, List.mem_singleton.1 hcolor, rfl, rfl⟩
  | rotated mk => exact ⟨mk m, m, (isRotation_iff m).2 (hrotated rfl), List.mem_singleton.1 hcolor, rfl, rfl⟩

end Sys2Proof

/-! ## The write of CMD -/

namespace Sys2Proof.Machine

theorem step_cmd {s : State} {v : Word} {rest : List Input} (hnext : s.pending = .write16 0x0006 v :: rest) :
    step s = startCommand v { s with pending := rest } := by
  rw [step_perform s _ rest hnext]
  exact hostWrite16_cmd v _

theorem step_cmd_refused {s : State} {v : Word} {rest : List Input} {e : DecodeError}
    (hnext : s.pending = .write16 0x0006 v :: rest) (hdecode : decode v = .error e) :
    step s = .next (raiseErr (decodeErrCode e) { s with pending := rest, cmd := v }) := by
  rw [step_cmd hnext, startCommand, hdecode]
  rfl

/-- Settles O2: each check of R85 is one fact about the decoder, and what passes them all is a command by O1. -/
theorem cmdWriteDecodes : Obligations.CmdWriteDecodes := by
  intro s v rest hnext s' err
  rw [lookup_opcodeMap, ← opcField_eq, ← colorField_eq, ← modeField_eq, ← rsvField_eq]
  cases hrow : rowOf (opcField v) with
  | none => exact step_cmd_refused hnext (decode_illegal hrow)
  | some row =>
    dsimp only [Option.map_some]
    split
    case isTrue hrsv => exact step_cmd_refused hnext (decode_reserved hrow hrsv)
    case isFalse hrsv =>
      have hresolve := decode_of_row hrow (not_not.1 hrsv)
      split
      case isTrue hcolor =>
        refine step_cmd_refused (e := .reservedField) hnext (hresolve.trans (by_contra fun hne => ?_))
        exact hcolor (Row.legal_of_not_reserved hne).1
      case isFalse hcolor =>
        split
        case isTrue hmode =>
          refine step_cmd_refused (e := .reservedField) hnext (hresolve.trans (by_contra fun hne => ?_))
          obtain ⟨-, hnamed, hmodeless⟩ := Row.legal_of_not_reserved hne
          exact hmode.elim (fun h => by omega) fun h => h.2 (hmodeless h.1)
        case isFalse hmode =>
          obtain ⟨hnamed, hmodeless⟩ := not_or.1 hmode
          split
          case isTrue hrot =>
            obtain ⟨hopc, hlow⟩ := hrot
            exact step_cmd_refused hnext (hresolve.trans
              (Row.resolve_unsupported ((rowOf_isRotated hrow).2 hopc) (not_not.1 hcolor) hlow (not_le.1 hnamed)))
          case isFalse hrot =>
            obtain ⟨i, hi⟩ := Row.exists_resolve_ok (not_not.1 hcolor) (not_le.1 hnamed)
              (fun h => by_contra fun h0 => hmodeless ⟨h, h0⟩)
              (fun h => by_contra fun h2 => hrot ⟨(rowOf_isRotated hrow).1 h, not_lt.1 h2⟩)
            have hdecode := hresolve.trans hi
            obtain ⟨hwf, hencode⟩ := (decodeEncodeAgree v i).1 hdecode
            exact ⟨i, hwf, hencode, stepRunsCommand s v rest i hnext hdecode⟩

end Sys2Proof.Machine
end

section
/-! PROOFS of 30_encoding.md R89: a command line of the assembler, run as its host writes. -/

namespace Sys2Proof.Machine

/-! ## Loading the operands -/

/-- The operand registers after a command line's operands are written from ARG `k` on (30_encoding.md R89). -/
def loadOperands (A : Vector Word 8) (k : Nat) : List Int → Vector Word 8
  | [] => A
  | v :: rest => loadOperands (A.setIfInBounds k (toWord v)) (k + 1) rest

/-- Registers below ARG `k` keep their value. -/
theorem loadOperands_below (A : Vector Word 8) (k : Nat) (operands : List Int) (j : Fin 8) (hj : j.val < k) :
    (loadOperands A k operands)[j] = A[j] := by
  induction operands generalizing A k with
  | nil => rfl
  | cons v rest ih => exact (ih _ _ (by omega)).trans (Vector.getElem_setIfInBounds_ne j.isLt (by omega))

/-- Register `j`, the `n`-th from ARG `k` on, holds operand `n` mod 2^16, where there is one. -/
theorem loadOperands_from (A : Vector Word 8) (k n : Nat) (operands : List Int) (j : Fin 8) (hj : j.val = k + n) :
    (loadOperands A k operands)[j] = if hn : n < operands.length then toWord operands[n] else A[j] := by
  induction operands generalizing A k n with
  | nil => rfl
  | cons v rest ih =>
    cases n with
    | zero =>
      obtain rfl : j.val = k := hj
      exact (loadOperands_below _ _ rest j (Nat.lt_succ_self _)).trans (Vector.getElem_setIfInBounds_self j.isLt)
    | succ n =>
      have hkept : (A.setIfInBounds k (toWord v))[j] = A[j] := Vector.getElem_setIfInBounds_ne j.isLt (by omega)
      rw [loadOperands, ih _ (k + 1) n (by omega), hkept]
      simp only [List.length_cons, Nat.add_lt_add_iff_right, List.getElem_cons_succ]

/-- The host offset of ARG `k` (10_state.md R26). -/
theorem offset_arg (k : Fin 8) : Reg.offset (.arg k) = BitVec.ofNat 16 (0x010 + 2 * k.val) := by
  rw [BitVec.ofNat_add]
  rfl

theorem step_write_operand {s : State} {k : Nat} {v : Word} {rest : List Input} (hk : k < 8)
    (hnext : s.pending = .write16 (BitVec.ofNat 16 (0x010 + 2 * k)) v :: rest) :
    step s = .next { s with pending := rest, args := s.args.setIfInBounds k v } := by
  rw [step_perform s _ rest hnext]
  change hostWrite16 _ v _ = _
  rw [← offset_arg ⟨k, hk⟩, hostWrite16_reg (r := .arg ⟨k, hk⟩) _ v nofun]
  refine congrArg (fun A => Host.Outcome.next { s with pending := rest, args := A }) (Vector.ext fun j hj => ?_)
  rw [Vector.getElem_set, Vector.getElem_setIfInBounds]

theorem run_writeOperands (operands : List Int) (k n : Nat) (s : State) (rest : List Input)
    (hk : k + operands.length ≤ 8) (hnext : s.pending = writeOperands k operands ++ rest) :
    Sys2Proof.core.run (operands.length + n) s =
      Sys2Proof.core.run n { s with pending := rest, args := loadOperands s.args k operands } := by
  induction operands generalizing k s with
  | nil =>
    have hrest : s.pending = rest := hnext
    rw [← hrest, List.length_nil, Nat.zero_add]
    rfl
  | cons v operands ih =>
    rw [List.length_cons] at hk
    rw [List.length_cons, Nat.add_right_comm, run_of_step _ (step_write_operand (by omega) hnext)]
    exact ih (k + 1) _ (by omega) rfl

theorem run_one (s : State) : Sys2Proof.core.run 1 s = step s := by
  have hcore : Sys2Proof.core.step s = step s := rfl
  simp only [Host.Core.run, hcore]
  cases step s <;> rfl

/-- Settles O53: by induction on the operands for their writes, then the write of CMD, whose word decodes to the
command (O1). -/
theorem commandLineRuns : Obligations.CommandLineRuns := by
  intro s i operands rest hwf hlen hnext
  refine ⟨loadOperands s.args 0 operands, fun k => ?_, ?_⟩
  · exact loadOperands_from s.args 0 k operands k (Nat.zero_add _).symm
  · rw [commandLine, List.append_assoc] at hnext
    rw [run_writeOperands operands 0 1 s _ (by omega) hnext, run_one]
    exact stepRunsCommand _ (encode i) rest i rfl (decode_encode hwf)

end Sys2Proof.Machine
end

section
/-! PROOFS of 40_framebuffer.md R102, R103 and R105: NOP, FILL and GETPIX, which draw no shape. -/

namespace Sys2Proof.Machine

/-- Settles O10: NOP is the DONE ending on the state as it stands. -/
theorem nopCompletes : Obligations.NopCompletes :=
  fun _ => rfl

theorem read_filled (p : Params) (ink : Bool) (k : Nat) :
    (filled p ink).read k = if k < p.fbBytes then (if ink then 0xFF else 0x00) else Memory.unlisted :=
  Memory.read_tabulate p.fbBytes _ k

/-- Settles O11: the tabulated buffer reads as the colour below FB_BYTES, and past it as the bytes a buffer in its
space does not list. -/
theorem fillSetsEveryByte : Obligations.FillSetsEveryByte := by
  intro c ink s hc
  refine ⟨finishDone { s with fb := filled s.params ink }, withInk_of_ink c s _ ink hc, rfl, fun k hk => ?_,
    fun hbelow k hk => ?_⟩
  · exact (read_filled s.params ink k).trans (if_pos hk)
  · calc (filled s.params ink).read k
        = Memory.unlisted := (read_filled s.params ink k).trans (if_neg (not_lt.2 hk))
      _ = s.fb.read k := (Memory.read_of_below s.fb _ k hbelow hk).symm

theorem exec_getpix (s : State) :
    exec .getpix s =
      .next (finishDone { s with result0 := pixelQuery s.params s.fb (s16 (s.arg 0)) (s16 (s.arg 1)) }) := rfl

/-- The query in the coordinates of 40_framebuffer.md R101. -/
theorem pixelQuery_eq (p : Params) (fb : Memory) (x y : Int) :
    pixelQuery p fb x y =
      if 0 ≤ x ∧ x < p.width ∧ 0 ≤ y ∧ y < p.height ∧
          (fb.read (y / 8 * p.width + x).toNat).getLsbD (y % 8).toNat = true then 0x0001 else 0x0000 := by
  unfold pixelQuery
  refine if_congr ?_ rfl rfl
  rw [Bool.and_eq_true, inBuffer_iff]
  simp only [and_assoc, pixelRead, pixelByte, pixelBit]

theorem pixelQuery_inBuffer (p : Params) (fb : Memory) (x y : Int) (h : inBuffer p x y = true) :
    pixelQuery p fb x y = if pixelRead p fb x y then 1 else 0 := by
  rw [pixelQuery, h, Bool.true_and]

/-- Settles O14: the arm of GETPIX, with its query written out. -/
theorem getpixReads : Obligations.GetpixReads := by
  intro s x y
  rw [exec_getpix, pixelQuery_eq]
  rfl

end Sys2Proof.Machine
end

section
/-! PROOFS of 40_framebuffer.md R100, R104 to R109 and R111: where the pixels of a shape command may all be written it
paints exactly its points, elsewhere each CONFIG mode has its own ending. -/

namespace Sys2Proof.Machine

/-! ## Shapes off the screen -/

theorem paint_clipped {p : Params} {ds : List Dot} (fb : Memory) (h : ∀ d ∈ ds, inBuffer p d.x d.y = false) :
    paint p true ds fb = .ok fb := by
  induction ds with
  | nil => exact paint_nil p true fb
  | cons d ds ih =>
    obtain ⟨hd, hds⟩ := List.forall_mem_cons.1 h
    rw [paint_cons, pixelWrite_clipped p fb d hd]
    exact ih hds

/-- The writes of a shape lie where its points lie. -/
theorem inked_inBuffer {p : Params} (ink : Bool) {pts : List Point} {inside : Bool}
    (h : ∀ q ∈ pts, inBuffer p q.1 q.2 = inside) : ∀ d ∈ inked ink pts, inBuffer p d.x d.y = inside :=
  List.forall_mem_map.2 h

theorem drawPoints_offscreen {s : State} (ink : Bool) {pts : List Point} (hsafe : s.pixelSafe = true)
    (h : ∀ q ∈ pts, inBuffer s.params q.1 q.2 = false) : drawPoints s ink pts = .next (finishDone s) := by
  rw [drawPoints, hsafe, paint_clipped s.fb (inked_inBuffer ink h), concludeFb_ok]

/-! ## A shape command in the ink of its colour -/

section
variable {i : Instr} {c : Colour} {ink : Bool} {pts : List Point} {s : State} (hc : inkOf c = some ink)
  (hpts : shapePoints s i = some (c, pts))
include hc hpts

theorem exec_shape_of_ink : exec i s = drawPoints s ink pts :=
  (exec_shape hpts).trans (withInk_of_ink c s _ ink hc)

theorem exec_shape_paints {shape : Int → Int → Prop}
    (hclean : s.pixelSafe = true ∨ ∀ q ∈ pts, inBuffer s.params q.1 q.2 = true)
    (hshape : ∀ x y, inBuffer s.params x y = true → ((x, y) ∈ pts ↔ shape x y)) :
    ∃ t, exec i s = .next t ∧ PaintsExactly s t ink shape := by
  obtain ⟨t, hrun, hpaints⟩ := drawPoints_paints s ink pts hclean
  exact ⟨t, (exec_shape_of_ink hc hpts).trans hrun, hpaints.congr hshape⟩

theorem exec_shape_offscreen (hsafe : s.pixelSafe = true) (hout : ∀ q ∈ pts, inBuffer s.params q.1 q.2 = false) :
    exec i s = .next (finishDone s) :=
  (exec_shape_of_ink hc hpts).trans (drawPoints_offscreen ink hsafe hout)

theorem exec_shape_unchecked (hunchecked : s.pixelSafe = false) (hout : ∃ q ∈ pts, inBuffer s.params q.1 q.2 = false) :
    exec i s = .next (raiseUndefined .pixelRange s) :=
  (exec_shape_of_ink hc hpts).trans (drawPoints_unchecked s ink pts hunchecked hout)

end

/-- Settles O29: every write of the shape is clipped. -/
theorem offscreenShapeUnchanged : Obligations.OffscreenShapeUnchanged := by
  intro i c ink pts s hc hpts hsafe hout
  exact exec_shape_offscreen hc hpts hsafe hout

/-! ## SETPIX -/

theorem setpix_paints {c : Colour} {ink : Bool} {s : State} (hc : inkOf c = some ink)
    (hin : inBuffer s.params (s16 (s.arg 0)) (s16 (s.arg 1)) = true) :
    ∃ t, exec (.setpix c) s = .next t ∧
      PaintsExactly s t ink (fun a b => a = s16 (s.arg 0) ∧ b = s16 (s.arg 1)) := by
  refine exec_shape_paints (i := .setpix c) hc rfl (.inr ?_) fun a b _ => ?_
  · exact List.forall_mem_singleton.2 hin
  · rw [List.mem_singleton, Prod.mk.injEq]

/-- Settles O12: the one point of SETPIX is painted, clipped or refused as every shape is. -/
theorem setpixWritesOnePixel : Obligations.SetpixWritesOnePixel := by
  intro c ink s hc x y
  split
  case isTrue hin => exact setpix_paints hc ((inBuffer_iff s.params x y).2 hin)
  case isFalse hnotin =>
    have hout : inBuffer s.params x y = false := Bool.eq_false_iff.2 fun h => hnotin ((inBuffer_iff s.params x y).1 h)
    split
    case isTrue hsafe =>
      exact exec_shape_offscreen (i := .setpix c) hc rfl hsafe (List.forall_mem_singleton.2 hout)
    case isFalse hunchecked =>
      exact ⟨_, exec_shape_unchecked (i := .setpix c) hc rfl (Bool.eq_false_iff.2 hunchecked)
        ⟨(x, y), List.mem_singleton_self _, hout⟩, raiseUndefined_keeps .pixelRange s⟩

/-- Painting leaves the operands and the parameters alone, so GETPIX after it asks for the same pixel. -/
theorem DoneFb.exec_getpix {s t : State} (h : DoneFb s t) :
    exec .getpix t =
      .next (finishDone { t with result0 := pixelQuery s.params t.fb (s16 (s.arg 0)) (s16 (s.arg 1)) }) := by
  have hframe : t = { s with fb := t.fb, err := 0, lastOutcome := some .done } := h
  have hparams : t.params = s.params := by rw [hframe]
  have hargs (n : Fin 8) : t.arg n = s.arg n := by rw [hframe]; rfl
  rw [Machine.exec_getpix, hparams, hargs, hargs]

/-- Settles O13: SETPIX paints the bit that GETPIX then reads, and GETPIX leaves FB as SETPIX made it. -/
theorem setThenGet : Obligations.SetThenGet := by
  intro c ink s hc hin
  obtain ⟨t, hset, hframe, hbits⟩ := setpix_paints hc hin
  refine ⟨t, _, hset, hframe.exec_getpix, ?_, fun k j hj hother => ?_⟩
  · have hread : pixelRead s.params t.fb (s16 (s.arg 0)) (s16 (s.arg 1)) = ink :=
      (hbits _ _ (pixelBit_lt _)).1 ⟨_, _, ⟨rfl, rfl⟩, hin, rfl, rfl⟩
    exact (pixelQuery_inBuffer _ _ _ _ hin).trans (by rw [hread])
  · refine (hbits k j hj).2 ?_
    rintro ⟨a, b, ⟨rfl, rfl⟩, hpixel⟩
    exact hother hpixel

/-! ## HLINE and VLINE -/

/-- Settles O15: a span is clipped to the buffer before it is drawn, so no CONFIG mode refuses it. -/
theorem spanCommandsPaint : Obligations.SpanCommandsPaint := by
  intro c ink s hc x y n
  constructor
  · refine exec_shape_paints (i := .hline c) hc rfl (.inr (hspan_inBuffer _ _ _ _)) fun a b hin => ?_
    simp only [mem_hspan, hin, and_true, x, y, n]
  · refine exec_shape_paints (i := .vline c) hc rfl (.inr (vspan_inBuffer _ _ _ _)) fun a b hin => ?_
    simp only [mem_vspan, hin, and_true, x, y, n]

end Sys2Proof.Machine
end

section
/-! PROOFS of 40_framebuffer.md R100 for glyphs (48_glyph.md R291 to R293): which pixels a glyph writes, and that a
write outside the buffer ends a command of unchecked mode in UNDEFINED(PIXEL_RANGE). -/

namespace Sys2Proof.Machine

/-! ## The pixel writes of a glyph -/

theorem glyphColumn_getLsbD (font : Memory) (c i j : Nat) :
    (glyphColumn font c i).getLsbD j = glyphBit font c i j := by
  unfold glyphColumn glyphBit fontRead
  by_cases hi : i < 5 <;> simp [hi]

theorem mem_block (x y : Int) (size : Nat) (on : Bool) (d : Dot) :
    d ∈ block x y size on ↔ x ≤ d.x ∧ d.x < x + size ∧ y ≤ d.y ∧ d.y < y + size ∧ d.on = on := by
  simp only [block, List.mem_flatMap, List.mem_map, List.mem_range]
  constructor
  · rintro ⟨a, ha, b, hb, rfl⟩
    dsimp only
    exact ⟨by omega, by omega, by omega, by omega, rfl⟩
  · rintro ⟨hx, hx', hy, hy', rfl⟩
    refine ⟨(d.x - x).toNat, by omega, (d.y - y).toNat, by omega, ?_⟩
    rw [Int.toNat_of_nonneg (by omega), Int.toNat_of_nonneg (by omega), add_sub_cancel, add_sub_cancel]

/-- Cell `i` of a row of cells of `size` pixels from `x` on: its pixels are `i` sizes and a rest past `x`. -/
theorem inCellRow_iff (x a : Int) (size i : Nat) :
    x + (i * size : Nat) ≤ a ∧ a < x + (i * size : Nat) + size ↔ 0 < size ∧ x ≤ a ∧ (a - x).toNat / size = i := by
  rcases Nat.eq_zero_or_pos size with rfl | hsize
  · omega
  · rw [Nat.div_eq_iff hsize]
    omega

theorem mem_cellBlock (x y : Int) (size i j : Nat) (on : Bool) (d : Dot) :
    d ∈ block (x + (i * size : Nat)) (y + (j * size : Nat)) size on ↔
      0 < size ∧ (x ≤ d.x ∧ (d.x - x).toNat / size = i) ∧ (y ≤ d.y ∧ (d.y - y).toNat / size = j) ∧ d.on = on := by
  have hx := inCellRow_iff x d.x size i
  have hy := inCellRow_iff y d.y size j
  rw [mem_block]
  tauto

theorem glyphOffScreen_eq (p : Params) (x y : Int) (size : Nat) :
    glyphOffScreen p x y size =
      !decide (x < p.width ∧ y < p.height ∧ 0 ≤ x + 5 * size - 1 ∧ 0 ≤ y + 8 * size - 1) := by
  simp only [glyphOffScreen, ge_iff_le, ← not_lt, decide_not, Bool.decide_and, Bool.not_and, Bool.not_not, Bool.or_assoc]

/-- DrawGlyph writes each pixel that `glyphWrites` names, in its colour, and no other: the cell of a pixel is given by
its distances from the glyph's corner (48_glyph.md R291). -/
theorem mem_glyphDots (p : Params) (font : Memory) (x y : Int) (c : Nat) (fg bg : Bool) (size : Nat) (d : Dot) :
    d ∈ glyphDots p font x y c fg bg size ↔
      glyphWrites p font x y c fg bg size d.x d.y = true ∧ d.on = glyphOn font x y c fg bg size d.x d.y := by
  have hcolour (i j : Nat) : glyphColour font c fg bg i j = if glyphBit font c i j then fg else bg := by
    rw [glyphColour, glyphColumn_getLsbD]
  unfold glyphDots glyphWrites
  rw [glyphOffScreen_eq]
  cases decide (x < p.width ∧ y < p.height ∧ 0 ≤ x + 5 * size - 1 ∧ 0 ≤ y + 8 * size - 1) with
  | false => simp
  | true =>
    simp only [Bool.not_true, Bool.false_eq_true, if_false, List.mem_flatMap, List.mem_range, hcolour,
      List.mem_ite_nil_right, mem_cellBlock, Bool.true_and, Bool.and_eq_true, decide_eq_true_eq]
    constructor
    · rintro ⟨i, hi, j, hj, hdrawn, hsize, ⟨hx, rfl⟩, ⟨hy, rfl⟩, hon⟩
      rw [Nat.div_lt_iff_lt_mul hsize] at hi hj
      exact ⟨⟨by omega, hdrawn⟩, hon⟩
    · rintro ⟨⟨⟨hx, hx', hy, hy'⟩, hdrawn⟩, hon⟩
      have hsize : 0 < size := by omega
      refine ⟨(d.x - x).toNat / size, ?_, (d.y - y).toNat / size, ?_, hdrawn, hsize, ⟨hx, rfl⟩, ⟨hy, rfl⟩, hon⟩
      · rw [Nat.div_lt_iff_lt_mul hsize]; omega
      · rw [Nat.div_lt_iff_lt_mul hsize]; omega

/-- A glyph that may not be written whole has a write outside the buffer, in unchecked mode. -/
theorem glyphPaint_unchecked {s : State} {x y : Int} {c : Nat} {fg bg : Bool} {size : Nat}
    (h : ¬ glyphClean s x y c fg bg size) :
    paint s.params s.pixelSafe (glyphDots s.params s.font x y c fg bg size) s.fb = .error .pixelRange := by
  obtain ⟨hunchecked, hwrites⟩ := not_or.1 h
  push Not at hwrites
  obtain ⟨a, b, hwrite, hout⟩ := hwrites
  rw [Bool.eq_false_iff.2 hunchecked]
  exact paint_unchecked _ _ _
    ⟨⟨a, b, glyphOn s.font x y c fg bg size a b⟩, (mem_glyphDots ..).2 ⟨hwrite, rfl⟩, Bool.eq_false_iff.2 hout⟩

/-- A glyph of size 0 writes no pixel, so all its writes go through. -/
theorem size_ne_zero_of_not_glyphClean {s : State} {x y : Int} {c : Nat} {fg bg : Bool} {size : Nat}
    (h : ¬ glyphClean s x y c fg bg size) : size ≠ 0 := by
  rintro rfl
  refine h (.inr fun a b hwrite => ?_)
  simp only [glyphWrites, Bool.and_eq_true, decide_eq_true_eq] at hwrite
  omega

/-! ## DRAWCHAR and WRITECHAR -/

theorem bits_one_beq_one (w : Word) : (bits 1 w == 1) = w.getLsbD 0 := by
  have hbit : bits 1 w = (w.getLsbD 0).toNat := by
    rw [BitVec.getLsbD, Nat.toNat_testBit]
    simp [bits]
  rw [hbit]
  cases w.getLsbD 0 <;> rfl

theorem exec_drawchar_of_operands {c : Colour} {ink : Bool} {s : State} (hc : inkOf c = some ink)
    (hsize : u8 (s.arg 4) ≠ 0) :
    exec (.drawchar c) s = concludeFb s (paint s.params s.pixelSafe
      (glyphDots s.params s.font (s16 (s.arg 0)) (s16 (s.arg 1)) (u8 (s.arg 2)) ink ((s.arg 3).getLsbD 0)
        (u8 (s.arg 4))) s.fb) := by
  rw [← bits_one_beq_one]
  exact (withInk_of_ink c s _ ink hc).trans (if_neg hsize)

theorem exec_writechar_of_glyph {s : State} (hfeed : u8 (s.arg 0) ≠ 0x0A) (hreturn : u8 (s.arg 0) ≠ 0x0D) :
    exec .writechar s = writeGlyph (u8 (s.arg 0)) s :=
  (if_neg hfeed).trans (if_neg hreturn)

/-- Settles O28: the first write outside the buffer ends the painting, of a shape as of a glyph. -/
theorem uncheckedWriteUndefined : Obligations.UncheckedWriteUndefined := by
  intro c ink s hc hunchecked fails
  have hfails {i : Instr} (hrun : exec i s = .next (raiseUndefined .pixelRange s)) : fails i :=
    ⟨_, hrun, raiseUndefined_keeps .pixelRange s⟩
  refine ⟨fun i pts hpts hout => ?_, fun hglyph => ?_, fun hfeed hreturn hglyph => ?_⟩
  · exact hfails (exec_shape_unchecked hc hpts hunchecked hout)
  · have hsize := size_ne_zero_of_not_glyphClean hglyph
    exact hfails (by rw [exec_drawchar_of_operands hc hsize, glyphPaint_unchecked hglyph, concludeFb_error])
  · exact hfails ((exec_writechar_of_glyph hfeed hreturn).trans (writeGlyph_error (glyphPaint_unchecked hglyph)))

end Sys2Proof.Machine
end

section
/-! PROOFS of 40_framebuffer.md R103 and R111, 44_sprite_aligned.md R181, 45_sprite_unaligned.md R211 and 47_affine.md
R270: the commands that draw inside the buffer in both CONFIG modes. -/

namespace Sys2Proof.Machine

/-! ## Running with another CONFIG -/

/-- The state with its CONFIG register replaced. -/
def State.withConfig (s : State) (v : Word) : State := { s with config := v }

/-- The runs `a` and `b` answer the same next state but for CONFIG, which `b` leaves at `v`. -/
def SameButConfig (v : Word) (a b : StepResult) : Prop := ∃ t, a = .next t ∧ b = .next (t.withConfig v)

theorem SameButConfig.agree {v : Word} {a b : StepResult} (h : SameButConfig v a b) :
    Agree a b fun t => { t with config := v } := by
  obtain ⟨t, ha, hb⟩ := h
  exact ⟨t, t.withConfig v, ha, hb, rfl, fun _ => rfl⟩

theorem sameButConfig_done (t : State) (v : Word) :
    SameButConfig v (.next (finishDone t)) (.next (finishDone (t.withConfig v))) := ⟨_, rfl, rfl⟩

theorem sameButConfig_err (e : ErrCode) (s : State) (v : Word) :
    SameButConfig v (.next (raiseErr e s)) (.next (raiseErr e (s.withConfig v))) := ⟨_, rfl, rfl⟩

theorem sameButConfig_concludeFb (s : State) (v : Word) (result : Except Undefined Memory) :
    SameButConfig v (concludeFb s result) (concludeFb (s.withConfig v) result) := by
  cases result with
  | ok fb => exact sameButConfig_done { s with fb := fb } v
  | error r => exact ⟨raiseUndefined r s, rfl, rfl⟩

theorem sameButConfig_withInk {c : Colour} {s : State} {v : Word} {f g : Bool → StepResult}
    (h : ∀ ink, SameButConfig v (f ink) (g ink)) : SameButConfig v (withInk c s f) (withInk c (s.withConfig v) g) := by
  cases c with
  | black => exact h false
  | white => exact h true
  | invert => exact sameButConfig_err .reservedField s v

theorem sameButConfig_ite {P : Prop} [Decidable P] {v : Word} {a b a' b' : StepResult} (h : SameButConfig v a a')
    (h' : SameButConfig v b b') : SameButConfig v (if P then a else b) (if P then a' else b') := by
  split
  · exact h
  · exact h'

theorem sameButConfig_drawUnless (null : Prop) [Decidable null] (s : State) (v : Word)
    (result : Except Undefined Memory) :
    SameButConfig v (if null then .next (finishDone s) else concludeFb s result)
      (if null then .next (finishDone (s.withConfig v)) else concludeFb (s.withConfig v) result) :=
  sameButConfig_ite (sameButConfig_done s v) (sameButConfig_concludeFb s v result)

/-! ## Shapes inside the buffer -/

/-- CONFIG.PIXEL_SAFE decides only about writes outside the buffer (40_framebuffer.md R100). -/
theorem pixelWrite_mode {p : Params} {d : Dot} (safe safe' : Bool) (fb : Memory) (h : inBuffer p d.x d.y = true) :
    pixelWrite p safe fb d = pixelWrite p safe' fb d := by
  rw [pixelWrite, pixelWrite, if_pos h, if_pos h]

theorem paint_mode {p : Params} {ds : List Dot} (safe safe' : Bool) (fb : Memory)
    (h : ∀ d ∈ ds, inBuffer p d.x d.y = true) : paint p safe ds fb = paint p safe' ds fb := by
  induction ds generalizing fb with
  | nil => rfl
  | cons d ds ih =>
    obtain ⟨hd, hds⟩ := List.forall_mem_cons.1 h
    rw [paint_cons, paint_cons, pixelWrite_mode safe safe' fb hd]
    cases pixelWrite p safe' fb d with
    | ok fb' => exact ih fb' hds
    | error r => rfl

theorem shape_withConfig {i : Instr} {s : State} {c : Colour} {pts : List Point}
    (hpts : shapePoints s i = some (c, pts)) (h : ∀ q ∈ pts, inBuffer s.params q.1 q.2 = true) (v : Word) :
    SameButConfig v (exec i s) (exec i (s.withConfig v)) := by
  have hpts' : shapePoints (s.withConfig v) i = some (c, pts) := by
    cases i <;> exact hpts
  rw [exec_shape hpts, exec_shape hpts']
  refine sameButConfig_withInk fun ink => ?_
  have hmode := paint_mode s.pixelSafe (s.withConfig v).pixelSafe s.fb (inked_inBuffer ink h)
  unfold drawPoints
  rw [hmode]
  exact sameButConfig_concludeFb s v _

theorem fillRoundRectPoints_inBuffer (p : Params) (x y w h : Int) (r : Nat) (q : Point)
    (hq : q ∈ fillRoundRectPoints p x y w h r) : inBuffer p q.1 q.2 = true := by
  unfold fillRoundRectPoints at hq
  simp only [List.mem_append] at hq
  rcases hq with (hbody | hright) | hleft
  · exact fillRectPoints_inBuffer _ _ _ _ _ q hbody
  · exact halfPoints_inBuffer _ _ _ _ _ _ q hright
  · exact halfPoints_inBuffer _ _ _ _ _ _ q hleft

theorem scanlines_inBuffer (p : Params) (ea eb : Edge) (n : Nat) (y sa sb : Int) (q : Point)
    (hq : q ∈ scanlines p ea eb n y sa sb) : inBuffer p q.1 q.2 = true := by
  induction n generalizing y sa sb with
  | zero => cases hq
  | succ n ih =>
    rcases List.mem_append.1 hq with hrow | hrest
    · exact hspan_inBuffer _ _ _ _ q hrow
    · exact ih _ _ _ hrest

theorem triFillPoints_inBuffer (p : Params) (v0 v1 v2 : Point) (q : Point) (hq : q ∈ triFillPoints p v0 v1 v2) :
    inBuffer p q.1 q.2 = true := by
  unfold triFillPoints triFillSorted at hq
  dsimp only at hq
  split at hq
  · exact hspan_inBuffer _ _ _ _ q hq
  · rcases List.mem_append.1 hq with hupper | hlower
    · exact scanlines_inBuffer _ _ _ _ _ _ _ q hupper
    · exact scanlines_inBuffer _ _ _ _ _ _ _ q hlower

/-! ## The commands that read no CONFIG -/

theorem execFill_withConfig (c : Colour) (s : State) (v : Word) :
    SameButConfig v (execFill c s) (execFill c (s.withConfig v)) :=
  sameButConfig_withInk fun ink => sameButConfig_done { s with fb := filled s.params ink } v

theorem execBitmap_withConfig (c : Colour) (s : State) (v : Word) :
    SameButConfig v (execBitmap c s) (execBitmap c (s.withConfig v)) :=
  sameButConfig_drawUnless _ s v _

theorem execDrawcomp_withConfig (c : Colour) (s : State) (v : Word) :
    SameButConfig v (execDrawcomp c s) (execDrawcomp c (s.withConfig v)) :=
  sameButConfig_withInk fun col => sameButConfig_drawUnless _ s v (drawCompressed s col _ _ _)

theorem execSprite_withConfig (m : DrawMode) (s : State) (v : Word) :
    SameButConfig v (execSprite m s) (execSprite m (s.withConfig v)) :=
  sameButConfig_ite (sameButConfig_done s v)
    (sameButConfig_ite (sameButConfig_err .nullMask s v) (sameButConfig_concludeFb s v _))

theorem execDrawrot_withConfig (m : DrawMode) (s : State) (v : Word) :
    SameButConfig v (execDrawrot m s) (execDrawrot m (s.withConfig v)) := by
  cases m with
  | unmasked | selfmask => exact sameButConfig_drawUnless _ s v _
  | erasemask | masked | plusmask | autodetect => exact sameButConfig_err .unsupportedMode s v

/-- Settles O9: NOP, FILL, GETPIX, the blits, the decoder and the rotation compute without CONFIG, and what is built
from spans writes inside the buffer alone. -/
theorem configIndependence : Obligations.ConfigIndependence := by
  intro c m i s v hi
  refine SameButConfig.agree (?_ : SameButConfig v (exec i s) (exec i (s.withConfig v)))
  revert i
  simp only [List.forall_mem_cons]
  exact ⟨sameButConfig_done s v, execFill_withConfig c s v, ⟨_, rfl, rfl⟩,
    shape_withConfig rfl (hspan_inBuffer _ _ _ _) v,
    shape_withConfig rfl (vspan_inBuffer _ _ _ _) v,
    shape_withConfig rfl (discPoints_inBuffer _ _ _ _) v,
    shape_withConfig rfl (halfPoints_inBuffer _ _ _ _ _ _) v,
    shape_withConfig rfl (rectPoints_inBuffer _ _ _ _ _) v,
    shape_withConfig rfl (fillRectPoints_inBuffer _ _ _ _ _) v,
    shape_withConfig rfl (fillRoundRectPoints_inBuffer _ _ _ _ _ _) v,
    shape_withConfig rfl (triFillPoints_inBuffer _ _ _ _) v,
    execBitmap_withConfig c s v, execSprite_withConfig m s v, execDrawcomp_withConfig c s v,
    ⟨_, rfl, rfl⟩, execDrawrot_withConfig m s v, nofun⟩

end Sys2Proof.Machine
end

section
/-! PROOFS of 41_line.md R130 and R131: the line between two points in closed form, the same line from either end, and
the command that paints it. -/

namespace Sys2Proof.Machine

/-! ## A line rasterized from its other end -/

/-- Each order of the endpoints is put left to right, and endpoints in one column are the same point. -/
theorem lineTransposed_swap (steep : Bool) {x0 y0 x1 y1 : Int} (hgentle : (y1 - y0).natAbs ≤ (x1 - x0).natAbs) :
    lineTransposed steep x1 y1 x0 y0 = lineTransposed steep x0 y0 x1 y1 := by
  unfold lineTransposed
  rcases lt_trichotomy x0 x1 with hlt | rfl | hgt
  · rw [if_pos hlt, if_neg (by omega)]
  · obtain rfl : y0 = y1 := by omega
    rfl
  · rw [if_neg (by omega), if_pos hgt]

/-- From either end the line is the same list of points, in the same order. -/
theorem linePoints_swap (x0 y0 x1 y1 : Int) : linePoints x1 y1 x0 y0 = linePoints x0 y0 x1 y1 := by
  unfold linePoints
  rw [← Int.natAbs_neg (y0 - y1), neg_sub, ← Int.natAbs_neg (x0 - x1), neg_sub]
  split
  case isTrue hsteep => exact lineTransposed_swap true (by omega)
  case isFalse hgentle => exact lineTransposed_swap false (by omega)

/-- Two sets of ARG registers that give a shape the same points run it alike. -/
theorem shape_samePoints {i : Instr} {s : State} {B : Vector Word 8} {c : Colour} {pts : List Point}
    (hpts : shapePoints s i = some (c, pts)) (hpts' : shapePoints (s.withArgs B) i = some (c, pts)) :
    SameButArgs B (exec i s) (exec i (s.withArgs B)) := by
  rw [exec_shape hpts, exec_shape hpts']
  exact sameButArgs_withInk fun ink => sameButArgs_concludeFb s B (paint s.params s.pixelSafe (inked ink pts) s.fb)

/-- Settles O17: the swapped operands give the same list of points. -/
theorem lineSwapEndpoints : Obligations.LineSwapEndpoints := by
  intro c s A B h0 h1 h2 h3
  refine (shape_samePoints (i := .line c) (s := { s with args := A }) (B := B) rfl ?_).agree
  change some (c, linePoints (s16 B[0]) (s16 B[1]) (s16 B[2]) (s16 B[3])) =
    some (c, linePoints (s16 A[0]) (s16 A[1]) (s16 A[2]) (s16 A[3]))
  rw [h0, h1, h2, h3, linePoints_swap]

/-! ## How far the line has moved along its minor axis -/

/-- How far a line `dx` long and `dy` high has moved along its minor axis after `k` steps (41_line.md R130). -/
def lineShift (dx dy k : Int) : Int := -((dx / 2 - k * dy) / dx)

/-- The closed form by the shift of its column. -/
theorem onOrderedLine_iff (x0 y0 x1 y1 a b : Int) :
    onOrderedLine x0 y0 x1 y1 a b ↔ x0 ≤ a ∧ a ≤ x1 ∧
      b = y0 + (if y0 < y1 then 1 else -1) * lineShift (x1 - x0) |y1 - y0| (a - x0) := Iff.rfl

theorem lineShift_start {dx : Int} (dy : Int) (hdx : 0 ≤ dx) : lineShift dx dy 0 = 0 := by
  rcases hdx.eq_or_lt with rfl | hpos
  · simp [lineShift]
  · rw [lineShift, zero_mul, sub_zero, Int.ediv_eq_zero_of_lt (by omega) (by omega), neg_zero]

theorem lineShift_end {dx : Int} (dy : Int) (hdx : 0 < dx) : lineShift dx dy dx = dy := by
  rw [lineShift, Int.sub_mul_ediv_left _ _ hdx.ne', Int.ediv_eq_zero_of_lt (by omega) (by omega), zero_sub, neg_neg]

theorem lineShift_mono {dx dy k l : Int} (hdx : 0 < dx) (hdy : 0 ≤ dy) (hkl : k ≤ l) :
    lineShift dx dy k ≤ lineShift dx dy l := by
  have hrest : dx / 2 - l * dy ≤ dx / 2 - k * dy := sub_le_sub_left (mul_le_mul_of_nonneg_right hkl hdy) _
  exact neg_le_neg (Int.ediv_le_ediv hdx hrest)

/-- Between the endpoints the minor coordinate lies between theirs. -/
theorem lineShift_bounds {dx dy k : Int} (hdy : 0 ≤ dy) (hk : 0 ≤ k) (hkdx : k ≤ dx) :
    0 ≤ lineShift dx dy k ∧ lineShift dx dy k ≤ dy := by
  rcases (hk.trans hkdx).eq_or_lt with rfl | hpos
  · obtain rfl : k = 0 := by omega
    rw [lineShift_start dy le_rfl]
    exact ⟨le_rfl, hdy⟩
  · have hstart := lineShift_mono hpos hdy hk
    have hend := lineShift_mono hpos hdy hkdx
    rw [lineShift_start dy hpos.le] at hstart
    rw [lineShift_end dy hpos] at hend
    exact ⟨hstart, hend⟩

/-! ## The line in closed form -/

/-- The point at `a` on the major axis and `b` on the minor axis of a line. -/
def oriented (steep : Bool) (a b : Int) : Point := if steep then (b, a) else (a, b)

theorem oriented_inj {steep : Bool} {a b a' b' : Int} :
    oriented steep a b = oriented steep a' b' ↔ a = a' ∧ b = b' := by
  cases steep with
  | false => simp [oriented]
  | true => simp [oriented, and_comm]

/-- The walk from the lesser endpoint with the error term at half the length. -/
theorem mem_lineOrdered (steep : Bool) {x0 y0 x1 y1 : Int} (hle : x0 ≤ x1) (hgentle : (y1 - y0).natAbs ≤ x1 - x0)
    (a b : Int) : oriented steep a b ∈ lineOrdered steep x0 y0 x1 y1 ↔ onOrderedLine x0 y0 x1 y1 a b := by
  rcases hle.eq_or_lt with rfl | hlt
  · obtain rfl : y1 = y0 := by omega
    have hpoint : lineOrdered steep x0 y1 x0 y1 = [oriented steep x0 y1] := by
      simp [lineOrdered, lineWalk, oriented]
    rw [hpoint, List.mem_singleton, oriented_inj]
    simp only [onOrderedLine, sub_self, Int.ediv_zero, neg_zero, mul_zero, add_zero]
    omega
  · have hwalk := mem_lineWalk steep (x1 - x0) (y1 - y0).natAbs (if y0 < y1 then 1 else -1) (by omega) (by omega)
      hgentle ((x1 - x0).toNat + 1) x0 y0 ((x1 - x0) / 2) (oriented steep a b) (by omega) (by omega)
    rw [onOrderedLine, Int.abs_eq_natAbs]
    refine hwalk.trans ⟨?_, ?_⟩
    · rintro ⟨k, hk, hpoint⟩
      obtain ⟨rfl, rfl⟩ := oriented_inj.1 hpoint
      exact ⟨by omega, by omega, by rw [add_sub_cancel_left]⟩
    · rintro ⟨ha, ha', rfl⟩
      refine ⟨(a - x0).toNat, by omega, oriented_inj.2 ⟨by omega, ?_⟩⟩
      rw [Int.toNat_of_nonneg (by omega)]

theorem mem_lineTransposed (steep : Bool) {x0 y0 x1 y1 : Int} (hgentle : (y1 - y0).natAbs ≤ (x1 - x0).natAbs)
    (a b : Int) :
    oriented steep a b ∈ lineTransposed steep x0 y0 x1 y1 ↔ onGentleLine x0 y0 x1 y1 a b := by
  unfold lineTransposed onGentleLine
  rcases le_or_gt x0 x1 with hle | hgt
  · rw [if_neg (not_lt.2 hle), if_pos hle]
    exact mem_lineOrdered steep hle (by omega) a b
  · rw [if_pos hgt, if_neg (not_le.2 hgt)]
    exact mem_lineOrdered steep hgt.le (by omega) a b

/-- The points of LINE are those of its closed form. -/
theorem mem_linePoints (x0 y0 x1 y1 a b : Int) : (a, b) ∈ linePoints x0 y0 x1 y1 ↔ onLine x0 y0 x1 y1 a b := by
  unfold linePoints onLine
  simp only [Int.abs_eq_natAbs, gt_iff_lt, Int.ofNat_lt]
  split
  case isTrue hsteep => exact mem_lineTransposed true (by omega) b a
  case isFalse hgentle => exact mem_lineTransposed false (by omega) a b

/-! ## The line lies in the box of its endpoints -/

theorem onOrderedLine_between {x0 y0 x1 y1 a b : Int} (h : onOrderedLine x0 y0 x1 y1 a b) :
    a ∈ Set.uIcc x0 x1 ∧ b ∈ Set.uIcc y0 y1 := by
  obtain ⟨ha, ha', hb⟩ := (onOrderedLine_iff ..).1 h
  obtain ⟨hlow, hhigh⟩ := lineShift_bounds (abs_nonneg (y1 - y0)) (sub_nonneg.2 ha) (sub_le_sub_right ha' x0)
  rw [Int.abs_eq_natAbs] at hb hlow hhigh
  rw [Set.mem_uIcc, Set.mem_uIcc]
  refine ⟨.inl ⟨ha, ha'⟩, ?_⟩
  split at hb <;> omega

theorem onGentleLine_between {x0 y0 x1 y1 a b : Int} (h : onGentleLine x0 y0 x1 y1 a b) :
    a ∈ Set.uIcc x0 x1 ∧ b ∈ Set.uIcc y0 y1 := by
  unfold onGentleLine at h
  split at h
  · exact onOrderedLine_between h
  · rw [Set.uIcc_comm x0, Set.uIcc_comm y0]
    exact onOrderedLine_between h

theorem onLine_between {x0 y0 x1 y1 a b : Int} (h : onLine x0 y0 x1 y1 a b) :
    a ∈ Set.uIcc x0 x1 ∧ b ∈ Set.uIcc y0 y1 := by
  unfold onLine at h
  split at h
  · exact (onGentleLine_between h).symm
  · exact onGentleLine_between h

/-- The buffer is a box, so a line with both endpoints in it does not leave it. -/
theorem linePoints_inBuffer {p : Params} {x0 y0 x1 y1 : Int} (h0 : inBuffer p x0 y0 = true)
    (h1 : inBuffer p x1 y1 = true) : ∀ q ∈ linePoints x0 y0 x1 y1, inBuffer p q.1 q.2 = true := by
  rintro ⟨a, b⟩ hq
  have hbox := onLine_between ((mem_linePoints ..).1 hq)
  rw [Set.mem_uIcc, Set.mem_uIcc] at hbox
  rw [inBuffer_iff] at h0 h1 ⊢
  dsimp only
  omega

/-- Settles O16: the points drawn are those of the closed form, and lie between the endpoints. -/
theorem linePaints : Obligations.LinePaints := by
  intro c ink s hc x0 y0 x1 y1 hclean
  refine exec_shape_paints (i := .line c) hc rfl (hclean.imp_right ?_) fun a b _ => mem_linePoints x0 y0 x1 y1 a b
  exact fun hends => linePoints_inBuffer hends.1 hends.2

/-! ## How many points the line has -/

/-- One step of the walk per unit of the major axis. -/
theorem length_lineOrdered (steep : Bool) (x0 y0 x1 y1 : Int) :
    (lineOrdered steep x0 y0 x1 y1).length = (x1 - x0).toNat + 1 :=
  length_lineWalk ..

theorem length_lineTransposed (steep : Bool) (x0 y0 x1 y1 : Int) :
    ((lineTransposed steep x0 y0 x1 y1).length : Int) = |x1 - x0| + 1 := by
  unfold lineTransposed
  rw [Int.abs_eq_natAbs]
  split <;> rw [length_lineOrdered] <;> omega

theorem length_linePoints (x0 y0 x1 y1 : Int) :
    ((linePoints x0 y0 x1 y1).length : Int) = max |x1 - x0| |y1 - y0| + 1 := by
  unfold linePoints
  split <;> rw [length_lineTransposed, Int.abs_eq_natAbs, Int.abs_eq_natAbs] <;> omega

/-- Where a point of a line stands on its major axis. -/
def majorCoord (steep : Bool) (q : Point) : Int := if steep then q.2 else q.1

theorem majorCoord_oriented (steep : Bool) (a b : Int) : majorCoord steep (oriented steep a b) = a := by
  cases steep <;> rfl

theorem lineWalk_succ (steep : Bool) (dx dy ystep : Int) (n : Nat) (x y err : Int) :
    lineWalk steep dx dy ystep (n + 1) x y err =
      oriented steep x y ::
        if err - dy < 0 then lineWalk steep dx dy ystep n (x + 1) (y + ystep) (err - dy + dx)
        else lineWalk steep dx dy ystep n (x + 1) y (err - dy) := rfl

/-- The major coordinate counts up from the start of the walk. -/
theorem map_majorCoord_lineWalk (steep : Bool) (dx dy ystep : Int) (n : Nat) (x y err : Int) :
    (lineWalk steep dx dy ystep n x y err).map (majorCoord steep) = (List.range n).map fun k : Nat => x + (k : Int) := by
  induction n generalizing x y err with
  | zero => rfl
  | succ n ih =>
    have hrange : (List.range (n + 1)).map (fun k : Nat => x + (k : Int)) =
        x :: (List.range n).map fun k : Nat => x + 1 + (k : Int) := by
      simp [List.range_succ_eq_map, add_assoc, add_comm (1 : Int)]
    rw [hrange, lineWalk_succ, List.map_cons, majorCoord_oriented]
    split <;> rw [ih]

theorem nodup_lineWalk (steep : Bool) (dx dy ystep : Int) (n : Nat) (x y err : Int) :
    (lineWalk steep dx dy ystep n x y err).Nodup := by
  refine List.Nodup.of_map (majorCoord steep) ?_
  rw [map_majorCoord_lineWalk]
  exact List.nodup_range.map fun k l h => by simpa using h

theorem nodup_linePoints (x0 y0 x1 y1 : Int) : (linePoints x0 y0 x1 y1).Nodup := by
  unfold linePoints lineTransposed
  split <;> split <;> exact nodup_lineWalk ..

/-! ## The endpoints of the line -/

theorem onOrderedLine_left {x0 y0 x1 y1 : Int} (hle : x0 ≤ x1) : onOrderedLine x0 y0 x1 y1 x0 y0 := by
  refine (onOrderedLine_iff ..).2 ⟨le_rfl, hle, ?_⟩
  rw [sub_self, lineShift_start _ (sub_nonneg.2 hle), mul_zero, add_zero]

theorem onOrderedLine_right {x0 y0 x1 y1 : Int} (hlt : x0 < x1) : onOrderedLine x0 y0 x1 y1 x1 y1 := by
  refine (onOrderedLine_iff ..).2 ⟨hlt.le, le_rfl, ?_⟩
  rw [lineShift_end _ (sub_pos.2 hlt), Int.abs_eq_natAbs]
  split <;> omega

theorem onGentleLine_start (x0 y0 x1 y1 : Int) : onGentleLine x0 y0 x1 y1 x0 y0 := by
  unfold onGentleLine
  split
  case isTrue hle => exact onOrderedLine_left hle
  case isFalse hgt => exact onOrderedLine_right (not_le.1 hgt)

theorem onLine_start (x0 y0 x1 y1 : Int) : onLine x0 y0 x1 y1 x0 y0 := by
  unfold onLine
  split <;> exact onGentleLine_start ..

/-- Settles O18: the major coordinate of the walk counts its steps, and the line starts from either endpoint. -/
theorem linePointCount : Obligations.LinePointCount := by
  intro x0 y0 x1 y1
  refine ⟨length_linePoints x0 y0 x1 y1, nodup_linePoints x0 y0 x1 y1, ?_, ?_⟩
  · exact (mem_linePoints ..).2 (onLine_start x0 y0 x1 y1)
  · rw [← linePoints_swap]
    exact (mem_linePoints ..).2 (onLine_start x1 y1 x0 y0)

end Sys2Proof.Machine
end

section
/-! PROOFS of 42_circle.md R140 to R146: where the midpoint steps lie, the circles, arcs, discs and halves the commands
paint, and the circle inside its disc. -/

namespace Sys2Proof.Machine

/-! ## The midpoint steps by their decision variable -/

/-- The decision variable `f` of 42_circle.md R140 at the point `q`: (x + 1)² + (y - 1/2)² - r², less the quarter. -/
def midpointDecision (r : Nat) (q : Point) : Int := (q.1 + 1) * (q.1 + 1) + q.2 * q.2 - q.2 - r * r

/-- The step from `q`: one column on, and one row down where the decision variable asks for it. -/
def midpointNext (r : Nat) (q : Point) : Point :=
  if 0 ≤ midpointDecision r q then (q.1 + 1, q.2 - 1) else (q.1 + 1, q.2)

/-- The loop of 42_circle.md R140 at the point `q`, its three variables given by the point. -/
def midpointFrom (r n : Nat) (q : Point) : List Point :=
  midpointWalk n (midpointDecision r q) (2 * q.1 + 1) (-2 * q.2) q.1 q.2

theorem midpointNext_fst (r : Nat) (q : Point) : (midpointNext r q).1 = q.1 + 1 := by
  unfold midpointNext
  split <;> rfl

theorem midpointSteps_eq_from (r : Nat) : midpointSteps r = midpointFrom r r (0, r) := by
  have hstart : midpointDecision r (0, r) = 1 - r := by unfold midpointDecision; ring
  rw [midpointFrom, hstart]
  rfl

/-- The loop's updates of its variables are those of the point. -/
theorem midpointFrom_succ (r n : Nat) (q : Point) :
    midpointFrom r (n + 1) q =
      if q.1 < q.2 then midpointNext r q :: midpointFrom r n (midpointNext r q) else [] := by
  obtain ⟨x, y⟩ := q
  unfold midpointFrom midpointNext
  rw [midpointWalk]
  split
  case isFalse => rfl
  case isTrue => split <;> congr 2 <;> simp only [midpointDecision] <;> ring

/-- Each step is one column further. -/
theorem midpointFrom_getElem?_fst {r : Nat} (k n : Nat) (q p : Point) (hp : (midpointFrom r k q)[n]? = some p) :
    p.1 = q.1 + n + 1 := by
  induction k generalizing n q with
  | zero => cases hp
  | succ k ih =>
    rw [midpointFrom_succ] at hp
    split at hp
    case isFalse => cases hp
    case isTrue =>
      cases n with
      | zero =>
        obtain rfl : midpointNext r q = p := Option.some.inj hp
        rw [midpointNext_fst, Nat.cast_zero, add_zero]
      | succ n =>
        have htail := ih n (midpointNext r q) hp
        rw [midpointNext_fst] at htail
        push_cast
        omega

/-! ## The midpoint steps lie on the circle -/

/-- The invariant of the loop: while it goes on, the decision variable is small enough that the next step stays within
the rounding. -/
def MidpointWindow (r : Nat) (q : Point) : Prop :=
  q.1 < q.2 → -2 * q.2 ≤ midpointDecision r q ∧ midpointDecision r q ≤ 2 * q.1

/-- On the circle up to rounding: |x² + y² - r²| <= y. -/
def NearCircle (r : Nat) (q : Point) : Prop :=
  q.1 * q.1 + q.2 * q.2 - r * r ≤ q.2 ∧ r * r - (q.1 * q.1 + q.2 * q.2) ≤ q.2

theorem midpointWindow_start (r : Nat) : MidpointWindow r (0, r) := by
  have hstart : midpointDecision r (0, r) = 1 - r := by unfold midpointDecision; ring
  intro hlt
  rw [hstart]
  dsimp only at hlt ⊢
  omega

/-- After a step one row down: how far the point lies from the circle, and its decision variable. -/
theorem midpointDecision_down (r : Nat) (x y : Int) :
    (x + 1) * (x + 1) + (y - 1) * (y - 1) - r * r = midpointDecision r (x, y) - (y - 1) ∧
      midpointDecision r (x + 1, y - 1) = midpointDecision r (x, y) - 2 * y + 2 * x + 5 := by
  unfold midpointDecision
  constructor <;> ring

/-- After a step along the row: how far the point lies from the circle, and its decision variable. -/
theorem midpointDecision_level (r : Nat) (x y : Int) :
    (x + 1) * (x + 1) + y * y - r * r = midpointDecision r (x, y) + y ∧
      midpointDecision r (x + 1, y) = midpointDecision r (x, y) + 2 * x + 3 := by
  unfold midpointDecision
  constructor <;> ring

/-- A step keeps the invariant, and by it lies on the circle. -/
theorem MidpointWindow.next {r : Nat} {q : Point} (h : MidpointWindow r q) (hx : 0 ≤ q.1) (hlt : q.1 < q.2) :
    MidpointWindow r (midpointNext r q) ∧ NearCircle r (midpointNext r q) := by
  obtain ⟨x, y⟩ := q
  obtain ⟨hlow, hhigh⟩ := h hlt
  unfold midpointNext MidpointWindow NearCircle
  split
  case isTrue hdown =>
    obtain ⟨hnear, hdecision⟩ := midpointDecision_down r x y
    dsimp only at hx hlt hlow hhigh ⊢
    omega
  case isFalse hlevel =>
    obtain ⟨hnear, hdecision⟩ := midpointDecision_level r x y
    dsimp only at hx hlt hlow hhigh ⊢
    omega

theorem midpointFrom_nearCircle {r : Nat} (k : Nat) (q p : Point) (h : MidpointWindow r q) (hx : 0 ≤ q.1)
    (hp : p ∈ midpointFrom r k q) : NearCircle r p := by
  induction k generalizing q with
  | zero => cases hp
  | succ k ih =>
    rw [midpointFrom_succ] at hp
    split at hp
    case isFalse => cases hp
    case isTrue hlt =>
      obtain ⟨hwindow, hnear⟩ := h.next hx hlt
      rcases List.mem_cons.1 hp with rfl | htail
      · exact hnear
      · exact ih (midpointNext r q) hwindow (by rw [midpointNext_fst]; omega) htail

theorem midpointSteps_nearCircle (r : Nat) (p : Point) (hp : p ∈ midpointSteps r) : NearCircle r p :=
  midpointFrom_nearCircle r (0, r) p (midpointWindow_start r) le_rfl (midpointSteps_eq_from r ▸ hp)

theorem midpointSteps_getElem?_fst {r n : Nat} {p : Point} (hp : (midpointSteps r)[n]? = some p) :
    p.1 = n + 1 := by
  rw [midpointSteps_eq_from] at hp
  have hcolumn := midpointFrom_getElem?_fst r n (0, r) p hp
  rwa [zero_add] at hcolumn

/-- From radius 2 on no step touches an axis: it would be (1, 0), too far inside the circle. -/
theorem midpointSteps_offAxis {r : Nat} (hr : 2 ≤ r) (p : Point) (hp : p ∈ midpointSteps r) : 1 ≤ p.2 := by
  obtain ⟨hx1, -, hy0, -, hoctant⟩ := midpointSteps_bounds r p hp
  obtain ⟨-, hinside⟩ := midpointSteps_nearCircle r p hp
  by_contra hneg
  have hy : p.2 = 0 := by omega
  have hx : p.1 = 1 := by omega
  rw [hx, hy] at hinside
  have hsquare : (2 : Int) * 2 ≤ r * r := by exact_mod_cast Nat.mul_le_mul hr hr
  omega

/-- Settles O19, by the loop invariant `MidpointWindow`. -/
theorem midpointStepsOnCircle : Obligations.MidpointStepsOnCircle := by
  intro r n x y hget
  have hmem : (x, y) ∈ midpointSteps r := List.mem_of_getElem? hget
  obtain ⟨-, -, hy0, hyr, hoctant⟩ := midpointSteps_bounds r (x, y) hmem
  obtain ⟨houtside, hinside⟩ := midpointSteps_nearCircle r (x, y) hmem
  exact ⟨midpointSteps_getElem?_fst hget, hoctant, hy0, hyr, fun hr => midpointSteps_offAxis hr (x, y) hmem,
    houtside, hinside⟩

/-! ## The circle commands -/

section
variable {c : Colour} {ink : Bool} {s : State} (hc : inkOf c = some ink)
include hc

theorem circle_paints (hclean : s.pixelSafe = true ∨
      ∀ a b, onCircle (s16 (s.arg 0)) (s16 (s.arg 1)) (u8 (s.arg 2)) a b → inBuffer s.params a b = true) :
    ∃ t, exec (.circle c) s = .next t ∧
      PaintsExactly s t ink (onCircle (s16 (s.arg 0)) (s16 (s.arg 1)) (u8 (s.arg 2))) := by
  refine exec_shape_paints (i := .circle c) hc rfl (hclean.imp_right fun hin q hq => ?_) fun a b _ =>
    mem_circlePoints _ _ _ a b
  exact hin q.1 q.2 ((mem_circlePoints _ _ _ q.1 q.2).1 hq)

theorem circleq_paints (hclean : s.pixelSafe = true ∨
      ∀ a b, onArcs (s16 (s.arg 0)) (s16 (s.arg 1)) (u8 (s.arg 2)) (bits 4 (s.arg 3)) a b →
        inBuffer s.params a b = true) :
    ∃ t, exec (.circleq c) s = .next t ∧
      PaintsExactly s t ink (onArcs (s16 (s.arg 0)) (s16 (s.arg 1)) (u8 (s.arg 2)) (bits 4 (s.arg 3))) := by
  refine exec_shape_paints (i := .circleq c) hc rfl (hclean.imp_right fun hin q hq => ?_) fun a b _ =>
    mem_arcPoints _ _ _ _ a b
  exact hin q.1 q.2 ((mem_arcPoints _ _ _ _ q.1 q.2).1 hq)

theorem fcircle_paints :
    ∃ t, exec (.fcircle c) s = .next t ∧
      PaintsExactly s t ink (onDisc (s16 (s.arg 0)) (s16 (s.arg 1)) (u8 (s.arg 2))) :=
  exec_shape_paints (i := .fcircle c) hc rfl (.inr (discPoints_inBuffer _ _ _ _)) (mem_discPoints _ _ _ _)

theorem fcircleq_paints :
    ∃ t, exec (.fcircleq c) s = .next t ∧
      PaintsExactly s t ink
        (onHalves (s16 (s.arg 0)) (s16 (s.arg 1)) (u8 (s.arg 2)) (bits 2 (s.arg 3)) (s16 (s.arg 4))) :=
  exec_shape_paints (i := .fcircleq c) hc rfl (.inr (halfPoints_inBuffer _ _ _ _ _ _)) (mem_halfPoints _ _ _ _ _ _)

end

/-- Settles O20: the points drawn are those of the closed forms. -/
theorem circleCommandsPaint : Obligations.CircleCommandsPaint := by
  intro c ink s hc x0 y0 r arcs
  exact ⟨circle_paints hc, circleq_paints hc⟩

/-- Settles O21: every column of a filled circle is clipped before it is drawn, so no CONFIG mode refuses it. -/
theorem filledCircleCommandsPaint : Obligations.FilledCircleCommandsPaint := by
  intro c ink s hc x0 y0 r
  exact ⟨fcircle_paints hc, fcircleq_paints hc⟩

/-! ## The circle inside its disc -/

/-- A point of the circle ends a column of the disc. -/
theorem onDisc_of_onCircle {x0 y0 : Int} {r : Nat} {a b : Int} (h : onCircle x0 y0 r a b) : onDisc x0 y0 r a b := by
  obtain ⟨q, hq, ⟨hx, hy⟩ | ⟨hx, hy⟩⟩ := h
  · exact ⟨q, hq, .inl ⟨hx, hy.le⟩⟩
  · exact ⟨q, hq, .inr ⟨hx, hy.le⟩⟩

/-- No column of the disc is further from the centre than the radius. -/
theorem onDisc_columns {x0 y0 : Int} {r : Nat} {a b : Int} (h : onDisc x0 y0 r a b) : x0 - r ≤ a ∧ a ≤ x0 + r := by
  obtain ⟨q, hq, hcolumn⟩ := h
  have hbounds : q.1 ≤ r ∧ q.2 ≤ r := by
    rcases hq with rfl | hstep
    · exact ⟨Int.natCast_nonneg r, le_rfl⟩
    · obtain ⟨-, hx, -, hy, -⟩ := midpointSteps_bounds r q hstep
      exact ⟨hx, hy⟩
  have hdist : |a - x0| ≤ r := by
    rcases hcolumn with ⟨hx, -⟩ | ⟨hx, -⟩
    · exact hx.trans_le hbounds.1
    · exact hx.trans_le hbounds.2
  rw [abs_le] at hdist
  omega

/-- On a clear buffer the white pixels are those of the shape just painted. -/
theorem PaintsExactly.pixelRead_iff {s t : State} {shape : Int → Int → Prop} (h : PaintsExactly s t true shape)
    (hclear : s.fb = []) {x y : Int} (hin : inBuffer s.params x y = true) :
    pixelRead s.params t.fb x y = true ↔ shape x y := by
  obtain ⟨hset, hkeep⟩ := h.2 (pixelByte s.params x y) (pixelBit y) (pixelBit_lt y)
  refine ⟨fun hwhite => ?_, fun hxy => hset ⟨x, y, hxy, hin, rfl, rfl⟩⟩
  by_contra hnot
  have hdark : s.fbBit (pixelByte s.params x y) (pixelBit y) = false := by
    rw [State.fbBit, hclear, Memory.read_nil]
    exact BitVec.getLsbD_zero
  refine Bool.false_ne_true ((hdark.symm.trans (hkeep ?_).symm).trans hwhite)
  rintro ⟨x', y', hshape, hin', hbyte, hbit⟩
  obtain ⟨rfl, rfl⟩ := pixel_unique s.params x' y' x y hin' hin hbyte hbit
  exact hnot hshape

/-- Settles O22: on the clear buffer the two commands leave the circle and the disc, in closed form. -/
theorem circleInsideDisc : Obligations.CircleInsideDisc := by
  intro s t u hsafe hclear hcircle hfcircle x y hin
  obtain ⟨t', ht', houtline⟩ := circle_paints (c := .white) rfl (.inl hsafe)
  obtain ⟨u', hu', hdisc⟩ := fcircle_paints (c := .white) (s := s) rfl
  obtain rfl : t = t' := Host.Outcome.next.inj (hcircle.symm.trans ht')
  obtain rfl : u = u' := Host.Outcome.next.inj (hfcircle.symm.trans hu')
  rw [houtline.pixelRead_iff hclear hin, hdisc.pixelRead_iff hclear hin]
  exact ⟨onDisc_of_onCircle, onDisc_columns⟩

end Sys2Proof.Machine
end

section
/-! PROOFS of 43_polygon.md R160 to R167: the rectangles, plain, rounded and filled, the outline of a triangle, and the
filled triangle whatever the order of its vertices. -/

namespace Sys2Proof.Machine

/-! ## The plain rectangles -/

/-- Settles O23: the edges and the columns are clipped before they are drawn, so no CONFIG mode refuses them. -/
theorem rectanglesPaint : Obligations.RectanglesPaint := by
  intro c ink s hc x y w h
  constructor
  · exact exec_shape_paints (i := .rect c) hc rfl (.inr (rectPoints_inBuffer _ _ _ _ _)) (mem_rectPoints _ _ _ _ _)
  · exact exec_shape_paints (i := .frect c) hc rfl (.inr (fillRectPoints_inBuffer _ _ _ _ _))
      (mem_fillRectPoints _ _ _ _ _)

/-! ## The rounded rectangles -/

/-- RRECT draws clipped edges, a plain rectangle's shortened by the radius, and the four arcs. -/
theorem mem_roundRectPoints (p : Params) (x y w h : Int) (r : Nat) (a b : Int) :
    (a, b) ∈ roundRectPoints p x y w h r ↔
      (inBuffer p a b = true ∧
        ((x + r ≤ a ∧ a < x + w - r ∧ (b = y ∨ b = y + h - 1)) ∨
          (y + r ≤ b ∧ b < y + h - r ∧ (a = x ∨ a = x + w - 1)))) ∨
        onCorners x y w h r a b := by
  unfold roundRectPoints onCorners
  iterate 4 rw [List.mem_append, mem_arcPoints]
  rw [or_assoc, or_assoc, or_assoc]
  refine or_congr_left ?_
  simp only [List.mem_append, mem_hspan, mem_vspan]
  by_cases hin : inBuffer p a b = true
  · simp only [hin, and_true, true_and]
    omega
  · simp [hin]

/-- In the buffer RRECT's points are those of its closed form. -/
theorem mem_roundRectPoints_inBuffer (p : Params) (x y w h : Int) (r : Nat) (a b : Int) (hin : inBuffer p a b = true) :
    (a, b) ∈ roundRectPoints p x y w h r ↔ onRoundRect x y w h r a b := by
  rw [mem_roundRectPoints, onRoundRect, and_iff_right hin, or_assoc]

/-- Settles O24: the edges are clipped before they are drawn, so only a point of an arc can leave the buffer. -/
theorem roundRectPaints : Obligations.RoundRectPaints := by
  intro c ink s hc x y w h r hclean
  refine exec_shape_paints (i := .rrect c) hc rfl (hclean.imp_right fun hcorners q hq => ?_)
    (mem_roundRectPoints_inBuffer _ _ _ _ _ _)
  rcases (mem_roundRectPoints _ _ _ _ _ _ q.1 q.2).1 hq with ⟨hin, -⟩ | hcorner
  · exact hin
  · exact hcorners q.1 q.2 hcorner

/-- In the buffer FRRECT's points are those of its closed form. -/
theorem mem_fillRoundRectPoints (p : Params) (x y w h : Int) (r : Nat) (a b : Int) (hin : inBuffer p a b = true) :
    (a, b) ∈ fillRoundRectPoints p x y w h r ↔ onFilledRoundRect x y w h r a b := by
  unfold fillRoundRectPoints onFilledRoundRect
  rw [List.mem_append, List.mem_append, mem_fillRectPoints _ _ _ _ _ _ _ hin, mem_halfPoints _ _ _ _ _ _ _ _ hin,
    mem_halfPoints _ _ _ _ _ _ _ _ hin, or_assoc]

/-- Settles O25: the columns of the body and of the ends are clipped before they are drawn. -/
theorem filledRoundRectPaints : Obligations.FilledRoundRectPaints := by
  intro c ink s hc
  exact exec_shape_paints (i := .frrect c) hc rfl (.inr (fillRoundRectPoints_inBuffer _ _ _ _ _ _))
    (mem_fillRoundRectPoints _ _ _ _ _ _)

/-! ## The outline of a triangle -/

theorem mem_triPoints (x0 y0 x1 y1 x2 y2 a b : Int) :
    (a, b) ∈ triPoints x0 y0 x1 y1 x2 y2 ↔
      onLine x0 y0 x1 y1 a b ∨ onLine x1 y1 x2 y2 a b ∨ onLine x2 y2 x0 y0 a b := by
  unfold triPoints
  rw [List.mem_append, List.mem_append, mem_linePoints, mem_linePoints, mem_linePoints, or_assoc]

/-- A triangle with its vertices in the buffer does not leave it. -/
theorem triPoints_inBuffer {p : Params} {x0 y0 x1 y1 x2 y2 : Int} (h0 : inBuffer p x0 y0 = true)
    (h1 : inBuffer p x1 y1 = true) (h2 : inBuffer p x2 y2 = true) :
    ∀ q ∈ triPoints x0 y0 x1 y1 x2 y2, inBuffer p q.1 q.2 = true := by
  intro q hq
  unfold triPoints at hq
  rw [List.mem_append, List.mem_append] at hq
  rcases hq with (hq | hq) | hq
  · exact linePoints_inBuffer h0 h1 q hq
  · exact linePoints_inBuffer h1 h2 q hq
  · exact linePoints_inBuffer h2 h0 q hq

/-- Settles O26: the points drawn are those of three lines, each between two vertices. -/
theorem trianglePaints : Obligations.TrianglePaints := by
  intro c ink s hc x0 y0 x1 y1 x2 y2 hclean
  refine exec_shape_paints (i := .tri c) hc rfl (hclean.imp_right ?_) fun a b _ => mem_triPoints x0 y0 x1 y1 x2 y2 a b
  rintro ⟨h0, h1, h2⟩
  exact triPoints_inBuffer h0 h1 h2

/-! ## The scanlines of a filled triangle -/

theorem mem_edgeSpan (p : Params) (e f y a b : Int) :
    (a, b) ∈ edgeSpan p e f y ↔ b = y ∧ min e f ≤ a ∧ a ≤ max e f ∧ inBuffer p a b = true := by
  unfold edgeSpan
  rw [mem_hspan, show min e f + (max e f - min e f + 1) = max e f + 1 by ring, Int.lt_add_one_iff]

/-- `n` scanlines from row `y`: row `b` is the span between the edges, whose accumulators have grown by their extents
`b - y` times. -/
theorem mem_scanlines (p : Params) (ea eb : Edge) (n : Nat) (y sa sb a b : Int) :
    (a, b) ∈ scanlines p ea eb n y sa sb ↔
      y ≤ b ∧ b < y + n ∧ (a, b) ∈ edgeSpan p (ea.at (sa + ea.dx * (b - y))) (eb.at (sb + eb.dx * (b - y))) b := by
  induction n generalizing y sa sb with
  | zero =>
    simp only [scanlines, List.not_mem_nil, false_iff]
    omega
  | succ n ih =>
    have hgrow (acc dx : Int) : acc + dx + dx * (b - (y + 1)) = acc + dx * (b - y) := by ring
    rw [scanlines, List.mem_append, ih, hgrow, hgrow]
    by_cases hby : b = y
    · subst hby
      rw [sub_self, mul_zero, mul_zero, add_zero, add_zero, or_iff_left (by omega), and_iff_right le_rfl,
        and_iff_right (by omega)]
    · have hrow : (a, b) ∉ edgeSpan p (ea.at sa) (eb.at sb) y := fun h => hby ((mem_edgeSpan ..).1 h).1
      rw [or_iff_right hrow, ← and_assoc, ← and_assoc]
      refine and_congr_left fun _ => ?_
      omega

/-- The accumulator of an edge on row `b` is the numerator of its closed form. -/
theorem edge_at_eq_edgeAt (x0 y0 x1 y1 b : Int) :
    Edge.at ⟨x0, x1 - x0, y1 - y0⟩ ((x1 - x0) * (b - y0)) = edgeAt x0 y0 x1 y1 b := rfl

/-- Scanlines whose accumulators start at row `y` draw each row between the closed forms of the two edges. -/
theorem mem_scanlines_edges (p : Params) (x0 y0 x1 y1 x2 y2 x3 y3 : Int) (n : Nat) (y a b : Int) :
    (a, b) ∈ scanlines p ⟨x0, x1 - x0, y1 - y0⟩ ⟨x2, x3 - x2, y3 - y2⟩ n y
        ((x1 - x0) * (y - y0)) ((x3 - x2) * (y - y2)) ↔
      y ≤ b ∧ b < y + n ∧ (a, b) ∈ edgeSpan p (edgeAt x0 y0 x1 y1 b) (edgeAt x2 y2 x3 y3 b) b := by
  have hnumerator (dx v : Int) : dx * (y - v) + dx * (b - y) = dx * (b - v) := by ring
  rw [mem_scanlines, hnumerator, hnumerator, edge_at_eq_edgeAt, edge_at_eq_edgeAt]

/-- The two loops of TriFill: the rows to `last` along the upper edge, the others along the lower one. -/
theorem mem_triFillSorted (p : Params) {x0 y0 x1 y1 x2 y2 : Int} (h01 : y0 ≤ y1) (h12 : y1 ≤ y2) (a b : Int)
    (hin : inBuffer p a b = true) :
    (a, b) ∈ triFillSorted p x0 y0 x1 y1 x2 y2 ↔ onTriangle x0 y0 x1 y1 x2 y2 a b := by
  unfold triFillSorted onTriangle
  split
  case isTrue hflat =>
    simp only [mem_hspan, hin, and_true]
    omega
  case isFalse htall =>
    have hupper (n : Nat) := mem_scanlines_edges p x0 y0 x1 y1 x0 y0 x2 y2 n y0 a b
    have hlower := mem_scanlines_edges p x1 y1 x2 y2 x0 y0 x2 y2
    simp only [sub_self, mul_zero] at hupper
    simp only [List.mem_append, hupper, hlower, mem_edgeSpan, hin, and_true, true_and]
    by_cases habove : b < y1 ∨ y1 = y2
    · rw [if_pos habove]
      split <;> omega
    · rw [if_neg habove]
      split <;> omega

/-! ## The order of the vertices -/

/-- An edge from a vertex of `vs` down to a vertex of `vs` meets row `b` at `x`. The two may be one vertex, which meets
its own row. -/
def rowMeets (vs : List Point) (b x : Int) : Prop :=
  ∃ p ∈ vs, ∃ q ∈ vs, p.2 ≤ b ∧ b ≤ q.2 ∧ x = edgeAt p.1 p.2 q.1 q.2 b

/-- (a, b) lies between two places where the edges between the vertices `vs` meet row `b`. -/
def inRowHull (vs : List Point) (a b : Int) : Prop :=
  (∃ x, rowMeets vs b x ∧ x ≤ a) ∧ ∃ x, rowMeets vs b x ∧ a ≤ x

theorem inRowHull_perm {vs ws : List Point} (h : vs.Perm ws) (a b : Int) : inRowHull vs a b ↔ inRowHull ws a b := by
  simp only [inRowHull, rowMeets, h.mem_iff]

/-- The hull of a row by the list of places where the row meets the edges. -/
theorem inRowHull_of_places {vs : List Point} {b : Int} {rows : Prop} {xs : List Int}
    (h : ∀ x, rowMeets vs b x ↔ rows ∧ x ∈ xs) (a : Int) :
    inRowHull vs a b ↔ rows ∧ (∃ x ∈ xs, x ≤ a) ∧ ∃ x ∈ xs, a ≤ x := by
  simp only [inRowHull, h]
  constructor
  · rintro ⟨⟨x, ⟨hrows, hx⟩, hxa⟩, z, ⟨-, hz⟩, haz⟩
    exact ⟨hrows, ⟨x, hx, hxa⟩, z, hz, haz⟩
  · rintro ⟨hrows, ⟨x, hx, hxa⟩, z, hz, haz⟩
    exact ⟨⟨x, ⟨hrows, hx⟩, hxa⟩, z, ⟨hrows, hz⟩, haz⟩

theorem edgeAt_start (x0 y0 x1 y1 : Int) : edgeAt x0 y0 x1 y1 y0 = x0 := by
  rw [edgeAt, sub_self, mul_zero, Int.zero_tdiv, add_zero]

theorem edgeAt_end (x0 x1 : Int) {y0 y1 : Int} (h : y0 < y1) : edgeAt x0 y0 x1 y1 y1 = x1 := by
  rw [edgeAt, Int.mul_tdiv_cancel _ (sub_ne_zero.2 h.ne'), add_sub_cancel]

/-- Where row `b` meets the edges: at a vertex on the row, or at an edge that crosses the row between its vertices. -/
theorem rowMeets_cases {vs : List Point} {b x : Int} (h : rowMeets vs b x) :
    (x, b) ∈ vs ∨ ∃ p ∈ vs, ∃ q ∈ vs, p.2 < b ∧ b < q.2 ∧ x = edgeAt p.1 p.2 q.1 q.2 b := by
  obtain ⟨p, hp, q, hq, hpb, hbq, rfl⟩ := h
  rcases hpb.eq_or_lt with rfl | hpb
  · rw [edgeAt_start]
    exact .inl hp
  · rcases hbq.eq_or_lt with rfl | hbq
    · rw [edgeAt_end _ _ hpb]
      exact .inl hq
    · exact .inr ⟨p, hp, q, hq, hpb, hbq, rfl⟩

theorem rowMeets_vertex {vs : List Point} {v : Point} (hv : v ∈ vs) : rowMeets vs v.2 v.1 :=
  ⟨v, hv, v, hv, le_rfl, le_rfl, (edgeAt_start ..).symm⟩

/-- Where row `b` meets the short edges of a triangle: the upper one above the middle vertex, else the lower one. -/
def shortEdgeAt (u v w : Point) (b : Int) : Int :=
  if b < v.2 ∨ v.2 = w.2 then edgeAt u.1 u.2 v.1 v.2 b else edgeAt v.1 v.2 w.1 w.2 b

theorem onTriangle_tall {u v w : Point} (htall : u.2 ≠ w.2) (a b : Int) :
    onTriangle u.1 u.2 v.1 v.2 w.1 w.2 a b ↔
      u.2 ≤ b ∧ b ≤ w.2 ∧ min (shortEdgeAt u v w b) (edgeAt u.1 u.2 w.1 w.2 b) ≤ a ∧
        a ≤ max (shortEdgeAt u v w b) (edgeAt u.1 u.2 w.1 w.2 b) := by
  rw [onTriangle, if_neg htall]
  rfl

section
variable {u v w : Point} (huv : u.2 ≤ v.2) (hvw : v.2 ≤ w.2)
include huv

theorem shortEdgeAt_middle (htall : u.2 < w.2) : shortEdgeAt u v w v.2 = v.1 := by
  unfold shortEdgeAt
  split
  · exact edgeAt_end _ _ (by omega)
  · exact edgeAt_start ..

include hvw

/-- No vertex lies above the first of a sorted triangle or below its last. -/
theorem vertex_rows {p : Point} (hp : p ∈ [u, v, w]) : u.2 ≤ p.2 ∧ p.2 ≤ w.2 := by
  simp only [List.mem_cons, List.not_mem_nil, or_false] at hp
  rcases hp with rfl | rfl | rfl <;> omega

theorem rowMeets_rows {b x : Int} (h : rowMeets [u, v, w] b x) : u.2 ≤ b ∧ b ≤ w.2 := by
  obtain ⟨p, hp, q, hq, hpb, hbq, -⟩ := h
  exact ⟨(vertex_rows huv hvw hp).1.trans hpb, hbq.trans (vertex_rows huv hvw hq).2⟩

/-- An edge that crosses a row between its vertices is a short one or the long one. -/
theorem crossing_cases {p q : Point} (hp : p ∈ [u, v, w]) (hq : q ∈ [u, v, w]) {b : Int} (hpb : p.2 < b)
    (hbq : b < q.2) :
    edgeAt p.1 p.2 q.1 q.2 b = shortEdgeAt u v w b ∨ edgeAt p.1 p.2 q.1 q.2 b = edgeAt u.1 u.2 w.1 w.2 b := by
  have hpw : p ≠ w := by
    rintro rfl
    have := vertex_rows huv hvw hq
    omega
  have hqu : q ≠ u := by
    rintro rfl
    have := vertex_rows huv hvw hp
    omega
  simp only [List.mem_cons, List.not_mem_nil, or_false, hpw, hqu, false_or] at hp hq
  unfold shortEdgeAt
  rcases hp with rfl | rfl <;> rcases hq with rfl | rfl
  · rw [if_pos (.inl hbq)]
    exact .inl rfl
  · exact .inr rfl
  · omega
  · rw [if_neg (by omega)]
    exact .inl rfl

/-- A row of a triangle that is not flat meets its edges where it meets the short edges and the long edge. -/
theorem rowMeets_tall (htall : u.2 < w.2) (b x : Int) :
    rowMeets [u, v, w] b x ↔ (u.2 ≤ b ∧ b ≤ w.2) ∧ x ∈ [shortEdgeAt u v w b, edgeAt u.1 u.2 w.1 w.2 b] := by
  rw [List.mem_pair]
  constructor
  · intro h
    refine ⟨rowMeets_rows huv hvw h, ?_⟩
    rcases rowMeets_cases h with hvertex | ⟨p, hp, q, hq, hpb, hbq, rfl⟩
    · simp only [List.mem_cons, List.not_mem_nil, or_false] at hvertex
      rcases hvertex with rfl | rfl | rfl
      · exact .inr (edgeAt_start ..).symm
      · exact .inl (shortEdgeAt_middle huv htall).symm
      · exact .inr (edgeAt_end _ _ htall).symm
    · exact crossing_cases huv hvw hp hq hpb hbq
  · rintro ⟨⟨hub, hbw⟩, rfl | rfl⟩
    · unfold shortEdgeAt
      split
      · exact ⟨u, by simp, v, by simp, hub, by omega, rfl⟩
      · exact ⟨v, by simp, w, by simp, by omega, hbw, rfl⟩
    · exact ⟨u, by simp, w, by simp, hub, hbw, rfl⟩

/-- A flat triangle has one row, which it meets at its vertices. -/
theorem rowMeets_flat (hflat : u.2 = w.2) (b x : Int) :
    rowMeets [u, v, w] b x ↔ b = u.2 ∧ x ∈ [u.1, v.1, w.1] := by
  have hv : v.2 = u.2 := by omega
  simp only [List.mem_cons, List.not_mem_nil, or_false]
  constructor
  · intro h
    obtain ⟨hub, hbw⟩ := rowMeets_rows huv hvw h
    refine ⟨by omega, ?_⟩
    rcases rowMeets_cases h with hvertex | ⟨p, hp, q, hq, hpb, hbq, rfl⟩
    · simp only [List.mem_cons, List.not_mem_nil, or_false] at hvertex
      exact hvertex.imp (congrArg Prod.fst) (.imp (congrArg Prod.fst) (congrArg Prod.fst))
    · have := vertex_rows huv hvw hp
      omega
  · rintro ⟨rfl, rfl | rfl | rfl⟩
    · exact rowMeets_vertex (by simp)
    · exact hv ▸ rowMeets_vertex (by simp)
    · exact hflat ▸ rowMeets_vertex (by simp)

/-- The closed form asks, row by row, for the hull of the places where the edges meet the row. -/
theorem onTriangle_iff_inRowHull (a b : Int) :
    onTriangle u.1 u.2 v.1 v.2 w.1 w.2 a b ↔ inRowHull [u, v, w] a b := by
  by_cases hflat : u.2 = w.2
  · rw [inRowHull_of_places (rowMeets_flat huv hvw hflat b), onTriangle, if_pos hflat]
    simp
  · rw [inRowHull_of_places (rowMeets_tall huv hvw (by omega) b), onTriangle_tall hflat, and_assoc]
    simp

end

/-! ## The sort network -/

/-- The two vertices again, the one with the smaller y first. -/
theorem sortPair_spec {p q p' q' : Point} (h : sortPair p q = (p', q')) :
    [p', q'].Perm [p, q] ∧ p'.2 = min p.2 q.2 ∧ q'.2 = max p.2 q.2 := by
  unfold sortPair at h
  split at h <;> obtain ⟨rfl, rfl⟩ := Prod.mk.inj h
  · exact ⟨List.Perm.swap _ _ [], by omega, by omega⟩
  · exact ⟨List.Perm.refl _, by omega, by omega⟩

/-- The sort network of TriFill hands the vertices on sorted by their rows. -/
theorem triFillPoints_sorted (p : Params) (v0 v1 v2 : Point) :
    ∃ u v w : Point, [u, v, w].Perm [v0, v1, v2] ∧ u.2 ≤ v.2 ∧ v.2 ≤ w.2 ∧
      triFillPoints p v0 v1 v2 = triFillSorted p u.1 u.2 v.1 v.2 w.1 w.2 := by
  unfold triFillPoints
  obtain ⟨⟨a0, a1⟩, ha⟩ : ∃ q, sortPair v0 v1 = q := ⟨_, rfl⟩
  obtain ⟨⟨b1, b2⟩, hb⟩ : ∃ q, sortPair a1 v2 = q := ⟨_, rfl⟩
  obtain ⟨⟨c0, c1⟩, hc⟩ : ∃ q, sortPair a0 b1 = q := ⟨_, rfl⟩
  obtain ⟨hpermA, hminA, hmaxA⟩ := sortPair_spec ha
  obtain ⟨hpermB, hminB, hmaxB⟩ := sortPair_spec hb
  obtain ⟨hpermC, hminC, hmaxC⟩ := sortPair_spec hc
  simp only [ha, hb, hc]
  refine ⟨c0, c1, b2, ?_, by omega, by omega, rfl⟩
  calc
    List.Perm [c0, c1, b2] [a0, b1, b2] := hpermC.append_right [b2]
    List.Perm _ [a0, a1, v2] := hpermB.cons a0
    List.Perm _ [v0, v1, v2] := hpermA.append_right [v2]

/-- In the buffer FTRI's points are those of the closed form of its vertices in any order sorted by row. -/
theorem mem_triFillPoints (p : Params) {v0 v1 v2 u v w : Point} (hperm : [u, v, w].Perm [v0, v1, v2])
    (huv : u.2 ≤ v.2) (hvw : v.2 ≤ w.2) (a b : Int) (hin : inBuffer p a b = true) :
    (a, b) ∈ triFillPoints p v0 v1 v2 ↔ onTriangle u.1 u.2 v.1 v.2 w.1 w.2 a b := by
  obtain ⟨u', v', w', hperm', huv', hvw', hsorted⟩ := triFillPoints_sorted p v0 v1 v2
  rw [hsorted, mem_triFillSorted p huv' hvw' a b hin, onTriangle_iff_inRowHull huv' hvw',
    onTriangle_iff_inRowHull huv hvw, inRowHull_perm (hperm'.trans hperm.symm)]

/-- Settles O27: TriFill draws the closed form of the order its sort network finds, and every sorted order has the same
row hulls. -/
theorem filledTrianglePaints : Obligations.FilledTrianglePaints := by
  intro c ink s u v w hc hperm huv hvw
  exact exec_shape_paints (i := .ftri c) hc rfl (.inr (triFillPoints_inBuffer _ _ _ _))
    (mem_triFillPoints _ hperm huv hvw)

end Sys2Proof.Machine
end

section
/-! PROOFS of 44_sprite_aligned.md R180 for the three blits: a blit wholly off the screen ends in DONE and changes no FB
byte (45_sprite_unaligned.md R210, 46_rle_decoder.md R240). -/

namespace Sys2Proof.Machine

/-! ## The bounding test -/

/-- BlitGeometry gives up on exactly the blits that fail the bounding test (44_sprite_aligned.md R180). -/
theorem blitGeometry_eq_none_iff (p : Params) (x y : Int) (w h : Nat) :
    blitGeometry p x y w h = none ↔ ¬ onScreen p x y w h := by
  unfold blitGeometry onScreen
  split
  · simp only [true_iff]; omega
  · simp only [reduceCtorEq, false_iff, not_not]; omega

theorem blitCells_offscreen {p : Params} {x y : Int} {w h : Nat} (hoff : ¬ onScreen p x y w h) (fetch : Fetch)
    (f : Combine) (fb : Memory) : blitCells p x y w h fetch f fb = .ok fb := by
  unfold blitCells
  rw [(blitGeometry_eq_none_iff p x y w h).2 hoff]

/-- A drawing that leaves FB as it was ends the command as its null operands do. -/
theorem drawUnless_unchanged (null : Prop) [Decidable null] {s : State} {result : Except Undefined Memory}
    (h : result = .ok s.fb) : (if null then .next (finishDone s) else concludeFb s result) = .next (finishDone s) := by
  rw [h]
  exact ite_self _

/-! ## BITMAP -/

theorem exec_bitmap_offscreen {s : State}
    (hoff : ¬ onScreen s.params (s16 (s.arg 0)) (s16 (s.arg 1)) (u8 (s.arg 3)) (u8 (s.arg 4))) (c : Colour) :
    exec (.bitmap c) s = .next (finishDone s) :=
  drawUnless_unchanged _ (blitCells_offscreen hoff _ _ _)

/-! ## SPRITE -/

theorem drawSprite_offscreen {s : State} {b : Nat} (hb : b < 65536) (hheader : resReadable s.params b 2)
    (hoff : ¬ onScreen s.params (s16 (s.arg 0)) (s16 (s.arg 1)) (s.res.read b).toNat
      (s.res.read ((b + 1) % 65536)).toNat) (md : DrawMode) (f mask mf : Nat) :
    drawSprite s md b f mask mf = .ok s.fb := by
  obtain ⟨hwidth, hheight⟩ := header_readable s.res hb hheader
  unfold drawSprite
  rw [hwidth, hheight]
  dsimp only
  rw [blitCells_offscreen hoff, ite_self]

theorem exec_sprite_offscreen {m : DrawMode} {s : State} (hheader : resReadable s.params (addr (s.arg 2)) 2)
    (hmask : m = .masked → addr (s.arg 4) ≠ 0)
    (hoff : ¬ onScreen s.params (s16 (s.arg 0)) (s16 (s.arg 1)) (s.res.read (addr (s.arg 2))).toNat
      (s.res.read ((addr (s.arg 2) + 1) % 65536)).toNat) :
    exec (.sprite m) s = .next (finishDone s) := by
  by_cases hb : addr (s.arg 2) = 0
  · exact if_pos hb
  · rw [exec_sprite_of_operands hb hmask, drawSprite_offscreen (addr_lt _) hheader hoff]
    rfl

/-! ## DRAWCOMP -/

/-- Bits held at the start of the stream `k` bytes on are held from bit `8k` of the stream. -/
theorem HoldsFrom.shift {p : Params} {res : Memory} {st k : Nat} {code : List Bool}
    (h : HoldsFrom p res (st + k) 0 code) : HoldsFrom p res st (8 * k) code := by
  intro j hj
  obtain ⟨hread, hbit⟩ := h j hj
  rw [Nat.zero_add] at hread hbit
  rw [Nat.mul_add_div (by omega), ← Nat.add_assoc]
  refine ⟨hread, ?_⟩
  rw [← hbit]
  unfold resBit
  rw [Nat.mul_add_mod]

/-- Reading eight bits at a byte boundary answers the byte there (46_rle_decoder.md R231, R232). -/
theorem readBits_byte {p : Params} (res : Memory) {st k : Nat} {r : BitReader} (hat : ReaderAt res st (8 * k) r)
    (h : (st + k) % 65536 < p.resSize) :
    ∃ r', readBits p res 8 r = .ok ((res.read ((st + k) % 65536)).toNat, r') ∧ ReaderAt res st (8 * (k + 1)) r' := by
  have hbyte := (holdsFrom_byte res h).shift
  obtain ⟨r', hread, hat', -⟩ := readBits_held p res st 8 _ _ (res.read ((st + k) % 65536)).isLt r [] hat
    (by rwa [List.append_nil])
  exact ⟨r', hread, hat'⟩

theorem drawCompressed_offscreen {s : State} {st : Nat} (hst : st < 65536) (hheader : resReadable s.params st 2)
    {x y : Int} (hoff : ¬ onScreen s.params x y ((s.res.read st).toNat + 1) ((s.res.read ((st + 1) % 65536)).toNat + 1))
    (col : Bool) : drawCompressed s col x y st = .ok s.fb := by
  obtain ⟨r1, hwidth, hat⟩ := readBits_byte s.res (readerAt_start s.res st) (hheader 0 (by omega))
  obtain ⟨r2, hheight, -⟩ := readBits_byte s.res hat (hheader 1 (by omega))
  rw [Nat.add_zero, Nat.mod_eq_of_lt hst] at hwidth
  unfold drawCompressed
  rw [hwidth]
  dsimp only
  rw [hheight]
  dsimp only
  rw [(blitGeometry_eq_none_iff ..).2 hoff]

theorem exec_drawcomp_offscreen {c : Colour} {ink : Bool} {s : State} (hc : inkOf c = some ink)
    (hheader : resReadable s.params (addr (s.arg 2)) 2)
    (hoff : ¬ onScreen s.params (s16 (s.arg 0)) (s16 (s.arg 1)) ((s.res.read (addr (s.arg 2))).toNat + 1)
      ((s.res.read ((addr (s.arg 2) + 1) % 65536)).toNat + 1)) :
    exec (.drawcomp c) s = .next (finishDone s) :=
  (withInk_of_ink c s _ ink hc).trans
    (drawUnless_unchanged _ (drawCompressed_offscreen (addr_lt _) hheader hoff ink))

/-- Settles O31: BlitGeometry gives up, in BITMAP before RES is read and in the others after the two header bytes. -/
theorem offscreenBlits : Obligations.OffscreenBlits := by
  intro c ink m s hc
  exact ⟨fun hoff => ⟨exec_bitmap_offscreen hoff c, exec_bitmap_offscreen hoff .invert⟩,
    exec_sprite_offscreen, exec_drawcomp_offscreen hc⟩

end Sys2Proof.Machine
end

section
/-! PROOFS of 44_sprite_aligned.md R181, R182 and R184: BITMAP is its pixel-by-pixel reference, and INVERT undoes
itself. -/

namespace Sys2Proof.Machine

/-! ## A blit as its pixel-by-pixel reference -/

/-- `fb'` is `fb` with `f X Y` applied to every pixel (X, Y), and agrees with it past FB. -/
def MapsFb (p : Params) (fb fb' : Memory) (f : Int → Int → Bool → Bool) : Prop :=
  (∀ X Y, inBuffer p X Y = true → pixelRead p fb' X Y = f X Y (pixelRead p fb X Y)) ∧
  ∀ k, p.fbBytes ≤ k → fb'.read k = fb.read k

/-- A command that computes its frame buffer pixel by pixel maps the pixels of the state. -/
theorem concludeFb_mapsPixels {s : State} {result : Except Undefined Memory} {f : Int → Int → Bool → Bool}
    (h : ∃ fb', result = .ok fb' ∧ MapsFb s.params s.fb fb' f) :
    ∃ t, concludeFb s result = .next t ∧ DoneFb s t ∧ MapsPixels s t f := by
  obtain ⟨fb', rfl, hmaps⟩ := h
  exact ⟨finishDone { s with fb := fb' }, concludeFb_ok s fb', rfl, hmaps⟩

/-- A blit that fetches the image and the mask byte of a cell by the cell's number is the pixel-by-pixel reference: source
pixel (i, r) is bit `r mod 8` of the bytes of its cell (44_sprite_aligned.md R184). -/
theorem blitCells_pixelBlit {p : Params} (hp : p.wf = true) {x y : Int} {w h : Nat} (hs : onScreen p x y w h)
    {fetch : Fetch} {src msk : Nat → Byte}
    (hfetch : ∀ a < (h + 7) / 8, ∀ i < w, cellVisible p x y a i → fetch a i = .ok (src (a * w + i), msk (a * w + i)))
    {f : Combine} {op : Bool → Bool → Bool → Bool} (hf : ActsAs f op) (fb : Memory) :
    ∃ fb', blitCells p x y w h fetch f fb = .ok fb' ∧ MapsFb p fb fb' (pixelBlit x y w h fun d i r =>
      op d ((src (cellIndex w i r)).getLsbD (r % 8)) ((msk (cellIndex w i r)).getLsbD (r % 8))) := by
  have hfetch' : ∀ c : Int × Int, 0 ≤ c.1 → c.1 < ((h + 7) / 8 : Nat) → 0 ≤ c.2 → c.2 < w →
      cellVisible p x y c.1.toNat c.2.toNat →
      fetch c.1 c.2 = .ok (src (c.1.toNat * w + c.2.toNat), msk (c.1.toNat * w + c.2.toNat)) := by
    intro c ha hrows hi hw hvisible
    have hcell := hfetch c.1.toNat (by omega) c.2.toNat (by omega) hvisible
    rwa [Int.toNat_of_nonneg ha, Int.toNat_of_nonneg hi] at hcell
  obtain ⟨fb', hrun, hpixels, houtside⟩ := blitCells_pixels p (wf_height p hp) (wf_height_pos p hp) x y w h hs fetch
    (fun c => src (c.1.toNat * w + c.2.toNat)) (fun c => msk (c.1.toNat * w + c.2.toNat)) hfetch' f op hf fb
  refine ⟨fb', hrun, fun X Y hin => ?_, houtside⟩
  rw [hpixels X Y hin]
  unfold pixelBlit cellIndex
  split
  · have hrow : ((Y - y) / 8).toNat = (Y - y).toNat / 8 := by omega
    have hbit : ((Y - y) % 8).toNat = (Y - y).toNat % 8 := by omega
    rw [hrow, hbit]
  · rfl

/-! ## BITMAP -/

/-- The combine of a BITMAP colour acts bit by bit as the colour's pixel rule (44_sprite_aligned.md R182). -/
theorem bitmapCombine_acts (c : Colour) : ActsAs (bitmapCombine c) (fun d src _ => bitmapPixel c d src) := by
  cases c with
  | black => exact combineClear_acts
  | white => exact combineOr_acts
  | invert => exact combineXor_acts

/-- Settles O32: BITMAP's blit fetches one byte per cell, and its colour's combine acts bit by bit. -/
theorem bitmapPixels : Obligations.BitmapPixels := by
  intro c s x y b w h hp hb hs hw hh hreadable
  rw [exec_bitmap_of_operands hb hw hh]
  refine concludeFb_mapsPixels (blitCells_pixelBlit hp hs (src := fun n => s.res.read ((b + n) % 65536))
    (msk := fun _ => 0) (fun a ha i hi hvisible => ?_) (bitmapCombine_acts c) s.fb)
  rw [fetchPlain_nat, if_pos (hreadable a ha i hi hvisible)]

/-! ## Flipping bits that do not depend on FB -/

/-- `m'` is `m` with the bits of `δ k` flipped in every byte `k`. -/
def Flipped (δ : Nat → Byte) (m m' : Memory) : Prop := ∀ k, m'.read k = m.read k ^^^ δ k

theorem Flipped.trans {δ ε : Nat → Byte} {a b c : Memory} (h : Flipped δ a b) (h' : Flipped ε b c) :
    Flipped (fun k => δ k ^^^ ε k) a c := fun k => by rw [h' k, h k, BitVec.xor_assoc]

theorem Flipped.twice {δ : Nat → Byte} {a b c : Memory} (h : Flipped δ a b) (h' : Flipped δ b c) (k : Nat) :
    c.read k = a.read k := by
  rw [h' k, h k, BitVec.xor_assoc, BitVec.xor_self, BitVec.xor_zero]

/-- The drawing never fails, and flips the same bits of every frame buffer. -/
def Flips (draw : Memory → Except Undefined Memory) : Prop := ∃ δ, ∀ m, ∃ m', draw m = .ok m' ∧ Flipped δ m m'

theorem Flips.twice {draw : Memory → Except Undefined Memory} (h : Flips draw) {a b : Memory} (hab : draw a = .ok b) :
    ∃ c, draw b = .ok c ∧ ∀ k, c.read k = a.read k := by
  obtain ⟨δ, hδ⟩ := h
  obtain ⟨b', hab', hflip⟩ := hδ a
  obtain rfl : b = b' := Except.ok.inj (hab.symm.trans hab')
  obtain ⟨c, hbc, hflip'⟩ := hδ b
  exact ⟨c, hbc, hflip.twice hflip'⟩

theorem flips_ok : Flips .ok := ⟨fun _ => 0, fun m => ⟨m, rfl, fun _ => BitVec.xor_zero.symm⟩⟩

/-- A run of drawings each of which flips the same bits of every frame buffer, unless it fails on every one. -/
theorem foldlM_flips {α : Type} (draw : Memory → α → Except Undefined Memory)
    (hdraw : ∀ a m m', draw m a = .ok m' → Flips fun n => draw n a) (l : List α) {m m' : Memory}
    (h : l.foldlM draw m = .ok m') : Flips fun n => l.foldlM draw n := by
  induction l generalizing m with
  | nil => exact flips_ok
  | cons a l ih =>
    rw [List.foldlM_cons] at h
    obtain ⟨m1, hhead, htail⟩ : ∃ m1, draw m a = .ok m1 ∧ l.foldlM draw m1 = .ok m' := by
      cases hhead : draw m a with
      | error r => rw [hhead] at h; cases h
      | ok m1 => rw [hhead] at h; exact ⟨m1, rfl, h⟩
    obtain ⟨δ, hδ⟩ := hdraw a m m1 hhead
    obtain ⟨ε, hε⟩ := ih htail
    refine ⟨fun k => δ k ^^^ ε k, fun n => ?_⟩
    obtain ⟨n1, hn1, hflip⟩ := hδ n
    obtain ⟨n2, hn2, hflip'⟩ := hε n1
    refine ⟨n2, ?_, hflip.trans hflip'⟩
    simp only [List.foldlM_cons] at hn1 ⊢
    rw [hn1]
    exact hn2

/-! ## INVERT twice -/

/-- One write of INVERT, where it is done, flips the source's bits in the byte it writes. -/
theorem combineXor_flipped (ok : Bool) (m : Memory) (k : Nat) (sb mb : Byte) :
    Flipped (fun j => if ok = true ∧ j = k then sb else 0) m
      (if ok = true then combineAt m k combineXor sb mb else m) := by
  intro j
  cases ok with
  | false => simp
  | true =>
    by_cases hj : j = k
    · subst hj; simp [combineAt, combineXor, Memory.read_write_self]
    · simp [combineAt, Memory.read_write_other, hj]

theorem blitStep_xor_flips (p : Params) (g : BlitGeom) (x : Int) (fetch : Fetch) (cell : Int × Int) (m m' : Memory)
    (h : blitStep p g x fetch combineXor m cell = .ok m') : Flips fun n => blitStep p g x fetch combineXor n cell := by
  unfold blitStep at h ⊢
  cases hfetch : fetch cell.1 cell.2 with
  | error r => rw [hfetch] at h; cases h
  | ok bytes =>
    exact ⟨_, fun n => ⟨_, rfl, (combineXor_flipped (g.loOk p cell.1) n _ _ _).trans
      (combineXor_flipped (g.hiOk p cell.1) _ _ _ _)⟩⟩

/-- What a blit in INVERT flips is decided by its operands and RES, not by FB (44_sprite_aligned.md R182). -/
theorem blitCells_xor_flips {p : Params} {x y : Int} {w h : Nat} {fetch : Fetch} {m m' : Memory}
    (hrun : blitCells p x y w h fetch combineXor m = .ok m') : Flips (blitCells p x y w h fetch combineXor) := by
  unfold blitCells at hrun ⊢
  cases hg : blitGeometry p x y w h with
  | none => exact flips_ok
  | some g =>
    rw [hg] at hrun
    exact foldlM_flips _ (blitStep_xor_flips p g x fetch) _ hrun

/-- Settles O33: the first BITMAP ends in DONE, so the second has the same operands and flips the same bits back. -/
theorem invertTwice : Obligations.InvertTwice := by
  intro s t hrun hdone
  by_cases hnull : addr (s.arg 2) = 0 ∨ u8 (s.arg 3) = 0 ∨ u8 (s.arg 4) = 0
  · have hnoop : exec (.bitmap .invert) s = .next (finishDone s) := if_pos hnull
    obtain rfl : finishDone s = t := Host.Outcome.next.inj (hnoop.symm.trans hrun)
    exact ⟨finishDone s, if_pos hnull, rfl, fun _ => rfl⟩
  · push Not at hnull
    obtain ⟨hb, hw, hh⟩ := hnull
    rw [exec_bitmap_of_operands hb hw hh] at hrun
    rcases concludeFb_cases s t _ hrun with ⟨fb, hfb, rfl⟩ | ⟨r, -, rfl⟩
    · obtain ⟨fb', hfb', hback⟩ := (blitCells_xor_flips hfb).twice hfb
      have hagain : exec (.bitmap .invert) (finishDone { s with fb := fb }) = concludeFb _ (.ok fb') :=
        (exec_bitmap_of_operands (s := finishDone { s with fb := fb }) hb hw hh).trans (congrArg _ hfb')
      exact ⟨finishDone { s with fb := fb' }, hagain, rfl, hback⟩
    · cases hdone

end Sys2Proof.Machine
end

section
/-! PROOFS of 45_sprite_unaligned.md R200 to R210: SPRITE is the pixel-by-pixel reference of its mode, its only refusal is
of a null mask, and its one-way modes never move a bit the other way. -/

namespace Sys2Proof.Machine

/-! ## A blit of one or two bytes per cell as its pixel-by-pixel reference -/

section
variable {p : Params} (hp : p.wf = true) {x y : Int} {w h : Nat} (hs : onScreen p x y w h) (res : Memory) {f : Combine}
  {op : Bool → Bool → Bool → Bool} (hf : ActsAs f op) (fb : Memory)
include hp hs hf

/-- A blit that fetches an image byte per cell, under the same mask byte `m` in every cell. -/
theorem blitCells_plain_pixelBlit {img : Nat} (m : Byte) (hread : cellsReadable p x y w h fun n => img + n) :
    ∃ fb', blitCells p x y w h (fetchPlain p res img w m) f fb = .ok fb' ∧
      MapsFb p fb fb' (pixelBlit x y w h fun d i r =>
        op d (resBit res (img + cellIndex w i r) r) (m.getLsbD (r % 8))) := by
  refine blitCells_pixelBlit hp hs (src := fun n => res.read ((img + n) % 65536)) (msk := fun _ => m)
    (fun a ha i hi hvisible => ?_) hf fb
  rw [fetchPlain_nat, if_pos (hread a ha i hi hvisible)]

/-- A blit that fetches an image byte and a mask byte per cell. -/
theorem blitCells_pair_pixelBlit {srcByte mskByte : Nat → Nat} {srcAt mskAt : Int → Int → Int}
    (hsrc : ∀ a i : Nat, srcAt a i = srcByte (a * w + i)) (hmsk : ∀ a i : Nat, mskAt a i = mskByte (a * w + i))
    (hreadSrc : cellsReadable p x y w h srcByte) (hreadMsk : cellsReadable p x y w h mskByte) :
    ∃ fb', blitCells p x y w h (fetchPair p res srcAt mskAt) f fb = .ok fb' ∧
      MapsFb p fb fb' (pixelBlit x y w h fun d i r =>
        op d (resBit res (srcByte (cellIndex w i r)) r) (resBit res (mskByte (cellIndex w i r)) r)) := by
  refine blitCells_pixelBlit hp hs (src := fun n => res.read (srcByte n % 65536))
    (msk := fun n => res.read (mskByte n % 65536)) (fun a ha i hi hvisible => ?_) hf fb
  rw [fetchPair_nat p res srcByte mskByte srcAt mskAt w hsrc hmsk,
    if_pos ⟨hreadSrc a ha i hi hvisible, hreadMsk a ha i hi hvisible⟩]

end

/-! ## SPRITE, pixel by pixel -/

/-- Under a mask byte of 1s the masked combine writes the image bit: UNMASKED (45_sprite_unaligned.md R205). -/
theorem combineMasked_under_ones (d src : Bool) (r : Nat) : ((d && !(0xFF : Byte).getLsbD (r % 8)) || src) = src := by
  have hone : (0xFF : Byte).getLsbD (r % 8) = true := by
    rw [show (0xFF : Byte) = BitVec.allOnes 8 from rfl, BitVec.getLsbD_allOnes]
    exact decide_eq_true (Nat.mod_lt r (by omega))
  rw [hone, Bool.not_true, Bool.and_false, Bool.false_or]

/-- The blit of a resolved mode, its bytes readable, is the mode's pixel rule (45_sprite_unaligned.md R204 to R209). -/
theorem blitCells_sprite_pixelBlit {p : Params} (hp : p.wf = true) {x y : Int} {w h : Nat} (hs : onScreen p x y w h)
    (res fb : Memory) {md : DrawMode} {b fr mask mf : Nat} (hread : spriteReadable p md x y b fr mask mf w h) :
    ∃ fb', blitCells p x y w h (spriteFetch p res md (frameAddr md b fr w h) (maskAddr mask mf w h) w)
        (spriteCombine md) fb = .ok fb' ∧
      MapsFb p fb fb' (pixelBlit x y w h fun d i r => spritePixel res md b fr mask mf w h d i r) := by
  obtain ⟨himage, hplus, hmask⟩ := hread
  rw [frameAddr_eq_spriteImage]
  cases md with
  | selfmask => exact blitCells_plain_pixelBlit hp hs res combineOr_acts fb 0xFF himage
  | erasemask => exact blitCells_plain_pixelBlit hp hs res combineClear_acts fb 0xFF himage
  | unmasked | autodetect =>
    have hblit := blitCells_plain_pixelBlit hp hs res combineMasked_acts fb 0xFF himage
    simp only [combineMasked_under_ones] at hblit
    exact hblit
  | masked =>
    refine blitCells_pair_pixelBlit hp hs res combineMasked_acts fb (srcByte := fun n => spriteImage .masked b fr w h + n)
      (mskByte := fun n => mask + mf * cellCount w h + n) ?_ ?_ himage (hmask rfl)
    · intro a i; push_cast; ring
    · intro a i; unfold maskAddr frameCells cellCount; push_cast; ring
  | plusmask =>
    refine blitCells_pair_pixelBlit hp hs res combineMasked_acts fb
      (srcByte := fun n => spriteImage .plusmask b fr w h + 2 * n)
      (mskByte := fun n => spriteImage .plusmask b fr w h + 2 * n + 1) ?_ ?_ himage (hplus rfl)
    · intro a i; push_cast; ring
    · intro a i; push_cast; ring

/-- Past a readable header of a bitmap that is not empty, SPRITE is one blit (45_sprite_unaligned.md R210). -/
theorem drawSprite_of_header {s : State} {b : Nat} (hb : b < 65536) (hheader : resReadable s.params b 2)
    (hw : (s.res.read b).toNat ≠ 0) (hh : (s.res.read ((b + 1) % 65536)).toNat ≠ 0) (md : DrawMode) (f mask mf : Nat) :
    drawSprite s md b f mask mf =
      blitCells s.params (s16 (s.arg 0)) (s16 (s.arg 1)) (s.res.read b).toNat (s.res.read ((b + 1) % 65536)).toNat
        (spriteFetch s.params s.res md
          (frameAddr md b f (s.res.read b).toNat (s.res.read ((b + 1) % 65536)).toNat)
          (maskAddr mask mf (s.res.read b).toNat (s.res.read ((b + 1) % 65536)).toNat) (s.res.read b).toNat)
        (spriteCombine md) s.fb := by
  obtain ⟨hwidth, hheight⟩ := header_readable s.res hb hheader
  unfold drawSprite
  rw [hwidth, hheight]
  exact if_neg (by tauto)

/-- Settles O34: past its header SPRITE is one blit, whose fetch and combine are those of the resolved mode. -/
theorem spritePixels : Obligations.SpritePixels := by
  intro m s x y b f mask mf w h md hp hb hmask hheader hw hh hs hread
  have hmode : resolveMode m mask = md := resolveMode_eq m mask
  rw [exec_sprite_of_operands hb hmask, hmode, drawSprite_of_header (addr_lt _) hheader hw hh]
  exact concludeFb_mapsPixels (blitCells_sprite_pixelBlit hp hs s.res s.fb hread)

/-! ## The mode requested and the mode drawn -/

theorem resolveMode_idem (m : DrawMode) (mask : Nat) : resolveMode (resolveMode m mask) mask = resolveMode m mask := by
  cases m with
  | autodetect => by_cases hmask : mask = 0 <;> simp [resolveMode, hmask]
  | unmasked | selfmask | erasemask | masked | plusmask => rfl

/-- Requesting the resolved mode draws the same: the mode counts through its resolution alone
(45_sprite_unaligned.md R202). -/
theorem exec_sprite_resolveMode (m : DrawMode) (s : State) :
    exec (.sprite (resolveMode m (addr (s.arg 4)))) s = exec (.sprite m) s := by
  change execSprite _ s = execSprite m s
  unfold execSprite
  dsimp only
  rw [resolveMode_idem]

theorem exec_agree_refl (i : Instr) (s : State) : Agree (exec i s) (exec i s) id := by
  obtain ⟨t, -, hrun, -⟩ := exec_concludes i s
  exact ⟨t, t, hrun, hrun, rfl, fun _ => rfl⟩

/-- Settles O35: the two requests resolve to the same mode. -/
theorem spriteAutodetect : Obligations.SpriteAutodetect := by
  intro s
  have hresolved : exec (.sprite (if addr (s.arg 4) ≠ 0 then .masked else .unmasked)) s = exec (.sprite .autodetect) s :=
    exec_sprite_resolveMode .autodetect s
  rw [hresolved]
  exact exec_agree_refl _ s

/-! ## The null mask -/

/-- The three ways SPRITE goes: a null bitmap, a null mask in MASKED, or a drawing (45_sprite_unaligned.md R203, R210). -/
theorem exec_sprite_cases {m : DrawMode} {s t : State} (hrun : exec (.sprite m) s = .next t) :
    (addr (s.arg 2) = 0 ∧ t = finishDone s) ∨
    ((m = .masked ∧ addr (s.arg 4) = 0 ∧ addr (s.arg 2) ≠ 0) ∧ t = raiseErr .nullMask s) ∨
    concludeFb s (drawSprite s (resolveMode m (addr (s.arg 4))) (addr (s.arg 2)) (u8 (s.arg 3)) (addr (s.arg 4))
      (u8 (s.arg 5))) = .next t := by
  change execSprite m s = .next t at hrun
  unfold execSprite at hrun
  dsimp only at hrun
  split at hrun
  case isTrue hb => exact .inl ⟨hb, (Host.Outcome.next.inj hrun).symm⟩
  case isFalse hb =>
    split at hrun
    case isTrue hnull =>
      obtain ⟨hmode, hmask⟩ := hnull
      exact .inr (.inl ⟨⟨masked_of_resolveMode hmode hmask, hmask, hb⟩, (Host.Outcome.next.inj hrun).symm⟩)
    case isFalse => exact .inr (.inr hrun)

theorem exec_sprite_nullMask {s : State} (hb : addr (s.arg 2) ≠ 0) (hmask : addr (s.arg 4) = 0) :
    exec (.sprite .masked) s = .next (raiseErr .nullMask s) :=
  (if_neg hb).trans (if_pos ⟨rfl, hmask⟩)

/-- Settles O36: of SPRITE's endings only its refusal is an ERR. -/
theorem spriteNullMask : Obligations.SpriteNullMask := by
  intro m s
  refine ⟨?_, fun t hrun herr => ?_⟩
  · rintro rfl hmask hb
    exact exec_sprite_nullMask hb hmask
  · rcases exec_sprite_cases hrun with ⟨-, rfl⟩ | ⟨hnull, -⟩ | hdraw
    · cases herr
    · exact hnull
    · rcases concludeFb_cases s t _ hdraw with ⟨fb, -, rfl⟩ | ⟨r, -, rfl⟩ <;> cases herr

/-! ## The writes of a blit -/

/-- `m'` comes from `m` by writes of the combine `f`, at any addresses and of any bytes. -/
def Combines (f : Combine) : Memory → Memory → Prop :=
  Relation.ReflTransGen fun m m' => ∃ k sb mb, m' = combineAt m k f sb mb

theorem combines_combineAt {f : Combine} (ok : Bool) (m : Memory) (k : Nat) (sb mb : Byte) :
    Combines f m (if ok = true then combineAt m k f sb mb else m) := by
  split
  · exact .single ⟨k, sb, mb, rfl⟩
  · exact .refl

theorem foldlM_combines {α : Type} {f : Combine} (draw : Memory → α → Except Undefined Memory)
    (hdraw : ∀ a m m', draw m a = .ok m' → Combines f m m') (l : List α) {m m' : Memory} (h : l.foldlM draw m = .ok m') :
    Combines f m m' := by
  induction l generalizing m with
  | nil => cases h; exact .refl
  | cons a l ih =>
    rw [List.foldlM_cons] at h
    cases hhead : draw m a with
    | error r => rw [hhead] at h; cases h
    | ok m1 =>
      rw [hhead] at h
      exact (hdraw a m m1 hhead).trans (ih h)

theorem blitStep_combines {p : Params} {g : BlitGeom} {x : Int} {fetch : Fetch} {f : Combine} (cell : Int × Int)
    (m m' : Memory) (h : blitStep p g x fetch f m cell = .ok m') : Combines f m m' := by
  unfold blitStep at h
  cases hfetch : fetch cell.1 cell.2 with
  | error r => rw [hfetch] at h; cases h
  | ok bytes =>
    rw [hfetch] at h
    cases h
    exact (combines_combineAt (g.loOk p cell.1) m _ _ _).trans (combines_combineAt (g.hiOk p cell.1) _ _ _ _)

theorem blitCells_combines {p : Params} {x y : Int} {w h : Nat} {fetch : Fetch} {f : Combine} {m m' : Memory}
    (hrun : blitCells p x y w h fetch f m = .ok m') : Combines f m m' := by
  unfold blitCells at hrun
  split at hrun
  · cases hrun; exact .refl
  · exact foldlM_combines _ blitStep_combines _ hrun

theorem drawSprite_combines {s : State} {md : DrawMode} {b f mask mf : Nat} {fb : Memory}
    (h : drawSprite s md b f mask mf = .ok fb) : Combines (spriteCombine md) s.fb fb := by
  unfold drawSprite at h
  split at h
  · cases h
  · split at h
    · cases h
    · split at h
      · cases h; exact .refl
      · exact blitCells_combines h

/-- A SPRITE that ends in DONE writes FB with the combine of its resolved mode alone (45_sprite_unaligned.md R210). -/
theorem exec_sprite_combines {m : DrawMode} {s t : State} (hrun : exec (.sprite m) s = .next t)
    (hdone : t.lastOutcome = some .done) : Combines (spriteCombine (resolveMode m (addr (s.arg 4)))) s.fb t.fb := by
  rcases exec_sprite_cases hrun with ⟨-, rfl⟩ | ⟨-, rfl⟩ | hdraw
  · exact .refl
  · cases hdone
  · rcases concludeFb_cases s t _ hdraw with ⟨fb, hfb, rfl⟩ | ⟨r, -, rfl⟩
    · exact drawSprite_combines hfb
    · cases hdone

/-! ## One-way modes -/

/-- Every 1-bit of `m` is a 1-bit of `m'`. -/
def KeepsOnes (m m' : Memory) : Prop := ∀ k j, (m.read k).getLsbD j = true → (m'.read k).getLsbD j = true

theorem combineAt_or_keepsOnes (m : Memory) (k : Nat) (sb mb : Byte) : KeepsOnes m (combineAt m k combineOr sb mb) := by
  intro n j hone
  rw [combineAt, Memory.read_write]
  split
  case isTrue hn => subst hn; simp [combineOr, hone]
  case isFalse => exact hone

theorem combineAt_clear_keepsOnes (m : Memory) (k : Nat) (sb mb : Byte) :
    KeepsOnes (combineAt m k combineClear sb mb) m := by
  intro n j hone
  rw [combineAt, Memory.read_write] at hone
  split at hone
  case isTrue hn =>
    subst hn
    rw [combineClear, BitVec.getLsbD_and] at hone
    exact (Bool.and_eq_true_iff.1 hone).1
  case isFalse => exact hone

/-- Or sets 1-bits only (45_sprite_unaligned.md R206). -/
theorem Combines.or_keepsOnes {m m' : Memory} (h : Combines combineOr m m') : KeepsOnes m m' := by
  induction h with
  | refl => exact fun _ _ hone => hone
  | tail _ hwrite ih =>
    obtain ⟨k, sb, mb, rfl⟩ := hwrite
    exact fun n j hone => combineAt_or_keepsOnes _ k sb mb n j (ih n j hone)

/-- Clear clears 1-bits only (45_sprite_unaligned.md R207). -/
theorem Combines.clear_keepsOnes {m m' : Memory} (h : Combines combineClear m m') : KeepsOnes m' m := by
  induction h with
  | refl => exact fun _ _ hone => hone
  | tail _ hwrite ih =>
    obtain ⟨k, sb, mb, rfl⟩ := hwrite
    exact fun n j hone => ih n j (combineAt_clear_keepsOnes _ k sb mb n j hone)

/-- Settles O37: SELFMASK writes FB with Or alone and ERASEMASK with Clear alone. -/
theorem spriteOneWay : Obligations.SpriteOneWay :=
  fun _ _ hdone => ⟨fun hrun => (exec_sprite_combines hrun hdone).or_keepsOnes,
    fun hrun => (exec_sprite_combines hrun hdone).clear_keepsOnes⟩

end Sys2Proof.Machine
end

section
/-! PROOFS of 46_rle_decoder.md R230 to R240: DRAWCOMP is the pixel-by-pixel reference of its decoded stream, and a
malformed span ends it in UNDEFINED(RLE_OVERRUN). -/

namespace Sys2Proof.Machine

/-! ## The cells in scan order -/

/-- Byte `v` composited into cell number `k` of the scan (46_rle_decoder.md R236, R238). -/
def emitScanned (p : Params) (g : BlitGeom) (x : Int) (col : Bool) (w k : Nat) (v : Byte) (fb : Memory) : Memory :=
  emitCell p g x col (cellOf p.scanOrder w g.rows k) v fb

/-- DRAWCOMP's combine of a colour is BITMAP's (46_rle_decoder.md R238). -/
theorem compCombine_eq_bitmapCombine {c : Colour} {ink : Bool} (hc : inkOf c = some ink) :
    compCombine ink = bitmapCombine c := by
  cases c with
  | black => cases hc; rfl
  | white => cases hc; rfl
  | invert => cases hc

/-- Cell number `k` covers a pixel exactly when the pixel is under the bitmap and `k` is the scan number of the cell of
its source pixel. -/
theorem inCell_cellOf_iff (order : ScanOrder) {w h k : Nat} (hk : k < cellCount w h) (x y X Y : Int) :
    InCell x y X Y (cellOf order w ((h + 7) / 8) k).1 (cellOf order w ((h + 7) / 8) k).2 ↔
      (x ≤ X ∧ X < x + w ∧ y ≤ Y ∧ Y < y + 8 * ((h + 7) / 8 : Nat)) ∧
        k = scanNumber order w h ((Y - y).toNat / 8) (X - x).toNat := by
  constructor
  · obtain ⟨a, i, ha, hi, rfl⟩ := exists_scanNumber order w h k hk
    rw [(cellOf_scanNumber order w h a i ha hi).2]
    rintro ⟨hX, hY⟩
    have hrow : (Y - y).toNat / 8 = a := by omega
    have hcolumn : (X - x).toNat = i := by omega
    exact ⟨by omega, by rw [hrow, hcolumn]⟩
  · rintro ⟨hunder, rfl⟩
    rw [(cellOf_scanNumber order w h _ _ (by omega) (by omega)).2]
    exact ⟨by omega, by omega⟩

theorem cellOf_column (order : ScanOrder) {w h k : Nat} (hk : k < cellCount w h) :
    0 ≤ (cellOf order w ((h + 7) / 8) k).2 ∧ (cellOf order w ((h + 7) / 8) k).2 < w := by
  obtain ⟨a, i, ha, hi, rfl⟩ := exists_scanNumber order w h k hk
  rw [(cellOf_scanNumber order w h a i ha hi).2]
  exact ⟨by omega, by omega⟩

section
variable {p : Params} (hp : p.wf = true) {x y : Int} {w h : Nat} {g : BlitGeom} (hg : blitGeometry p x y w h = some g)
  {c : Colour} {ink : Bool} (hc : inkOf c = some ink)
include hp hg hc

/-- The byte of one cell number is drawn under its own source pixels and nowhere else (46_rle_decoder.md R238). -/
theorem emitScanned_pixel {k : Nat} (hk : k < cellCount w h) (v : Byte) (fb : Memory) {X Y : Int}
    (hin : inBuffer p X Y = true) :
    pixelRead p (emitScanned p g x ink w k v fb) X Y =
      if (x ≤ X ∧ X < x + w ∧ y ≤ Y ∧ Y < y + 8 * ((h + 7) / 8 : Nat)) ∧
          k = scanNumber p.scanOrder w h ((Y - y).toNat / 8) (X - x).toNat then
        bitmapPixel c (pixelRead p fb X Y) (v.getLsbD ((Y - y) % 8).toNat)
      else pixelRead p fb X Y := by
  obtain ⟨-, -, -, -, hrows, -⟩ := blitGeometry_cases p x y w h g hg
  have hacts : ActsAs (compCombine ink) fun d src _ => bitmapPixel c d src := by
    rw [compCombine_eq_bitmapCombine hc]
    exact bitmapCombine_acts c
  obtain ⟨hleft, hright⟩ := cellOf_column p.scanOrder hk
  unfold emitScanned
  rw [hrows, emitCell_pixel p (wf_height p hp) x y w h g hg ink _ hacts _ v fb hleft hright X Y hin]
  simp only [inCell_cellOf_iff p.scanOrder hk]

/-- All cells drawn in scan order: each source pixel is drawn once, by the cell of its scan number
(46_rle_decoder.md R236, R238). -/
theorem emitAll_pixel (byte : Nat → Byte) (fb : Memory) {X Y : Int} (hin : inBuffer p X Y = true) :
    pixelRead p ((List.range (cellCount w h)).foldl (fun m k => emitScanned p g x ink w k (byte k) m) fb) X Y =
      pixelBlit x y w h (fun d i r => bitmapPixel c d ((byte (scanNumber p.scanOrder w h (r / 8) i)).getLsbD (r % 8)))
        X Y (pixelRead p fb X Y) := by
  unfold pixelBlit
  split
  case isTrue hunder =>
    have hk0 := (cellOf_scanNumber p.scanOrder w h ((Y - y).toNat / 8) (X - x).toNat (by omega) (by omega)).1
    have hbit : ((Y - y) % 8).toNat = (Y - y).toNat % 8 := by omega
    refine fold_once p _ _ X Y fb List.nodup_range _ (List.mem_range.2 hk0) (fun d => bitmapPixel c d _)
      (fun m => ?_) fun k hk hne m => ?_
    · rw [emitScanned_pixel hp hg hc hk0 _ m hin, if_pos ⟨hunder, rfl⟩, hbit]
    · rw [emitScanned_pixel hp hg hc (List.mem_range.1 hk) _ m hin, if_neg fun hcell => hne hcell.2]
  case isFalse hclear =>
    refine fold_untouched p _ _ X Y fb fun k hk m => ?_
    rw [emitScanned_pixel hp hg hc (List.mem_range.1 hk) _ m hin, if_neg fun hcell => hclear hcell.1]

end

/-! ## The stream up to its spans -/

section
variable {s : State} (col : Bool) {x y : Int} {st w h : Nat} {start : Bool} {spans : List (Nat × Nat)} {rest : List Bool}
  (hw1 : 1 ≤ w) (hw : w ≤ 256) (hh1 : 1 ≤ h) (hh : h ≤ 256) (hs : onScreen s.params x y w h)
  (hheld : streamHolds s.params s.res st (streamCode w h start spans ++ rest))
include hw1 hw hh1 hh hs hheld

/-- A stream whose header is read: what is left is the span loop over every cell, at the code of the first span. -/
theorem drawCompressed_stream :
    ∃ g r, blitGeometry s.params x y w h = some g ∧ ReaderAt s.res st 17 r ∧
      HoldsFrom s.params s.res st 17 ((spans.flatMap fun q => spanCode q.1 q.2) ++ rest) ∧
      drawCompressed s col x y st = decodeSpans s.params s.res (cellCount w h) (emitScanned s.params g x col w)
        (8 * cellCount w h + 1) start r ⟨s.fb, 0, 0, 0⟩ := by
  have hsplit : streamCode w h start spans ++ rest = bitsLE 8 (w - 1) ++ bitsLE 8 (h - 1) ++
      start :: ((spans.flatMap fun q => spanCode q.1 q.2) ++ rest) := by
    simp [streamCode]
  rw [hsplit] at hheld
  obtain ⟨g, r, hg, hat, hrest, hdraw⟩ := drawCompressed_header s col x y st w h start _ hw1 hw hh1 hh hs hheld
  obtain ⟨-, -, -, -, hrows, -⟩ := blitGeometry_cases s.params x y w h g hg
  have htotal : w * g.rows = cellCount w h := by rw [hrows]; rfl
  rw [htotal] at hdraw
  exact ⟨g, r, hg, hat, hrest, hdraw⟩

/-- A stream whose spans do not yet fill the bitmap: the span loop comes to what follows them, their pixels taken. -/
theorem drawCompressed_through (hspans : ∀ q ∈ spans, spanFits q)
    (hroom : (spans.map fun q => q.2).sum < 8 * cellCount w h) :
    ∃ emit fuel n color r c, drawCompressed s col x y st =
        decodeSpans s.params s.res (cellCount w h) emit (fuel + 1) color r c ∧
      ReaderAt s.res st n r ∧ HoldsFrom s.params s.res st n rest ∧
      CursorAt emit s.fb (spanPixels start spans) c ∧ c.k < cellCount w h := by
  obtain ⟨g, r, -, hat, hrest, hdraw⟩ := drawCompressed_stream col hw1 hw hh1 hh hs hheld
  have hcount := length_le_sum_spans spans hspans
  obtain ⟨fuel, color, r', c, hloop, hat', hrest', hcursor, hk⟩ := decodeSpans_through s.params s.res st
    (cellCount w h) (emitScanned s.params g x col w) s.fb spans (8 * cellCount w h + 1) 17 start r [] _ rest (by omega)
    hspans (by rw [List.length_nil]; omega) hat hrest (cursorAt_start _ s.fb)
  exact ⟨_, fuel, _, color, r', c, hdraw.trans hloop, hat', hrest', hcursor, hk⟩

end

/-! ## Well-formed streams -/

/-- A well-formed stream draws the pixels of its spans in scan order (46_rle_decoder.md R240). -/
theorem drawCompressed_pixelBlit {s : State} (hp : s.params.wf = true) {c : Colour} {ink : Bool}
    (hc : inkOf c = some ink) {x y : Int} {st w h : Nat} {start : Bool} {spans : List (Nat × Nat)} (hw1 : 1 ≤ w)
    (hw : w ≤ 256) (hh1 : 1 ≤ h) (hh : h ≤ 256) (hs : onScreen s.params x y w h) (hspans : ∀ q ∈ spans, spanFits q)
    (hfill : (spans.map fun q => q.2).sum = 8 * cellCount w h)
    (hheld : streamHolds s.params s.res st (streamCode w h start spans)) :
    ∃ fb', drawCompressed s ink x y st = .ok fb' ∧ MapsFb s.params s.fb fb' (pixelBlit x y w h fun d i r =>
      bitmapPixel c d (decodedPixel s.params.scanOrder w h (spanPixels start spans) i r)) := by
  obtain ⟨g, r, hg, hat, hrest, hdraw⟩ := drawCompressed_stream (rest := []) ink hw1 hw hh1 hh hs
    (by rwa [List.append_nil])
  rw [List.append_nil] at hrest
  have hcount := length_le_sum_spans spans hspans
  rw [decodeSpans_held s.params s.res st (cellCount w h) (emitScanned s.params g x ink w) s.fb spans _ 17 start r []
    _ (by omega) hspans (by rw [List.length_nil]; omega) hat hrest (cursorAt_start _ s.fb)] at hdraw
  refine ⟨_, hdraw, fun X Y hin => ?_, (drawCompressed_writes s ink x y st _ hdraw).read_outside⟩
  have hbyte : ∀ n j, (byteOf (spanPixels start spans) n).getLsbD (j % 8) =
      (spanPixels start spans).getD (8 * n + j % 8) false :=
    fun n j => getLsbD_byteOf _ n _ (Nat.mod_lt j (by omega))
  rw [List.nil_append, emitAll_pixel hp hg hc _ s.fb hin]
  simp only [hbyte, decodedPixel]

/-- Settles O39: the span loop emits every cell once, in scan order, with the pixels of the spans, and each emitted cell
is drawn by its colour's combine. -/
theorem drawcompDecodes : Obligations.DrawcompDecodes := by
  intro c ink s w h start spans hc x y st hp hst hw1 hw hh1 hh hs hspans hfill hheld
  rw [exec_drawcomp_of_operands hc hst]
  exact concludeFb_mapsPixels (drawCompressed_pixelBlit hp hc hw1 hw hh1 hh hs hspans hfill hheld)

/-! ## Malformed streams -/

/-- The code of one more span stands at the end of the stream. -/
theorem streamCode_snoc (w h : Nat) (start : Bool) (spans : List (Nat × Nat)) (z len : Nat) :
    streamCode w h start (spans ++ [(z, len)]) = streamCode w h start spans ++ spanCode z len := by
  simp [streamCode]

section
variable {s : State} (col : Bool) {x y : Int} {st w h : Nat} {start : Bool} {spans : List (Nat × Nat)}
  (hw1 : 1 ≤ w) (hw : w ≤ 256) (hh1 : 1 ≤ h) (hh : h ≤ 256) (hs : onScreen s.params x y w h)
  (hspans : ∀ q ∈ spans, spanFits q) (hroom : (spans.map fun q => q.2).sum < 8 * cellCount w h)
include hw1 hw hh1 hh hs hspans hroom

/-- Sixteen zeros where a span's code should begin are malformed (46_rle_decoder.md R234). -/
theorem drawCompressed_unary_overrun
    (hheld : streamHolds s.params s.res st (streamCode w h start spans ++ List.replicate 16 false)) :
    drawCompressed s col x y st = .error .rleOverrun := by
  obtain ⟨emit, fuel, n, color, r, c, hloop, hat, hrest, -, hk⟩ :=
    drawCompressed_through col hw1 hw hh1 hh hs hheld hspans hroom
  exact hloop.trans (decodeSpans_unary_overrun s.params s.res st n _ emit fuel color r c hk hat hrest)

/-- A span past the last pixel is malformed (46_rle_decoder.md R239). -/
theorem drawCompressed_span_overrun {z len : Nat} (hspan : spanFits (z, len))
    (hlong : 8 * cellCount w h < (spans.map fun q => q.2).sum + len)
    (hheld : streamHolds s.params s.res st (streamCode w h start (spans ++ [(z, len)]))) :
    drawCompressed s col x y st = .error .rleOverrun := by
  rw [streamCode_snoc] at hheld
  obtain ⟨emit, fuel, n, color, r, c, hloop, hat, hrest, hcursor, hk⟩ :=
    drawCompressed_through col hw1 hw hh1 hh hs hheld hspans hroom
  have hlength := length_spanPixels start spans
  exact hloop.trans (decodeSpans_span_overrun s.params s.res st n _ emit s.fb _ fuel color r c z len hk hat hspan hrest
    hcursor (by omega) (by omega))

end

/-- Settles O40: the span loop comes to the malformed span with the pixels before it taken, and either its class or its
length ends the command. -/
theorem drawcompMalformed : Obligations.DrawcompMalformed := by
  intro c ink s w h start spans hc st drawn hst hw1 hw hh1 hh hs hspans hroom hbad
  have hoverrun : drawCompressed s ink (s16 (s.arg 0)) (s16 (s.arg 1)) st = .error .rleOverrun := by
    rcases hbad with hzeros | ⟨z, len, hspan, hlong, hheld⟩
    · exact drawCompressed_unary_overrun ink hw1 hw hh1 hh hs hspans hroom hzeros
    · exact drawCompressed_span_overrun ink hw1 hw hh1 hh hs hspans hroom hspan hlong hheld
  refine ⟨raiseUndefined .rleOverrun s, ?_, raiseUndefined_keeps .rleOverrun s⟩
  rw [exec_drawcomp_of_operands hc hst, hoverrun, concludeFb_error]

end Sys2Proof.Machine
end

section
/-! PROOFS of 47_affine.md R260 to R272: the rotation vector, and where the pixels of a rotated frame land. -/

namespace Sys2Proof.Machine

/-! ## The rotation vector -/

theorem exec_rotvec (s : State) :
    exec .rotvec s = .next (finishDone { s with
      result0 := toWord (sineOf s.params ((s16 (s.arg 0) + 90) % 360).toNat)
      result1 := toWord (sineOf s.params (s16 (s.arg 0) % 360).toNat) }) := by
  rw [← rotCos_eq, ← rotSin_eq]
  rfl

/-- Settles O41: the model's sine, mirrored and negated by half turns, is the sine quadrant by quadrant. -/
theorem rotvecValues : Obligations.RotvecValues := exec_rotvec

/-- A legal table starts at sine 0 (00_scope.md R11). -/
theorem sinTable_zero {p : Params} (hp : p.wf = true) : p.sinTable.getD 0 0 = 0 := by
  simp only [Params.wf, Bool.and_eq_true, decide_eq_true_eq] at hp
  obtain ⟨⟨⟨-, hlength⟩, -⟩, hfirst⟩ := hp
  have hpos : 0 < p.sinTable.length := by omega
  rw [List.getD_eq_getElem _ _ hpos] at hfirst ⊢
  exact hfirst

theorem sineOf_zero {p : Params} (hp : p.wf = true) : sineOf p 0 = 0 :=
  congrArg Nat.cast (sinTable_zero hp)

theorem sineOf_quarterTurn (p : Params) : sineOf p 90 = 127 := rfl

theorem sineOf_halfTurn {p : Params} (hp : p.wf = true) : sineOf p 180 = 0 :=
  neg_eq_zero.2 (sineOf_zero hp)

/-- Settles O42: the angle counts through its remainder mod 360, where the table gives the sines of 0, 90 and 180. -/
theorem rotationSymmetry : Obligations.RotationSymmetry := by
  intro s hp
  refine ⟨fun hangle => ⟨_, exec_rotvec s, ?_, ?_⟩, fun hangle => ⟨_, exec_rotvec s, ?_, ?_⟩,
    fun A hturn => ⟨_, _, exec_rotvec s, exec_rotvec { s with args := A }, ?_, ?_⟩⟩
  · rw [finishDone_result0, hangle]
    exact congrArg toWord (sineOf_quarterTurn s.params)
  · rw [finishDone_result1, hangle]
    exact congrArg toWord (sineOf_zero hp)
  · rw [finishDone_result0, hangle]
    exact congrArg toWord (sineOf_halfTurn hp)
  · rw [finishDone_result1, hangle]
    exact congrArg toWord (sineOf_quarterTurn s.params)
  · have hcos : (s16 A[0] + 90) % 360 = (s16 (s.arg 0) + 90) % 360 := by omega
    exact congrArg (fun d : Int => toWord (sineOf s.params d.toNat)) hcos
  · have hsin : s16 A[0] % 360 = s16 (s.arg 0) % 360 := by omega
    exact congrArg (fun d : Int => toWord (sineOf s.params d.toNat)) hsin

/-! ## The last source pixel to land decides -/

theorem exists_last_of_mem {α : Type} {P : α → Prop} {l : List α} (h : ∃ v ∈ l, P v) :
    ∃ l1 v l2, l = l1 ++ v :: l2 ∧ P v ∧ ∀ u ∈ l2, ¬ P u := by
  induction l with
  | nil => simp at h
  | cons a l ih =>
    by_cases hlater : ∃ v ∈ l, P v
    · obtain ⟨l1, v, l2, rfl, hv, hlast⟩ := ih hlater
      exact ⟨a :: l1, v, l2, rfl, hv, hlast⟩
    · refine ⟨[], a, l, rfl, ?_, fun u hu hPu => hlater ⟨u, hu, hPu⟩⟩
      obtain ⟨v, hv, hPv⟩ := h
      rcases List.mem_cons.1 hv with rfl | hv
      · exact hPv
      · exact absurd ⟨v, hv, hPv⟩ hlater

/-- Each pixel of `fb'` holds the bit of the last source pixel, in column order, that `writes` it; one that none writes is
as in `fb` (47_affine.md R268, R270). -/
def LastWriterDecides (p : Params) (fb fb' : Memory) (writes : Nat → Nat → Int → Int → Prop)
    (bit : Nat → Nat → Bool) : Prop :=
  ∀ a d, inBuffer p a d = true →
    ((¬ ∃ i j, writes i j a d) → pixelRead p fb' a d = pixelRead p fb a d) ∧
    ((∃ i j, writes i j a d) → ∃ i j, writes i j a d ∧
      (∀ i' j', writes i' j' a d → i' < i ∨ (i' = i ∧ j' ≤ j)) ∧ pixelRead p fb' a d = bit i j)

/-- A visit writes pixel (a, d): it lands there, and SELFMASK writes a 1 alone (47_affine.md R270). -/
def Visit.writes (v : Visit) (selfMask : Bool) (bit : Nat → Nat → Bool) (a d : Int) : Prop :=
  intPart v.px = a ∧ intPart v.py = d ∧ (selfMask = false ∨ bit v.i v.j = true)

/-- A run of visits in column order, every source pixel readable. -/
theorem visits_lastWriterDecides {p : Params} {res : Memory} {src : Int} {w : Nat} (selfMask : Bool)
    {bit : Nat → Nat → Bool} {l : List Visit} (hread : ∀ v ∈ l, sourcePixel p res src w v.i v.j = .ok (bit v.i v.j))
    (hordered : l.Pairwise fun u v => u.i < v.i ∨ (u.i = v.i ∧ u.j < v.j)) (fb : Memory) :
    ∃ fb', l.foldlM (visitPixel p res src w selfMask) fb = .ok fb' ∧
      LastWriterDecides p fb fb' (fun i j a d => ∃ v ∈ l, v.i = i ∧ v.j = j ∧ v.writes selfMask bit a d) bit := by
  obtain ⟨fb', hrun, hpixels⟩ := visits_pixel p res src w selfMask (fun v => bit v.i v.j) l hread fb
  refine ⟨fb', hrun, fun a d hin => ?_⟩
  obtain ⟨huntouched, hdecides⟩ := hpixels a d hin
  refine ⟨fun hnone => huntouched fun v hv hwrites => hnone ⟨v.i, v.j, v, hv, rfl, rfl, hwrites⟩, ?_⟩
  rintro ⟨-, -, v0, hv0, -, -, hwrites0⟩
  obtain ⟨l1, v, l2, rfl, hwrites, hlast⟩ :=
    exists_last_of_mem (P := (Visit.writes · selfMask bit a d)) ⟨v0, hv0, hwrites0⟩
  refine ⟨v.i, v.j, ⟨v, by simp, rfl, rfl, hwrites⟩, ?_, hdecides l1 v l2 rfl hwrites hlast⟩
  rintro _ _ ⟨u, hu, rfl, rfl, hwritesU⟩
  obtain ⟨-, -, hbefore⟩ := List.pairwise_append.1 hordered
  rcases List.mem_append.1 hu with hfirst | htail
  · have := hbefore u hfirst v (by simp)
    omega
  · rcases List.mem_cons.1 htail with rfl | hlater
    · exact .inr ⟨rfl, le_refl _⟩
    · exact absurd hwritesU (hlast u hlater)

/-! ## The walk over a frame -/

/-- Source pixel (i, j) of a w × h frame lands on pixel (a, d), with the position, angle and scale of `s`. -/
def rotLands (s : State) (w h i j : Nat) (a d : Int) : Prop :=
  i < w ∧ j < h ∧ landsX s.params (s16 (s.arg 0)) w h (s16 (s.arg 4)) (u8 (s.arg 5)) i j = a ∧
    landsY s.params (s16 (s.arg 1)) w h (s16 (s.arg 4)) (u8 (s.arg 5)) i j = d

/-- Source pixel (i, j), of value `bit i j`, is written on pixel (a, d). -/
def rotWrites (s : State) (selfMask : Bool) (w h : Nat) (bit : Nat → Nat → Bool) (i j : Nat) (a d : Int) : Prop :=
  rotLands s w h i j a d ∧ (selfMask = false ∨ bit i j = true)

/-- Source pixel (i, j) of the frame at `src` (47_affine.md R269). -/
def frameBit (res : Memory) (src w i j : Nat) : Bool := resBit res (src + cellIndex w i j) j

theorem rotVisits_lastWriterDecides (s : State) {w h src : Nat} (selfMask : Bool)
    (hread : resReadable s.params src (cellCount w h)) :
    ∃ fb', (rotVisits s.params (s16 (s.arg 0)) (s16 (s.arg 1)) w h (s16 (s.arg 4)) (u8 (s.arg 5))).foldlM
        (visitPixel s.params s.res src w selfMask) s.fb = .ok fb' ∧
      LastWriterDecides s.params s.fb fb' (rotWrites s selfMask w h (frameBit s.res src w)) (frameBit s.res src w) := by
  obtain ⟨px, py, hvisits, hpx, hpy⟩ :=
    rotVisits_eq s.params (s16 (s.arg 0)) (s16 (s.arg 1)) w h (s16 (s.arg 4)) (u8 (s.arg 5))
  have hmem := mem_visits w h px py
  obtain ⟨fb', hrun, hpixels⟩ := visits_lastWriterDecides selfMask (bit := frameBit s.res src w) (fun v hv => by
    obtain ⟨hi, hj, -, -⟩ := (hmem v).1 hv
    exact sourcePixel_readable s.params s.res src w h v.i v.j hread hi hj) (visits_ordered w h px py) s.fb
  rw [← hvisits] at hrun
  have hwriters : ∀ i j a d, rotWrites s selfMask w h (frameBit s.res src w) i j a d ↔
      ∃ v ∈ (List.range w).flatMap fun i => (List.range h).map fun j => (⟨i, j, px i j, py i j⟩ : Visit),
        v.i = i ∧ v.j = j ∧ v.writes selfMask (frameBit s.res src w) a d := by
    intro i j a d
    constructor
    · rintro ⟨⟨hi, hj, hx, hy⟩, hbit⟩
      exact ⟨⟨i, j, px i j, py i j⟩, (hmem _).2 ⟨hi, hj, rfl, rfl⟩, rfl, rfl, (hpx i j).trans hx,
        (hpy i j).trans hy, hbit⟩
    · rintro ⟨v, hv, rfl, rfl, hx, hy, hbit⟩
      obtain ⟨hi, hj, hvx, hvy⟩ := (hmem v).1 hv
      rw [hvx, hpx] at hx
      rw [hvy, hpy] at hy
      exact ⟨⟨hi, hj, hx, hy⟩, hbit⟩
  refine ⟨fb', hrun, ?_⟩
  simp only [LastWriterDecides, hwriters]
  exact hpixels

/-! ## DRAWROT -/

/-- Past a readable header of a bitmap that is not empty, DRAWROT is one walk over the frame (47_affine.md R272). -/
theorem drawRotated_of_header {s : State} {b : Nat} (hb : b < 65536) (hheader : resReadable s.params b 2)
    (hw : (s.res.read b).toNat ≠ 0) (hh : (s.res.read ((b + 1) % 65536)).toNat ≠ 0) (selfMask : Bool) (f : Nat) :
    drawRotated s selfMask b f =
      (rotVisits s.params (s16 (s.arg 0)) (s16 (s.arg 1)) (s.res.read b).toNat
        (s.res.read ((b + 1) % 65536)).toNat (s16 (s.arg 4)) (u8 (s.arg 5))).foldlM
        (visitPixel s.params s.res
          (b + 2 + f * cellCount (s.res.read b).toNat (s.res.read ((b + 1) % 65536)).toNat : Nat)
          (s.res.read b).toNat selfMask) s.fb := by
  obtain ⟨hwidth, hheight⟩ := header_readable s.res hb hheader
  unfold drawRotated
  rw [hwidth, hheight]
  exact if_neg (by tauto)

/-- Both modes of DRAWROT on a readable frame: DONE, only bytes of FB changed, and the last writer of a pixel decides. -/
theorem drawRotMode_lastWriterDecides {s : State} (hp : s.params.wf = true) (hb : addr (s.arg 2) ≠ 0)
    (hheader : resReadable s.params (addr (s.arg 2)) 2) {w h src : Nat} (hwidth : (s.res.read (addr (s.arg 2))).toNat = w)
    (hheight : (s.res.read ((addr (s.arg 2) + 1) % 65536)).toNat = h)
    (hsrc : addr (s.arg 2) + 2 + u8 (s.arg 3) * cellCount w h = src) (hw : w ≠ 0) (hh : h ≠ 0)
    (hread : resReadable s.params src (cellCount w h)) (selfMask : Bool) :
    ∃ t : State, drawRotMode selfMask s = .next t ∧ DoneFb s t ∧
      (∀ k, s.params.fbBytes ≤ k → t.fb.read k = s.fb.read k) ∧
      LastWriterDecides s.params s.fb t.fb (rotWrites s selfMask w h (frameBit s.res src w))
        (frameBit s.res src w) := by
  subst hwidth hheight hsrc
  obtain ⟨fb', hrun, hpixels⟩ := rotVisits_lastWriterDecides s selfMask hread
  rw [← drawRotated_of_header (addr_lt _) hheader hw hh] at hrun
  refine ⟨finishDone { s with fb := fb' }, ?_, rfl, ?_, hpixels⟩
  · rw [drawRotMode_of_operands selfMask hb, hrun, concludeFb_ok]
  · exact (drawRotated_writes s (wf_height s.params hp) selfMask _ _ fb' hrun).read_outside

/-- Settles O43: in OVERWRITE every source pixel that lands is a writer; in SELFMASK the writers are the 1s that land, so
a pixel with a writer holds a 1. -/
theorem drawrotLands : Obligations.DrawrotLands := by
  intro s b w h src lands bit hp hb hheader hw hh hread
  have hmode := drawRotMode_lastWriterDecides hp hb hheader rfl rfl rfl hw hh hread
  constructor
  · obtain ⟨t, hrun, hdone, houtside, hpixels⟩ := hmode false
    refine ⟨t, hrun, hdone, houtside, fun a d hin => ?_⟩
    obtain ⟨huntouched, hdecides⟩ := hpixels a d hin
    refine ⟨fun hnone => huntouched ?_, fun i j hlands hlast => ?_⟩
    · rintro ⟨i, j, hlands, -⟩
      exact hnone ⟨i, j, hlands⟩
    · obtain ⟨i', j', ⟨hlands', -⟩, hlast', hpixel⟩ := hdecides ⟨i, j, hlands, .inl rfl⟩
      have hle := hlast i' j' hlands'
      have hge := hlast' i j ⟨hlands, .inl rfl⟩
      obtain ⟨rfl, rfl⟩ : i' = i ∧ j' = j := by omega
      exact hpixel
  · obtain ⟨t, hrun, hdone, houtside, hpixels⟩ := hmode true
    refine ⟨t, hrun, hdone, houtside, fun a d hin => ?_⟩
    obtain ⟨huntouched, hdecides⟩ := hpixels a d hin
    by_cases hwriter : ∃ i j, lands i j a d ∧ bit i j = true
    · obtain ⟨i, j, hlands, hone⟩ := hwriter
      obtain ⟨i', j', ⟨-, hone'⟩, -, hpixel⟩ := hdecides ⟨i, j, hlands, .inr hone⟩
      rw [hpixel, hone'.resolve_left (by simp)]
      exact iff_of_true rfl (.inr ⟨i, j, hlands, hone⟩)
    · rw [huntouched fun ⟨i, j, hlands, hone⟩ => hwriter ⟨i, j, hlands, hone.resolve_left (by simp)⟩,
        or_iff_left hwriter]
      rfl

/-! ## DRAWROT at angle 0 and scale 100 -/

/-- At a multiple of a full turn the scaled sine and cosine are 0 and 1 in 8.8 fixed point (47_affine.md R266, R272). -/
theorem sineStep_fullTurn {p : Params} (hp : p.wf = true) {angle : Int} (hangle : angle % 360 = 0) :
    sineStep p angle 100 = 0 ∧ sineStep p (angle + 90) 100 = 256 := by
  have hcos : (angle + 90) % 360 = 90 := by omega
  unfold sineStep
  rw [hangle, hcos]
  refine ⟨?_, rfl⟩
  rw [show (0 : Int).toNat = 0 from rfl, sineOf_zero hp]
  rfl

theorem landsX_identity {p : Params} (hp : p.wf = true) {angle : Int} (hangle : angle % 360 = 0) (x : Int)
    (w h i j : Nat) : landsX p x w h angle 100 i j = (x + i) % 256 := by
  obtain ⟨hsin, hcos⟩ := sineStep_fullTurn hp hangle
  unfold landsX
  rw [hsin, hcos]
  dsimp only
  omega

theorem landsY_identity {p : Params} (hp : p.wf = true) {angle : Int} (hangle : angle % 360 = 0) (y : Int)
    (w h i j : Nat) : landsY p y w h angle 100 i j = (y + j) % 256 := by
  obtain ⟨hsin, hcos⟩ := sineStep_fullTurn hp hangle
  unfold landsY
  rw [hsin, hcos]
  dsimp only
  omega

theorem wf_width_le {p : Params} (hp : p.wf = true) : p.width ≤ 128 := by
  simp only [Params.wf, Bool.and_eq_true, decide_eq_true_eq] at hp; tauto

theorem wf_height_le {p : Params} (hp : p.wf = true) : p.height ≤ 128 := by
  simp only [Params.wf, Bool.and_eq_true, decide_eq_true_eq] at hp; tauto

/-- Without a wrap, source pixel (i, j) lands at distance (i, j) from the corner. -/
theorem rotLands_identity {s : State} (hp : s.params.wf = true) (hangle : s16 (s.arg 4) % 360 = 0)
    (hscale : u8 (s.arg 5) = 100) {w h : Nat} (hx : -128 ≤ s16 (s.arg 0)) (hx' : s16 (s.arg 0) + w - 1 ≤ 255)
    (hy : -128 ≤ s16 (s.arg 1)) (hy' : s16 (s.arg 1) + h - 1 ≤ 255) {a d : Int} (hin : inBuffer s.params a d = true)
    (i j : Nat) :
    rotLands s w h i j a d ↔ i < w ∧ j < h ∧ s16 (s.arg 0) + i = a ∧ s16 (s.arg 1) + j = d := by
  have hwidth := wf_width_le hp
  have hheight := wf_height_le hp
  rw [inBuffer_iff] at hin
  unfold rotLands
  rw [hscale, landsX_identity hp hangle, landsY_identity hp hangle]
  omega

/-- Settles O44: the one source pixel that can land on a pixel is the one at its distance from the corner, so it is the
last; the two modes differ in when it writes. -/
theorem drawrotIdentity : Obligations.DrawrotIdentity := by
  intro s x y b w h src draw hp hb hheader hw hh hread hangle hscale hx hx' hy hy'
  have hmode : ∀ (selfMask : Bool) (op : Bool → Bool → Bool),
      (∀ old new, op old new = if selfMask = false ∨ new = true then new else old) →
      ∃ t : State, drawRotMode selfMask s = .next t ∧ DoneFb s t ∧ MapsPixels s t (draw op) := by
    intro selfMask op hop
    obtain ⟨t, hrun, hdone, houtside, hpixels⟩ :=
      drawRotMode_lastWriterDecides hp hb hheader rfl rfl rfl hw hh hread selfMask
    refine ⟨t, hrun, hdone, fun a d hin => ?_, houtside⟩
    obtain ⟨huntouched, hdecides⟩ := hpixels a d hin
    have hlands := rotLands_identity hp hangle hscale hx hx' hy hy' hin
    by_cases hwriter : ∃ i j, rotWrites s selfMask w h (frameBit s.res src w) i j a d
    · obtain ⟨i, j, ⟨hland, hbit⟩, -, hpixel⟩ := hdecides hwriter
      obtain ⟨hi, hj, rfl, rfl⟩ := (hlands i j).1 hland
      have hcol : (x + i - x).toNat = i := by omega
      have hrow : (y + j - y).toNat = j := by omega
      have hdraw (old : Bool) : draw op (x + i) (y + j) old = op old (frameBit s.res src w i j) := by
        refine (if_pos (by omega)).trans ?_
        rw [hcol, hrow]
        rfl
      rw [hpixel, hdraw, hop]
      exact (if_pos hbit).symm
    · rw [huntouched hwriter]
      by_cases hbox : x ≤ a ∧ a < x + w ∧ y ≤ d ∧ d < y + h
      · have hland := (hlands (a - x).toNat (d - y).toNat).2 (by omega)
        exact ((if_pos hbox).trans ((hop _ _).trans (if_neg fun hbit => hwriter ⟨_, _, hland, hbit⟩))).symm
      · exact (if_neg hbox).symm
  exact ⟨hmode false (fun _ new => new) (by simp), hmode true (fun old new => old || new) (by decide)⟩

end Sys2Proof.Machine
end

section
/-! PROOFS of 48_glyph.md R290 to R294: a glyph drawn pixel by pixel, and what WRITECHAR does to the cursor. -/

namespace Sys2Proof.Machine

/-! ## A glyph as its pixel-by-pixel reference -/

/-- A glyph whose writes all go through: the writes that reach one pixel agree on its colour (48_glyph.md R291). -/
theorem glyphPaint_mapsFb {s : State} (hp : s.params.wf = true) {x y : Int} {c : Nat} {fg bg : Bool} {size : Nat}
    (hclean : glyphClean s x y c fg bg size) :
    ∃ fb', paint s.params s.pixelSafe (glyphDots s.params s.font x y c fg bg size) s.fb = .ok fb' ∧
      MapsFb s.params s.fb fb' (glyphPixel s.params s.font x y c fg bg size) := by
  have hdot := mem_glyphDots s.params s.font x y c fg bg size
  obtain ⟨fb', hpaint, hbits⟩ := paint_bits s.params s.pixelSafe (glyphDots s.params s.font x y c fg bg size) s.fb
    (hclean.imp_right fun hin d hd => hin d.x d.y ((hdot d).1 hd).1)
  refine ⟨fb', hpaint, fun X Y hin => ?_, (paint_writes _ (wf_height s.params hp) _ _ _ fb' hpaint).read_outside⟩
  obtain ⟨hwritten, huntouched⟩ := hbits (pixelByte s.params X Y) (pixelBit Y) (pixelBit_lt Y)
  have hsame : ∀ d : Dot, IsPixel s.params (pixelByte s.params X Y) (pixelBit Y) d.x d.y → d.x = X ∧ d.y = Y :=
    fun d ⟨hd, hbyte, hbit⟩ => pixel_unique s.params d.x d.y X Y hd hin hbyte hbit
  unfold glyphPixel
  split
  case isTrue hwrites =>
    refine hwritten _ (fun d hd hpixel => ?_)
      ⟨⟨X, Y, glyphOn s.font x y c fg bg size X Y⟩, (hdot _).2 ⟨hwrites, rfl⟩, hin, rfl, rfl⟩
    obtain ⟨rfl, rfl⟩ := hsame d hpixel
    exact ((hdot d).1 hd).2
  case isFalse hskips =>
    refine huntouched fun d hd hpixel => hskips ?_
    obtain ⟨rfl, rfl⟩ := hsame d hpixel
    exact ((hdot d).1 hd).1

/-- Settles O45: DRAWCHAR of a size that is not 0 paints the glyph's writes. -/
theorem drawcharPaints : Obligations.DrawcharPaints := by
  intro c fg s hc x y size hp hsize hclean
  rw [exec_drawchar_of_operands hc hsize]
  exact concludeFb_mapsPixels (glyphPaint_mapsFb hp hclean)

/-! ## WRITECHAR -/

theorem getLsbD_zero_iff {v : Word} (h : v.toNat ≤ 1) : v.getLsbD 0 = true ↔ v = 1 := by
  rw [← BitVec.toNat_inj, BitVec.getLsbD, Nat.testBit_zero, decide_eq_true_eq]
  change v.toNat % 2 = 1 ↔ v.toNat = 1
  omega

/-- The cursor after a glyph, TEXT_WRAP's reserved bits being 0 (48_glyph.md R293, R294). -/
theorem advance_eq {s : State} (hwrap : s.textWrap.toNat ≤ 1) :
    advance s =
      if s.textWrap = 1 ∧ s16 s.cursorX + 6 * u8 s.textSize > s.params.width - 6 * (u8 s.textSize : Int) then
        { s with cursorX := 0, cursorY := toWord (s16 s.cursorY + 8 * u8 s.textSize) }
      else { s with cursorX := toWord (s16 s.cursorX + 6 * u8 s.textSize) } := by
  unfold advance
  refine if_congr ?_ rfl rfl
  rw [Bool.and_eq_true, decide_eq_true_eq, getLsbD_zero_iff hwrap]

/-- Settles O46: the glyph is painted at the cursor, and the advance reads the cursor and text registers alone. -/
theorem writecharGlyph : Obligations.WritecharGlyph := by
  intro s cx cy size hl hfeed hreturn hclean
  obtain ⟨hp, -, -, -, hregs⟩ := hl.parts
  obtain ⟨-, -, -, -, -, hwrap⟩ := (regsLegal_iff s).1 hregs
  obtain ⟨fb', hpaint, hmaps⟩ := glyphPaint_mapsFb hp hclean
  refine ⟨finishDone (advance { s with fb := fb' }), ?_, ?_, ?_⟩
  · rw [exec_writechar_of_glyph hfeed hreturn]
    exact writeGlyph_ok hpaint
  · unfold MapsPixels
    rw [finishDone_fb, advance_fb]
    exact hmaps
  · have hcursor := advance_eq (s := { s with fb := fb' }) hwrap
    split
    case isTrue hnewLine =>
      rw [hcursor.trans (if_pos hnewLine)]
      rfl
    case isFalse hsameLine =>
      rw [hcursor.trans (if_neg hsameLine)]
      rfl

/-- Settles O47: the two codes that draw no glyph. -/
theorem writecharControl : Obligations.WritecharControl := by
  intro s
  refine ⟨fun hfeed => if_pos hfeed, fun hreturn => ?_⟩
  have hnotFeed : u8 (s.arg 0) ≠ 0x0A := by omega
  exact (if_neg hnotFeed).trans (if_pos hreturn)

end Sys2Proof.Machine
end

section
/-! PROOFS of 60_exceptions.md R316, R320 and R325: every input is answered by a next state, and the null and zero-sized
inputs change nothing. -/

namespace Sys2Proof.Machine

/-! ## Every step answers -/

/-- The answer is a next state: no trap, no refusal (60_exceptions.md R316). -/
def AnswersNext (r : StepResult) : Prop := ∃ t : State, r = .next t

theorem answersNext_next (t : State) : AnswersNext (.next t) := ⟨t, rfl⟩

theorem Concludes.answersNext {s : State} {r : StepResult} (h : Concludes s r) : AnswersNext r := by
  obtain ⟨t, -, hrun, -⟩ := h
  exact ⟨t, hrun⟩

theorem hostWrite16_answersNext (off v : Word) (s : State) : AnswersNext (hostWrite16 off v s) := by
  unfold hostWrite16
  split
  · split
    · exact answersNext_next _
    · split
      · exact (startCommand_concludes v s).answersNext
      · exact answersNext_next _
      · exact answersNext_next s
  · exact answersNext_next (busError s)

theorem raceCommand_answersNext (v a : Word) (b : Byte) (s : State) : AnswersNext (raceCommand v a b s) := by
  unfold raceCommand
  split
  · exact answersNext_next _
  · split
    · exact answersNext_next _
    · exact (exec_concludes _ _).answersNext

theorem perform_answersNext (e : Input) (s : State) : AnswersNext (perform e s) := by
  cases e with
  | write16 off v => exact hostWrite16_answersNext off v s
  | writeCmdRacingRes v a b => exact raceCommand_answersNext v a b s
  | write8 | read16 | read8 | platformReset | resetDuring | loadRes | loadFont => exact answersNext_next _

/-- Settles O7: by cases on the queue; a command answers because it ends in one of the three outcomes, every other input
by its own definition. -/
theorem everyStepAnswers : Obligations.EveryStepAnswers := by
  intro s
  cases hnext : s.pending with
  | nil => exact ⟨s, by unfold step; rw [hnext]⟩
  | cons e rest =>
    rw [step_perform s e rest hnext]
    exact perform_answersNext e { s with pending := rest }

/-! ## Null and zero-sized inputs -/

theorem exec_bitmap_null (c : Colour) {s : State} (h : addr (s.arg 2) = 0 ∨ u8 (s.arg 3) = 0 ∨ u8 (s.arg 4) = 0) :
    exec (.bitmap c) s = .next (finishDone s) := if_pos h

theorem exec_sprite_null (m : DrawMode) {s : State} (h : addr (s.arg 2) = 0) :
    exec (.sprite m) s = .next (finishDone s) := if_pos h

theorem exec_drawcomp_null {c : Colour} {ink : Bool} {s : State} (hc : inkOf c = some ink) (h : addr (s.arg 2) = 0) :
    exec (.drawcomp c) s = .next (finishDone s) :=
  (withInk_of_ink c s _ ink hc).trans (if_pos h)

theorem drawRotMode_null (selfMask : Bool) {s : State} (h : addr (s.arg 2) = 0) :
    drawRotMode selfMask s = .next (finishDone s) := if_pos h

theorem exec_drawchar_null {c : Colour} {ink : Bool} {s : State} (hc : inkOf c = some ink) (h : u8 (s.arg 4) = 0) :
    exec (.drawchar c) s = .next (finishDone s) :=
  (withInk_of_ink c s _ ink hc).trans (if_pos h)

section
variable {s : State} (hheader : resReadable s.params (addr (s.arg 2)) 2)
  (hempty : s.res.read (addr (s.arg 2)) = 0 ∨ s.res.read ((addr (s.arg 2) + 1) % 65536) = 0)
include hheader hempty

/-- A sprite with a zero byte in its header draws nothing (45_sprite_unaligned.md R210). -/
theorem drawSprite_empty (m : DrawMode) (f mask mf : Nat) :
    drawSprite s m (addr (s.arg 2)) f mask mf = .ok s.fb := by
  obtain ⟨hwidth, hheight⟩ := header_readable s.res (addr_lt _) hheader
  unfold drawSprite
  rw [hwidth, hheight]
  exact if_pos (hempty.imp (congrArg BitVec.toNat) (congrArg BitVec.toNat))

theorem drawRotated_empty (selfMask : Bool) (f : Nat) : drawRotated s selfMask (addr (s.arg 2)) f = .ok s.fb := by
  obtain ⟨hwidth, hheight⟩ := header_readable s.res (addr_lt _) hheader
  unfold drawRotated
  rw [hwidth, hheight]
  exact if_pos (hempty.imp (congrArg BitVec.toNat) (congrArg BitVec.toNat))

theorem exec_sprite_empty {m : DrawMode} (hmask : m = .masked → addr (s.arg 4) ≠ 0) :
    exec (.sprite m) s = .next (finishDone s) := by
  by_cases hb : addr (s.arg 2) = 0
  · exact exec_sprite_null m hb
  · rw [exec_sprite_of_operands hb hmask, drawSprite_empty hheader hempty]
    rfl

theorem drawRotMode_empty (selfMask : Bool) : drawRotMode selfMask s = .next (finishDone s) :=
  drawUnless_unchanged _ (drawRotated_empty hheader hempty selfMask _)

end

/-- Settles O30: each command tests its null operands before it reads or draws, and an empty header before its cells. -/
theorem silentDegradation : Obligations.SilentDegradation := by
  intro c ink m s hc
  refine ⟨fun h => ⟨exec_bitmap_null c h, exec_bitmap_null .invert h⟩,
    fun hb => ⟨exec_sprite_null m hb, exec_drawcomp_null hc hb, drawRotMode_null false hb, drawRotMode_null true hb⟩,
    fun hheader hempty hmask => ⟨exec_sprite_empty hheader hempty hmask, drawRotMode_empty hheader hempty false,
      drawRotMode_empty hheader hempty true⟩,
    exec_drawchar_null hc⟩

end Sys2Proof.Machine
end

section
/-! PROOFS of 70_reset_and_hazards.md R340 to R343: the state after reset, and what the platform's reset keeps. -/

namespace Sys2Proof.Machine

/-- Settles O55: FB lists no byte after reset, and each register reads as its field. -/
theorem resetValues : Obligations.ResetValues := by
  refine ⟨Memory.read_nil, rfl, rfl, rfl, rfl, rfl, rfl, ?_, rfl, rfl, rfl, rfl, rfl, rfl⟩
  decide

/-- No register is among what the platform's reset keeps (70_reset_and_hazards.md R341). -/
theorem readReg_resetState (s : State) (r : Reg) : readReg (resetState s) r = readReg State.reset r := by
  cases r <;> rfl

/-- A reset in the middle of a command abandons it whole: it is the reset between commands (70_reset_and_hazards.md R343,
log entry 10). -/
theorem step_reset {s : State} {v : Word} {rest : List Input}
    (h : s.pending = .platformReset :: rest ∨ s.pending = .resetDuring v :: rest) :
    step s = .next (resetState { s with pending := rest }) := by
  rcases h with h | h
  · exact step_perform s _ rest h
  · exact step_perform s _ rest h

/-- Settles O56: the next state of either reset input, register by register. -/
theorem platformReset : Obligations.PlatformReset := by
  intro s v rest hnext
  exact ⟨_, step_reset hnext, readReg_resetState _, Memory.read_nil, rfl, rfl, rfl, rfl⟩

/-- The default parameters lie in their ranges (00_scope.md R7 to R11). -/
theorem defaultParams_wf : defaultParams.wf = true := by decide

/-- Settles O59: part by part; the memories list no byte. -/
theorem resetLegal : Obligations.ResetLegal :=
  LegalParts.legal ⟨defaultParams_wf, Memory.fits_nil _, Memory.fits_nil _, Memory.fits_nil _, by decide⟩

end Sys2Proof.Machine
end
